-- ==== Sys2Proof/Word.lean ====
section
/-! DEFINITION. The word types: a bus word, a timing entry and a duration register are 32 bits (R8 `W_DUR`,
R60), a byte of BA or DRS is 8 bits (R61), and the counts and identities of R23 are 16 bits. -/

namespace Sys2Proof

/-- A 32-bit bus word, timing entry or duration (R8, R60, R61). -/
abbrev Word := BitVec 32

/-- One byte of BA or DRS (R61). -/
abbrev Byte := BitVec 8

/-- A 16-bit register field: a count, an index or a protocol identity (R23). -/
abbrev Half := BitVec 16

end Sys2Proof
end

