-- ==== Sys2Proof/Syntax.lean ====
section
/-! DEFINITION. The sixteen commands of R82. No command carries an operand in its word (R80, R84): every
operand is the current value of a register, so a constructor has no argument. -/

namespace Sys2Proof

/-- One constructor per row of R82's opcode map, in its order. -/
inductive Instr where
  | window
  | matchMark
  | matchSpace
  | matchAtLeast
  | matchData
  | matchBytes
  | matchGenericBits
  | matchGenericBytes
  | matchCbt
  | encodeGenericBits
  | encodeGenericBytes
  | encodeCbt
  | decode
  | encodeProtoInt
  | encodeProtoBytes
  | resetResult
  deriving DecidableEq, Repr

end Sys2Proof
end

