-- ==== Sys2Proof/Decode.lean ====
section
/-! DEFINITION. The command word: its decoder, total on every 32-bit word (R81), and its encoder, both from
R82's opcode map (spec/opcode_table.json). -/

namespace Sys2Proof

/-- One row of R82: the opcode's match value, its mask and the command. -/
structure OpRow where
  pattern : Word
  mask : Word
  instr : Instr
  deriving DecidableEq, Repr

/-- R82: a row's match value is 0x000000 followed by OPC and its mask is 0xFFFFFFFF. -/
def opRow (opc : Byte) (i : Instr) : OpRow := ⟨opc.setWidth 32, 0xFFFFFFFF#32, i⟩

/-- The pulse and bit or byte decoder rows of R82. -/
def opRowsPulse : List OpRow :=
  [opRow 0x01#8 .window, opRow 0x02#8 .matchMark, opRow 0x03#8 .matchSpace, opRow 0x04#8 .matchAtLeast,
   opRow 0x10#8 .matchData, opRow 0x11#8 .matchBytes]

/-- The frame-matcher rows of R82. -/
def opRowsFrame : List OpRow :=
  [opRow 0x20#8 .matchGenericBits, opRow 0x21#8 .matchGenericBytes, opRow 0x22#8 .matchCbt]

/-- The encoder rows of R82. -/
def opRowsEncode : List OpRow :=
  [opRow 0x30#8 .encodeGenericBits, opRow 0x31#8 .encodeGenericBytes, opRow 0x32#8 .encodeCbt]

/-- The dispatcher rows of R82. -/
def opRowsProto : List OpRow :=
  [opRow 0x40#8 .decode, opRow 0x41#8 .encodeProtoInt, opRow 0x42#8 .encodeProtoBytes, opRow 0x43#8 .resetResult]

/-- The opcode map of R82. -/
def opRows : List OpRow := opRowsPulse ++ opRowsFrame ++ opRowsEncode ++ opRowsProto

/-- Why a word is no command (R81): reserved bits [31:8] are set, or [7:0] is not an opcode of R82. -/
inductive DecodeError where
  | reservedBits
  | unknownOpcode
  deriving DecidableEq, Repr

/-- R81: the reserved bits are looked at first (R234 item 1), then the opcode. -/
def decode (w : Word) : Except DecodeError Instr :=
  if w.extractLsb' 8 24 ≠ 0#24 then .error .reservedBits
  else
    match opRows.find? (fun r => w &&& r.mask == r.pattern) with
    | some r => .ok r.instr
    | none => .error .unknownOpcode

/-- The opcode OPC of a command (R82). -/
def opcode : Instr → Byte
  | .window => 0x01#8
  | .matchMark => 0x02#8
  | .matchSpace => 0x03#8
  | .matchAtLeast => 0x04#8
  | .matchData => 0x10#8
  | .matchBytes => 0x11#8
  | .matchGenericBits => 0x20#8
  | .matchGenericBytes => 0x21#8
  | .matchCbt => 0x22#8
  | .encodeGenericBits => 0x30#8
  | .encodeGenericBytes => 0x31#8
  | .encodeCbt => 0x32#8
  | .decode => 0x40#8
  | .encodeProtoInt => 0x41#8
  | .encodeProtoBytes => 0x42#8
  | .resetResult => 0x43#8

/-- R80: the command word has OPC in [7:0] and 0 in the reserved bits [31:8]. -/
def encode (i : Instr) : Word := 0#24 ++ opcode i

/-- The instruction the decoder reads from `nbits` bits `w`, numbered as spec/opcode_table.json numbers them. A
command is one 32-bit word (R80), so what does not fit in 32 bits is no command. -/
def decodeTableWord (nbits w : Nat) : Option Instr :=
  let v := w % 2 ^ nbits
  if v < 2 ^ 32 then
    match decode (BitVec.ofNat 32 v) with
    | .ok i => some i
    | .error _ => none
  else none

end Sys2Proof
end

