-- ==== Sys2Proof/Config.lean ====
section
/-! DEFINITION. What a unit is built with: the capacities, the protocol table and the other parameters of R8,
and the free values of 93_implementation_defined.md, which are constants without a body. -/

namespace Sys2Proof

/-- Which numbers name a value of the derived-field type `Derived` (R8, R36, U13), besides its first value: the type is
an OPEN parameter, so this has no body. Log 5. -/
opaque Config.isDerivedValue (k : Nat) : Bool

/-- The type `Derived` of the protocol-specific derived fields of a Decode Result (R8, R36), an open parameter: a first
value, and whichever further ones `Config.isDerivedValue` admits, known by a number. How many there are, and what a
value stands for, nothing in Lean says: any nonempty type whose values can be written down is of this form. Log 5. -/
inductive Derived where
  | first
  | value (k : Nat) (admitted : Config.isDerivedValue k = true)
  deriving DecidableEq, Repr, Inhabited

/-- A decoded or encoded state: an integer below 2^64 or a list of bytes (R200). -/
inductive Payload where
  | int (v : BitVec 64)
  | bytes (bs : List Byte)
  deriving DecidableEq, Repr, Inhabited

/-- What a decoder returns when it matches (R200). -/
structure Record where
  bits : Half
  payload : Payload
  derived : Derived
  deriving DecidableEq, Repr, Inhabited

/-- The two kinds of reference descriptor (R202). -/
inductive FrameKind where
  | generic
  | cbt
  deriving DecidableEq, Repr

/-- A reference descriptor `d` of R202. For the kind `cbt`, `om` is T_ONE and `zm` is T_ZERO. -/
structure Descriptor where
  kind : FrameKind
  hm : Word
  hs : Word
  om : Word
  os : Word
  zm : Word
  zs : Word
  fm : Word
  fs : Word
  n : Nat
  msb : Bool
  atleast : Bool
  t : Nat
  x : Word
  deriving DecidableEq, Repr

/-- R202 requires 1 ≤ n ≤ 64 and t ≤ 100 of a reference descriptor. -/
def Descriptor.legal (d : Descriptor) : Bool :=
  decide (1 ≤ d.n) && decide (d.n ≤ 64) && decide (d.t ≤ 100)

/-- A protocol-table entry (R200): the reference protocol `descProto(id, d)` of R202; the same descriptor matched and
encoded in byte mode, built on the core as R201 allows, so that byte payloads have an entry that runs; or a brand
protocol, which the spec leaves out (R7) and which is known here by a number `k` only: `Config.protoDec k` and
`Config.protoEnc k` are its decoder and encoder. Log 4. -/
inductive ProtoEntry where
  | desc (id : Half) (d : Descriptor)
  | bytesDesc (id : Half) (d : Descriptor)
  | external (id : Half) (k : Nat)
  deriving DecidableEq, Repr

/-- The entry's protocol identity `p.id` (R200). -/
def ProtoEntry.id : ProtoEntry → Half
  | .desc i _ => i
  | .bytesDesc i _ => i
  | .external i _ => i

/-- The clauses of R200 and R202 on one entry: the id is not 0xFFFF (UNKNOWN), a descriptor is legal; in byte mode the
bits are whole bytes of a generic frame (R140). -/
def ProtoEntry.legal : ProtoEntry → Bool
  | .desc i d => i != 0xFFFF#16 && d.legal
  | .bytesDesc i d => i != 0xFFFF#16 && d.legal && decide (d.n % 8 = 0) && decide (d.kind = .generic)
  | .external i _ => i != 0xFFFF#16

/-- The contract of R200 on a table: every entry is legal and no two entries share an id. -/
def tableLegal : List ProtoEntry → Bool
  | [] => true
  | e :: es => e.legal && es.all (fun e' => e'.id != e.id) && tableLegal es

/-- The protocol table PT (R200), in table order. A table that breaks the contract cannot be built, which is the
refusal R200 and U12 ask for. The clauses on a decoder's results are kept by `ProtoEntry.dec`. Log 4, 18. -/
structure ProtocolTable where
  entries : List ProtoEntry
  legal : tableLegal entries = true := by decide
  deriving DecidableEq, Repr

/-- The parameters of R8 that a step depends on, each with its range. Log 3. -/
structure Build where
  tbCap : Nat
  obCap : Nat
  baCap : Nat
  atLeastAppliesExcess : Bool
  table : ProtocolTable
  derived0 : Derived
  tbCap_range : 1 ≤ tbCap ∧ tbCap ≤ 16384 := by decide
  obCap_range : 1 ≤ obCap ∧ obCap ≤ 16384 := by decide
  baCap_range : 1 ≤ baCap ∧ baCap ≤ 4096 := by decide
  deriving DecidableEq, Repr

/-- The bus address of the register window (R8, R62): OPEN, so it has no value here. Log 6. -/
opaque Config.base : Nat

/-- The entries of an arbitrary table. Log 4. -/
opaque Config.tableEntries : List ProtoEntry

/-- The protocol table of the unit that reset starts: an arbitrary one that meets R200's contract. Log 4. -/
def Config.table : ProtocolTable :=
  if h : tableLegal Config.tableEntries = true then ⟨Config.tableEntries, h⟩ else ⟨[], rfl⟩

/-- The decoder of brand protocol `k` (R200, R7), as a pure function. Log 4. -/
opaque Config.protoDec (k : Nat) (tb : List Word) (off : Nat) (strict : Bool) : Option Record

/-- The encoder of brand protocol `k` (R200, R7), as a pure function. Log 4. -/
opaque Config.protoEnc (k : Nat) (state : Payload) (r : Half) : List Word

/-- The valid-state predicate `Valid_p` of the protocol with this identity (R203). Log 4. -/
opaque Config.validState (id : Half) (state : Payload) : Bool

/-- The reset value `derived0` of DR_DERIVED (R8, R36). Log 5. -/
opaque Config.derived0 : Derived

/-- The unspecified contents of TB (R38, U9) after the `epoch`-th reset. Log 8, 9. -/
opaque Config.resetTbEntry (epoch i : Nat) : Word

/-- The unspecified contents of BA (R38, U7) after the `epoch`-th reset. Log 8. -/
opaque Config.resetByte (epoch j : Nat) : Byte

/-- What a host read of OB entry `i` at or beyond OB_LEN returns (R65, U8). Log 12. -/
opaque Config.staleObEntry (seq i : Nat) : Word

/-- The byte that a failed byte match leaves at BA index `j` (R126, U5). Log 10. -/
opaque Config.freeByte (seq j : Nat) : Byte

/-- The value, of width `w`, that a failed DECODE leaves in the Decode Result's field number `k` (R205, U6). Log 11. -/
opaque Config.freeField (seq k w : Nat) : BitVec w

/-- The derived fields that a failed DECODE leaves (R205, U6). Log 11. -/
opaque Config.freeDerived (seq : Nat) : Derived

/-- A unit with the default capacities of R8 and `ATLEAST_APPLIES_EXCESS` at its value there. Log 3, 4, 5, 7. -/
def Build.default : Build where
  tbCap := 1024
  obCap := 1024
  baCap := 64
  atLeastAppliesExcess := false
  table := Config.table
  derived0 := Config.derived0

end Sys2Proof
end

