-- ==== Sys2Proof/Machine/BusOp.lean ====
section
/-! DEFINITION. What the host, and the platform, can do to the unit: bus accesses (R60, R63) and reset (R260). -/

namespace Sys2Proof.Machine

/-- A bus access: its offset from BASE (R62, R88) and its width in bytes. Log 6. -/
structure Access where
  offset : Nat
  bytes : Nat
  deriving DecidableEq, Repr

/-- One operation of the host script (R86, R88), or a reset by the platform (R260). Log 1, 14. -/
inductive HostOp where
  | read (acc : Access)
  | write (acc : Access) (data : Word)
  | platformReset
  deriving DecidableEq, Repr

/-- R63: every access is 32 bits wide, at an offset that is a multiple of 4. -/
def accessLegal (a : Access) : Bool := decide (a.bytes = 4) && decide (a.offset % 4 = 0)

/-- A 32-bit access at `BASE + offset`. -/
def word32 (offset : Nat) : Access := ⟨offset, 4⟩

/-- The offset of register CMD (R80). -/
def cmdOffset : Nat := 0

end Sys2Proof.Machine
end

