-- ==== Sys2Proof/Machine/State.lean ====
section
/-! DEFINITION. The state of the unit and of its host (R20, R23, R61, R34 to R36), as plain data, and the state
right after reset (R260, R261). -/

namespace Sys2Proof.Machine

/-- The read-write registers 0x02 to 0x18 of R23: operands and frame descriptor. No command writes one. -/
structure OperandRegs where
  tbLen : Half
  cursor : Half
  meas : Word
  expect : Word
  tol : Byte
  excess : Word
  hdrMark : Word
  hdrSpace : Word
  oneMark : Word
  oneSpace : Word
  zeroMark : Word
  zeroSpace : Word
  ftrMark : Word
  ftrSpace : Word
  nbits : Half
  cfg : BitVec 4
  nbytes : Half
  baOff : Half
  valLo : Word
  valHi : Word
  repeatCount : Half
  protoId : Half
  maxSkip : Byte
  deriving DecidableEq, Repr

/-- The result registers 0x20 to 0x26 of R23. -/
structure ResultRegs where
  /-- RES_MATCH (R29). -/
  matched : BitVec 1
  /-- RES_USED (R30). -/
  used : Half
  /-- RES_LO and RES_HI (R31). -/
  lo : Word
  hi : Word
  /-- RES2_LO and RES2_HI (R31). -/
  lo2 : Word
  hi2 : Word
  /-- OB_LEN (R33). -/
  obLen : Half
  deriving DecidableEq, Repr

/-- The Decode Result (R34): registers 0x28 to 0x2E of R23, the bytes DRS and the derived fields. -/
structure DecodeResult where
  success : BitVec 1
  proto : Half
  bits : Half
  kind : BitVec 1
  valLo : Word
  valHi : Word
  nbytes : Half
  drs : List Host.Cell
  derived : Derived
  deriving DecidableEq, Repr

/-- The whole state. The memories are lists of cells in canonical form (log 8); `script` and `reads` are the host's
side (log 1), `freeSeq` and `resetEpoch` count free values and resets (log 10, 14), `build` is what the unit was
built with, which no step changes (log 3). -/
structure State where
  cmd : Word
  status : Byte
  regs : OperandRegs
  res : ResultRegs
  dr : DecodeResult
  tb : List (Nat × Word)
  ob : List (Nat × Word)
  ba : List Host.Cell
  build : Build
  script : List HostOp
  reads : List Word
  freeSeq : Nat
  resetEpoch : Nat
  deriving DecidableEq, Repr

/-- Why the machine stops. -/
inductive Fault where
  /-- Raised by the step when the host makes an access that is not 32 bits wide or not at a multiple of 4 (R63, U1):
  the host is stuck there. Safe: nothing is proved of what comes after. -/
  | stuckAccess
  deriving DecidableEq, Repr

/-- Why the model gives a command no meaning. -/
inductive Refusal where
  /-- Raised by `exec` for a command that has no meaning yet. Safe. -/
  | notModelled (mnemonic : String)
  deriving DecidableEq, Repr

/-- R23's reset column for the operand and descriptor registers. -/
def OperandRegs.reset : OperandRegs where
  tbLen := 0
  cursor := 0
  meas := 0
  expect := 0
  tol := 25
  excess := 0
  hdrMark := 0
  hdrSpace := 0
  oneMark := 0
  oneSpace := 0
  zeroMark := 0
  zeroSpace := 0
  ftrMark := 0
  ftrSpace := 0
  nbits := 0
  cfg := 0xD
  nbytes := 0
  baOff := 0
  valLo := 0
  valHi := 0
  repeatCount := 0
  protoId := 0xFFFF
  maxSkip := 0

/-- R23's reset column for the result registers. -/
def ResultRegs.reset : ResultRegs where
  matched := 0
  used := 0
  lo := 0
  hi := 0
  lo2 := 0
  hi2 := 0
  obLen := 0

/-- The reset value of the Decode Result (R35); an unlisted DRS byte is 0. -/
def DecodeResult.reset (derived0 : Derived) : DecodeResult where
  success := 0
  proto := 0xFFFF
  bits := 0
  kind := 0
  valLo := 0
  valHi := 0
  nbytes := 0
  drs := []
  derived := derived0

/-- A unit with the parameters `b` right after reset (R260), with an idle host. -/
def State.resetOf (b : Build) : State where
  cmd := 0
  status := 0
  regs := OperandRegs.reset
  res := ResultRegs.reset
  dr := DecodeResult.reset b.derived0
  tb := []
  ob := []
  ba := []
  build := b
  script := []
  reads := []
  freeSeq := 0
  resetEpoch := 0

/-- The machine right after reset, with R8's default parameters. -/
def State.reset : State := State.resetOf Build.default

end Sys2Proof.Machine
end

