-- ==== Sys2Proof/Machine/Flags.lean ====
section
/-! DEFINITION. The status codes of R230 and the bits of CFG (R25). IRPM has no other flags (R32). -/

namespace Sys2Proof.Machine

/-- The outcomes of a command (R230). -/
inductive Status where
  | ok
  | insufficientBuffer
  | timingMismatch
  | structuralMismatch
  | unsupportedProtocol
  | noMatch
  | illegalCommand
  | illegalOperand
  | encodeOverflow
  deriving DecidableEq, Repr

/-- The value of STATUS.CODE (R230). -/
def statusCode : Status → Byte
  | .ok => 0
  | .insufficientBuffer => 1
  | .timingMismatch => 2
  | .structuralMismatch => 3
  | .unsupportedProtocol => 4
  | .noMatch => 5
  | .illegalCommand => 6
  | .illegalOperand => 7
  | .encodeOverflow => 8

/-- The two ways a matcher of files 41 to 43 fails (R120, R124, R140, R161). -/
inductive Miss where
  | insufficientBuffer
  | timingMismatch
  deriving DecidableEq, Repr

/-- The status a failed matcher reports (R230). -/
def missStatus : Miss → Status
  | .insufficientBuffer => .insufficientBuffer
  | .timingMismatch => .timingMismatch

/-- CFG.MSB_FIRST, bit 0 (R25). -/
def cfgMsbFirst (r : OperandRegs) : Bool := r.cfg.getLsbD 0

/-- CFG.ATLEAST, bit 1 (R25). -/
def cfgAtLeast (r : OperandRegs) : Bool := r.cfg.getLsbD 1

/-- CFG.EXPECT_LAST_SPACE, bit 2 (R25). -/
def cfgExpectLastSpace (r : OperandRegs) : Bool := r.cfg.getLsbD 2

/-- CFG.STRICT, bit 3 (R25). -/
def cfgStrict (r : OperandRegs) : Bool := r.cfg.getLsbD 3

/-- The one-bit register value `[c]` of R10. -/
def flagBit (c : Bool) : BitVec 1 := BitVec.ofBool c

end Sys2Proof.Machine
end

