-- ==== Sys2Proof/Machine/Ops.lean ====
section
/-! DEFINITION. The named operations over State: one memory form for TB, OB, BA and DRS (R61), one update per
field, and how a command ends (R12 `finish Ok` and `raise Status`, R231, R233). IRPM has no exceptions (R235):
`raise` is what takes the place of one, and nothing is returned from (R236). -/

namespace Sys2Proof.Machine

/-! ### Memories

A memory is a list of cells, addresses strictly rising, none equal to what an unlisted address holds: `dflt`. For
TB, OB and BA that is `none`, because R38 gives no contents at reset, so every written cell is listed; for DRS it is
`some 0` (R35, R38). Log 8. -/

/-- What a TB, OB or BA element that nothing has written since reset holds: no value of its own (R38). -/
def unlistedBuffer {w : Nat} : Option (BitVec w) := none

/-- What a DRS byte that is not listed holds: 0 (R35, R38). -/
def unlistedDrs : Option Byte := some 0#8

/-- The cell listed at address `a`. -/
def memGet {w : Nat} : List (Nat × BitVec w) → Nat → Option (BitVec w)
  | [], _ => none
  | c :: m, a => if c.1 = a then some c.2 else memGet m a

/-- The memory after `v` is written at `a`, in canonical form. -/
def memPut {w : Nat} (dflt : Option (BitVec w)) : List (Nat × BitVec w) → Nat → BitVec w → List (Nat × BitVec w)
  | [], a, v => if dflt = some v then [] else [(a, v)]
  | c :: m, a, v =>
    if a < c.1 then (if dflt = some v then c :: m else (a, v) :: c :: m)
    else if a = c.1 then (if dflt = some v then m else (a, v) :: m)
    else c :: memPut dflt m a v

/-- The canonical form: addresses strictly rising, no entry equal to what an unlisted address holds. -/
def memWf {w : Nat} (dflt : Option (BitVec w)) : List (Nat × BitVec w) → Bool
  | [] => true
  | c :: m => m.all (fun d => decide (c.1 < d.1)) && decide (dflt ≠ some c.2) && memWf dflt m

/-- The values `vs` written at `a`, `a + 1`, … in this order. -/
def memPutAll {w : Nat} (dflt : Option (BitVec w)) (m : List (Nat × BitVec w)) (a : Nat) :
    List (BitVec w) → List (Nat × BitVec w)
  | [] => m
  | v :: vs => memPutAll dflt (memPut dflt m a v) (a + 1) vs

/-- TB entry `i` (R12 `MemRead(TB, i)`, R65): the written entry, or the unspecified reset contents (U9). Log 9. -/
def readTb (s : State) (i : Nat) : Word :=
  (memGet s.tb i).getD (Config.resetTbEntry s.resetEpoch i)

/-- OB entry `i` as the host reads it (R65): the entry the last encode wrote for `i` below OB_LEN, an unspecified
value beyond (U8). Log 12. -/
def readOb (s : State) (i : Nat) : Word :=
  if i < s.res.obLen.toNat then (memGet s.ob i).getD (Config.staleObEntry s.freeSeq i)
  else Config.staleObEntry s.freeSeq i

/-- BA byte `j` (R12 `MemRead(BA, j)`, R65): the written byte, or the unspecified reset contents (U7). Log 8. -/
def readBa (s : State) (j : Nat) : Byte :=
  (memGet s.ba j).getD (Config.resetByte s.resetEpoch j)

/-- DRS byte `j` of a Decode Result (R65). -/
def readDrs (d : DecodeResult) (j : Nat) : Byte := (memGet d.drs j).getD 0#8

/-- The valid part of TB, entries 0 .. TB_LEN − 1 (R64, R205). -/
def tbEntries (s : State) : List Word := (List.range s.regs.tbLen.toNat).map (readTb s)

/-- The bytes BA[off .. off + len − 1] (R187, R210). -/
def baBytes (s : State) (off len : Nat) : List Byte := (List.range len).map (fun j => readBa s (off + j))

/-! ### One update per field -/

def setCmd (s : State) (w : Word) : State := { s with cmd := w }
def setStatus (s : State) (c : Status) : State := { s with status := statusCode c }
def setRegs (s : State) (r : OperandRegs) : State := { s with regs := r }
def setRes (s : State) (r : ResultRegs) : State := { s with res := r }
def setDr (s : State) (d : DecodeResult) : State := { s with dr := d }
def setTb (s : State) (m : List (Nat × Word)) : State := { s with tb := m }
def setOb (s : State) (m : List (Nat × Word)) : State := { s with ob := m }
def setBa (s : State) (m : List Host.Cell) : State := { s with ba := m }
def setScript (s : State) (ops : List HostOp) : State := { s with script := ops }

/-- The host gets the word `w` from a read. -/
def pushRead (s : State) (w : Word) : State := { s with reads := w :: s.reads }

/-- The next free value is a fresh one. Log 10. -/
def nextFree (s : State) : State := { s with freeSeq := s.freeSeq + 1 }

/-! ### Memory writes -/

/-- `MemWrite(TB, i, v)` by the host (R65). -/
def writeTb (s : State) (i : Nat) (v : Word) : State := setTb s (memPut unlistedBuffer s.tb i v)

/-- `MemWrite(BA, j, b)` (R12). -/
def writeBa (s : State) (j : Nat) (b : Byte) : State := setBa s (memPut unlistedBuffer s.ba j b)

/-- The bytes `bs` written to BA from `off` on (R125, R146). -/
def writeBytes (s : State) (off : Nat) (bs : List Byte) : State :=
  setBa s (memPutAll unlistedBuffer s.ba off bs)

/-- `BA[off .. off + len − 1] <- any value` (R126, U5): each byte is a fresh free byte. Log 10. -/
def anyBytes (s : State) (off len : Nat) : State :=
  nextFree (writeBytes s off ((List.range len).map (fun j => Config.freeByte s.freeSeq (off + j))))

/-! ### Parts of the result registers -/

/-- RES_HI:RES_LO <- v (R31). -/
def withResult (r : ResultRegs) (v : Nat) : ResultRegs :=
  { r with lo := BitVec.ofNat 32 v, hi := BitVec.ofNat 32 (v / 2 ^ 32) }

/-- RES2_HI:RES2_LO <- v (R31). -/
def withResult2 (r : ResultRegs) (v : Nat) : ResultRegs :=
  { r with lo2 := BitVec.ofNat 32 v, hi2 := BitVec.ofNat 32 (v / 2 ^ 32) }

/-- RES_MATCH <- c (R29). -/
def withMatched (r : ResultRegs) (c : Bool) : ResultRegs := { r with matched := flagBit c }

/-- RES_USED <- u (R30). -/
def withUsed (r : ResultRegs) (u : Nat) : ResultRegs := { r with used := BitVec.ofNat 16 u }

/-- OB_LEN <- n (R33). -/
def withObLen (r : ResultRegs) (n : Nat) : ResultRegs := { r with obLen := BitVec.ofNat 16 n }

/-! ### How a command ends (R12, R231, R233) -/

/-- `finish Ok`. -/
def finishOk (s : State) : State := setStatus s .ok

/-- `raise Status(code)` after the failure outputs of the command's family are written (R233). -/
def raise (c : Status) (s : State) : State := setStatus s c

/-- The failure of a command word that is none of R82's (R81, R233): STATUS alone. -/
def raiseIllegalCommand (s : State) : State := raise .illegalCommand s

/-- A failure of WINDOW (R233). -/
def raiseWindow (c : Status) (s : State) : State :=
  raise c (setRes s (withResult2 (withResult s.res 0) 0))

/-- A failure of a pulse command (R233). -/
def raisePulse (c : Status) (s : State) : State := raise c (setRes s (withMatched s.res false))

/-- A failure of an integer matcher (R233). -/
def raiseInt (c : Status) (s : State) : State :=
  raise c (setRes s (withResult (withUsed (withMatched s.res false) 0) 0))

/-- A failure of a byte matcher, but for its BA range (R233). -/
def raiseBytes (c : Status) (s : State) : State :=
  raise c (setRes s (withUsed (withMatched s.res false) 0))

/-- A failure of an encoder (R184, R233): OB_LEN <- 0, OB's entries unchanged. What the host reads at or beyond
OB_LEN is then a new free value (U8). Log 12. -/
def raiseEncode (c : Status) (s : State) : State :=
  raise c (nextFree (setRes s (withObLen s.res 0)))

/-- R184: writing an encoder's output. -/
def writeOutput (seq : List Word) (s : State) : State :=
  if s.build.obCap < seq.length then raiseEncode .encodeOverflow s
  else
    finishOk (nextFree (setRes (setOb s (memPutAll unlistedBuffer s.ob 0 seq)) (withObLen s.res seq.length)))

/-- The Decode Result reset to R35's values (R205, R212). -/
def resetDr (s : State) : State := setDr s (DecodeResult.reset s.build.derived0)

/-- The Decode Result after NO_MATCH (R205, U6): DR_SUCCESS is 0, every other field, every DRS byte and the derived
fields are fresh free values. Log 11. -/
def anyDr (s : State) : State :=
  nextFree (setDr s
    { success := 0
      proto := Config.freeField s.freeSeq 0 16
      bits := Config.freeField s.freeSeq 1 16
      kind := Config.freeField s.freeSeq 2 1
      valLo := Config.freeField s.freeSeq 3 32
      valHi := Config.freeField s.freeSeq 4 32
      nbytes := Config.freeField s.freeSeq 5 16
      drs := memPutAll unlistedDrs [] 0
        ((List.range s.build.baCap).map (fun j => Config.freeField s.freeSeq (6 + j) 8))
      derived := Config.freeDerived s.freeSeq })

end Sys2Proof.Machine
end

