-- ==== Sys2Proof/Machine/Bus.lean ====
section
/-! DEFINITION. The host bus: the register file as the host sees it (R23, R24), the address map (R62), what reads
and writes of each window do (R65), and one host operation (R60, R67), less the running of a command. -/

namespace Sys2Proof.Machine

/-- The registers of R23 by name. -/
inductive Reg where
  | cmd | status
  | tbLen | cursor | meas | expect | tol | excess
  | hdrMark | hdrSpace | oneMark | oneSpace | zeroMark | zeroSpace | ftrMark | ftrSpace
  | nbits | cfg | nbytes | baOff | valLo | valHi | repeatCount | protoId | maxSkip
  | resMatch | resUsed | resLo | resHi | res2Lo | res2Hi | obLen
  | drSuccess | drProto | drBits | drKind | drValLo | drValHi | drNbytes
  deriving DecidableEq, Repr

/-- The registers in R23's order. -/
def regsInOrder : List Reg :=
  [.cmd, .status, .tbLen, .cursor, .meas, .expect, .tol, .excess,
   .hdrMark, .hdrSpace, .oneMark, .oneSpace, .zeroMark, .zeroSpace, .ftrMark, .ftrSpace,
   .nbits, .cfg, .nbytes, .baOff, .valLo, .valHi, .repeatCount, .protoId, .maxSkip] ++
  [.resMatch, .resUsed, .resLo, .resHi, .res2Lo, .res2Hi, .obLen,
   .drSuccess, .drProto, .drBits, .drKind, .drValLo, .drValHi, .drNbytes]

/-- The register number of R23. -/
def regno : Reg → Nat
  | .cmd => 0x00
  | .status => 0x01
  | .tbLen => 0x02
  | .cursor => 0x03
  | .meas => 0x04
  | .expect => 0x05
  | .tol => 0x06
  | .excess => 0x07
  | .hdrMark => 0x08
  | .hdrSpace => 0x09
  | .oneMark => 0x0A
  | .oneSpace => 0x0B
  | .zeroMark => 0x0C
  | .zeroSpace => 0x0D
  | .ftrMark => 0x0E
  | .ftrSpace => 0x0F
  | .nbits => 0x10
  | .cfg => 0x11
  | .nbytes => 0x12
  | .baOff => 0x13
  | .valLo => 0x14
  | .valHi => 0x15
  | .repeatCount => 0x16
  | .protoId => 0x17
  | .maxSkip => 0x18
  | .resMatch => 0x20
  | .resUsed => 0x21
  | .resLo => 0x22
  | .resHi => 0x23
  | .res2Lo => 0x24
  | .res2Hi => 0x25
  | .obLen => 0x26
  | .drSuccess => 0x28
  | .drProto => 0x29
  | .drBits => 0x2A
  | .drKind => 0x2B
  | .drValLo => 0x2C
  | .drValHi => 0x2D
  | .drNbytes => 0x2E

/-- The register with this number, `none` for a reserved number (R23). -/
def regOfNumber (n : Nat) : Option Reg := regsInOrder.find? (fun r => regno r == n)

/-- A host read of a register: its field, zero-extended (R23, R282). -/
def readReg (r : Reg) (s : State) : Word :=
  match r with
  | .cmd => s.cmd
  | .status => s.status.setWidth 32
  | .tbLen => s.regs.tbLen.setWidth 32
  | .cursor => s.regs.cursor.setWidth 32
  | .meas => s.regs.meas
  | .expect => s.regs.expect
  | .tol => s.regs.tol.setWidth 32
  | .excess => s.regs.excess
  | .hdrMark => s.regs.hdrMark
  | .hdrSpace => s.regs.hdrSpace
  | .oneMark => s.regs.oneMark
  | .oneSpace => s.regs.oneSpace
  | .zeroMark => s.regs.zeroMark
  | .zeroSpace => s.regs.zeroSpace
  | .ftrMark => s.regs.ftrMark
  | .ftrSpace => s.regs.ftrSpace
  | .nbits => s.regs.nbits.setWidth 32
  | .cfg => s.regs.cfg.setWidth 32
  | .nbytes => s.regs.nbytes.setWidth 32
  | .baOff => s.regs.baOff.setWidth 32
  | .valLo => s.regs.valLo
  | .valHi => s.regs.valHi
  | .repeatCount => s.regs.repeatCount.setWidth 32
  | .protoId => s.regs.protoId.setWidth 32
  | .maxSkip => s.regs.maxSkip.setWidth 32
  | .resMatch => s.res.matched.setWidth 32
  | .resUsed => s.res.used.setWidth 32
  | .resLo => s.res.lo
  | .resHi => s.res.hi
  | .res2Lo => s.res.lo2
  | .res2Hi => s.res.hi2
  | .obLen => s.res.obLen.setWidth 32
  | .drSuccess => s.dr.success.setWidth 32
  | .drProto => s.dr.proto.setWidth 32
  | .drBits => s.dr.bits.setWidth 32
  | .drKind => s.dr.kind.setWidth 32
  | .drValLo => s.dr.valLo
  | .drValHi => s.dr.valHi
  | .drNbytes => s.dr.nbytes.setWidth 32

/-- R24: TB_LEN takes min(w, TB_CAP). -/
def clampTbLen (b : Build) (w : Word) : Half := BitVec.ofNat 16 (min w.toNat b.tbCap)

/-- A host write to an operand or descriptor register: the field's bits are stored, the others ignored (R23, R24). A
write to a read-only register is ignored, so the registers stay (R272). CMD is not written here. -/
def writeOperandReg (r : Reg) (w : Word) (b : Build) (o : OperandRegs) : OperandRegs :=
  match r with
  | .tbLen => { o with tbLen := clampTbLen b w }
  | .cursor => { o with cursor := w.setWidth 16 }
  | .meas => { o with meas := w }
  | .expect => { o with expect := w }
  | .tol => { o with tol := w.setWidth 8 }
  | .excess => { o with excess := w }
  | .hdrMark => { o with hdrMark := w }
  | .hdrSpace => { o with hdrSpace := w }
  | .oneMark => { o with oneMark := w }
  | .oneSpace => { o with oneSpace := w }
  | .zeroMark => { o with zeroMark := w }
  | .zeroSpace => { o with zeroSpace := w }
  | .ftrMark => { o with ftrMark := w }
  | .ftrSpace => { o with ftrSpace := w }
  | .nbits => { o with nbits := w.setWidth 16 }
  | .cfg => { o with cfg := w.setWidth 4 }
  | .nbytes => { o with nbytes := w.setWidth 16 }
  | .baOff => { o with baOff := w.setWidth 16 }
  | .valLo => { o with valLo := w }
  | .valHi => { o with valHi := w }
  | .repeatCount => { o with repeatCount := w.setWidth 16 }
  | .protoId => { o with protoId := w.setWidth 16 }
  | .maxSkip => { o with maxSkip := w.setWidth 8 }
  | .cmd | .status | .resMatch | .resUsed | .resLo | .resHi | .res2Lo | .res2Hi | .obLen => o
  | .drSuccess | .drProto | .drBits | .drKind | .drValLo | .drValHi | .drNbytes => o

/-- What stands at an offset (R62). -/
inductive Target where
  | reg (r : Reg)
  | tb (i : Nat)
  | ob (i : Nat)
  | ba (j : Nat)
  | drs (j : Nat)
  | reserved
  deriving DecidableEq, Repr

/-- Element `i` of a window if it is below the window's capacity, reserved space beyond (R62, U3). -/
def windowTarget (cap i : Nat) (t : Target) : Target := if i < cap then t else .reserved

/-- The address map of R62, for an aligned offset from BASE. -/
def busTarget (b : Build) (off : Nat) : Target :=
  if off < 0x100 then
    match regOfNumber (off / 4) with
    | some r => .reg r
    | none => .reserved
  else if 0x10000 ≤ off ∧ off < 0x20000 then windowTarget b.tbCap ((off - 0x10000) / 4) (.tb ((off - 0x10000) / 4))
  else if 0x20000 ≤ off ∧ off < 0x30000 then windowTarget b.obCap ((off - 0x20000) / 4) (.ob ((off - 0x20000) / 4))
  else if 0x30000 ≤ off ∧ off < 0x34000 then windowTarget b.baCap ((off - 0x30000) / 4) (.ba ((off - 0x30000) / 4))
  else if 0x40000 ≤ off ∧ off < 0x44000 then windowTarget b.baCap ((off - 0x40000) / 4) (.drs ((off - 0x40000) / 4))
  else .reserved

/-- The bus address of an access (R62). Log 6. -/
def busAddress (a : Access) : Nat := Config.base + a.offset

/-- The offset from BASE of a bus address in or above the unit's window (R62). -/
def offsetOfAddress (addr : Nat) : Option Nat :=
  if Config.base ≤ addr then some (addr - Config.base) else none

/-- The word a host read of a target returns (R62, R65). It changes nothing (R67). -/
def busRead (t : Target) (s : State) : Word :=
  match t with
  | .reg r => readReg r s
  | .tb i => readTb s i
  | .ob i => readOb s i
  | .ba j => (readBa s j).setWidth 32
  | .drs j => (readDrs s.dr j).setWidth 32
  | .reserved => 0

/-- A host write of `w` to a target other than CMD (R62, R65, R272). -/
def busWrite (t : Target) (w : Word) (s : State) : State :=
  match t with
  | .reg r => setRegs s (writeOperandReg r w s.build s.regs)
  | .tb i => writeTb s i w
  | .ba j => writeBa s j (w.setWidth 8)
  | .ob _ => s
  | .drs _ => s
  | .reserved => s

/-- The platform's reset (R260) of a unit whose host keeps its remaining script and what it has read. The unspecified
contents of TB, OB and BA are new ones. Log 14. -/
def platformReset (s : State) : State :=
  { State.resetOf s.build with
    script := s.script, reads := s.reads, freeSeq := s.freeSeq + 1, resetEpoch := s.resetEpoch + 1 }

/-- What one host operation comes to, before a command is run. -/
inductive BusResult where
  | done (s : State)
  | command (w : Word) (s : State)
  | stuck
  deriving DecidableEq, Repr

/-- One host operation (R60, R63, R67, R81): a write to CMD stores the word for read-back and asks for a command. -/
def busAccess (op : HostOp) (s : State) : BusResult :=
  match op with
  | .platformReset => .done (platformReset s)
  | .read a =>
    if accessLegal a then .done (pushRead s (busRead (busTarget s.build a.offset) s)) else .stuck
  | .write a w =>
    if accessLegal a then
      match busTarget s.build a.offset with
      | .reg .cmd => .command w (setCmd s w)
      | t => .done (busWrite t w s)
    else .stuck

end Sys2Proof.Machine
end

