-- ==== Sys2Proof/Machine/Operands.lean ====
section
/-! DEFINITION. Operand assembly (R84) and operand legality (R232). Every operand is an unsigned natural number
read from a register at its field width; nothing is sign-extended, scaled or shifted. -/

namespace Sys2Proof.Machine

/-- `rev_n(v)` of R11: bit i of the result is bit n − 1 − i of `v`. -/
def revBits : Nat → Nat → Nat
  | 0, _ => 0
  | n + 1, v => v % 2 * 2 ^ n + revBits n (v / 2)

/-- The one pair and the zero pair, with the tolerance and the excess they are matched with (R120). -/
structure BitCoding where
  om : Nat
  os : Nat
  zm : Nat
  zs : Nat
  t : Nat
  x : Nat
  deriving DecidableEq, Repr

/-- The arguments of matchGeneric (R140) but its mode, start and bit count, with the parameter
`ATLEAST_APPLIES_EXCESS` (R108) as `ax`. -/
structure FrameArgs where
  hm : Nat
  hs : Nat
  coding : BitCoding
  fm : Nat
  fs : Nat
  atleast : Bool
  msb : Bool
  ax : Bool
  deriving DecidableEq, Repr

/-- The arguments of encodeFrame and encodeRepeat (R182): the durations as they are emitted, and the repeat count. -/
structure EmitArgs where
  hm : Word
  hs : Word
  om : Word
  os : Word
  zm : Word
  zs : Word
  fm : Word
  gap : Word
  msb : Bool
  r : Nat
  deriving DecidableEq, Repr

/-- The one and zero pair from the registers (R122, R125). -/
def codingOf (r : OperandRegs) : BitCoding where
  om := r.oneMark.toNat
  os := r.oneSpace.toNat
  zm := r.zeroMark.toNat
  zs := r.zeroSpace.toNat
  t := r.tol.toNat
  x := r.excess.toNat

/-- The frame arguments from the registers (R144, R146, R162). -/
def frameArgsOf (s : State) : FrameArgs where
  hm := s.regs.hdrMark.toNat
  hs := s.regs.hdrSpace.toNat
  coding := codingOf s.regs
  fm := s.regs.ftrMark.toNat
  fs := s.regs.ftrSpace.toNat
  atleast := cfgAtLeast s.regs
  msb := cfgMsbFirst s.regs
  ax := s.build.atLeastAppliesExcess

/-- The constant-bit-time roles (R160, R164 item 1): a 1 is (T_ONE, T_ZERO), a 0 is (T_ZERO, T_ONE). -/
def cbtCoding (c : BitCoding) : BitCoding := { c with os := c.zm, zs := c.om }

/-- The emission arguments from the registers (R185, R187). -/
def emitArgsOf (r : OperandRegs) : EmitArgs where
  hm := r.hdrMark
  hs := r.hdrSpace
  om := r.oneMark
  os := r.oneSpace
  zm := r.zeroMark
  zs := r.zeroSpace
  fm := r.ftrMark
  gap := r.ftrSpace
  msb := cfgMsbFirst r
  r := r.repeatCount.toNat

/-- The constant-bit-time roles of an emission (R188). -/
def cbtEmit (a : EmitArgs) : EmitArgs := { a with os := a.zm, zs := a.om }

/-- VAL as 64 bits (R28, R84): VAL_HI is the upper half. -/
def valBits (r : OperandRegs) : BitVec 64 := r.valHi ++ r.valLo

/-- VAL, `reg(VAL_HI) * 2^32 + reg(VAL_LO)` (R84). -/
def valOperand (r : OperandRegs) : Nat := r.valHi.toNat * 2 ^ 32 + r.valLo.toNat

/-- R102, R232: the tolerance is legal. -/
def tolLegal (r : OperandRegs) : Bool := decide (r.tol.toNat ≤ 100)

/-- R232: a bit count in 1..64. -/
def bitsLegal (n : Nat) : Bool := decide (1 ≤ n) && decide (n ≤ 64)

/-- R232: a nonzero bit count that is a multiple of 8. -/
def byteBitsLegal (n : Nat) : Bool := decide (n ≠ 0) && decide (n % 8 = 0)

/-- R232: the BA range of `len` bytes from `off` fits. -/
def rangeLegal (b : Build) (off len : Nat) : Bool := decide (off + len ≤ b.baCap)

/-- R232's conditions on MATCH_DATA, MATCH_GENERIC_BITS and MATCH_CBT. -/
def intMatchLegal (r : OperandRegs) : Bool := tolLegal r && bitsLegal r.nbits.toNat

/-- R232's conditions on MATCH_BYTES. -/
def byteMatchLegal (b : Build) (r : OperandRegs) : Bool :=
  tolLegal r && decide (1 ≤ r.nbytes.toNat) && rangeLegal b r.baOff.toNat r.nbytes.toNat

/-- R232's conditions on MATCH_GENERIC_BYTES. -/
def byteFrameLegal (b : Build) (r : OperandRegs) : Bool :=
  tolLegal r && byteBitsLegal r.nbits.toNat && rangeLegal b r.baOff.toNat (r.nbits.toNat / 8)

/-- R232's conditions on ENCODE_GENERIC_BYTES. -/
def byteEncodeLegal (b : Build) (r : OperandRegs) : Bool :=
  byteBitsLegal r.nbits.toNat && rangeLegal b r.baOff.toNat (r.nbits.toNat / 8)

end Sys2Proof.Machine
end

