-- ==== Sys2Proof/Machine/Encoder.lean ====
section
/-! DEFINITION. The frame encoder (44_encoder.md): the emission functions and the commands ENCODE_GENERIC_BITS,
ENCODE_GENERIC_BYTES and ENCODE_CBT. -/

namespace Sys2Proof.Machine

/-- The two entries of one bit (R180). -/
def emitBit (a : EmitArgs) (b : Bool) : List Word := if b then [a.om, a.os] else [a.zm, a.zs]

/-- `emitBits` (R180): the low `n` bits of `v` in wire order, MSB-first or LSB-first. -/
def emitBits (v n : Nat) (a : EmitArgs) : List Word :=
  (List.range n).flatMap (fun k => emitBit a (v.testBit (if a.msb then n - 1 - k else k)))

/-- `emitBytes` (R181). -/
def emitBytes (bs : List Byte) (a : EmitArgs) : List Word :=
  bs.flatMap (fun b => emitBits b.toNat 8 a)

/-- An optional entry (R182): 0 = absent. -/
def optEntry (d : Word) : List Word := if d = 0 then [] else [d]

/-- `encodeFrame` (R182): one section around `body`. -/
def encodeFrame (body : List Word) (a : EmitArgs) : List Word :=
  optEntry a.hm ++ optEntry a.hs ++ body ++ optEntry a.fm ++ optEntry a.gap

/-- `encodeRepeat` (R182): the message and `r` repeats. -/
def encodeRepeat (frame : List Word) (r : Nat) : List Word := (List.replicate (r + 1) frame).flatten

/-- The integer form of the generic encoder (R185). -/
def encodeGenericBits (v n : Nat) (a : EmitArgs) : List Word :=
  encodeRepeat (encodeFrame (emitBits v n a) a) a.r

/-- `encodeGenericBytes` (R186). -/
def encodeGenericBytes (bs : List Byte) (a : EmitArgs) : List Word :=
  encodeRepeat (encodeFrame (emitBytes bs a) a) a.r

/-- `encodeCBT` (R188): T_ONE is `a.om` and T_ZERO is `a.zm`. -/
def encodeCbt (v n : Nat) (a : EmitArgs) : List Word := encodeGenericBits v n (cbtEmit a)

/-- ENCODE_GENERIC_BITS (R185). -/
def execEncodeGenericBits (s : State) : Host.Outcome State Fault Refusal :=
  .next <|
    if bitsLegal s.regs.nbits.toNat then
      writeOutput (encodeGenericBits (valOperand s.regs) s.regs.nbits.toNat (emitArgsOf s.regs)) s
    else raiseEncode .illegalOperand s

/-- ENCODE_GENERIC_BYTES (R187). -/
def execEncodeGenericBytes (s : State) : Host.Outcome State Fault Refusal :=
  .next <|
    if byteEncodeLegal s.build s.regs then
      writeOutput (encodeGenericBytes (baBytes s s.regs.baOff.toNat (s.regs.nbits.toNat / 8))
        (emitArgsOf s.regs)) s
    else raiseEncode .illegalOperand s

/-- ENCODE_CBT (R189). -/
def execEncodeCbt (s : State) : Host.Outcome State Fault Refusal :=
  .next <|
    if bitsLegal s.regs.nbits.toNat then
      writeOutput (encodeCbt (valOperand s.regs) s.regs.nbits.toNat (emitArgsOf s.regs)) s
    else raiseEncode .illegalOperand s

end Sys2Proof.Machine
end

