-- ==== Sys2Proof/Machine/Pulse.lean ====
section
/-! DEFINITION. The pulse matcher (40_pulse_matcher.md): the tolerance window, its comparators, and the commands
WINDOW, MATCH_MARK, MATCH_SPACE and MATCH_AT_LEAST. -/

namespace Sys2Proof.Machine

/-- The tolerance window (R100), for t ≤ 100: (lo, hi), both inclusive, floor division. -/
def window (e t x : Nat) : Nat × Nat :=
  ((e + x) * (100 - t) / 100, (e + x) * (100 + t) / 100)

/-- R104. -/
def matchMark (m e t x : Nat) : Bool :=
  decide ((window e t x).1 ≤ m) && decide (m ≤ (window e t x).2)

/-- R106: the window without the excess; the argument is accepted and ignored. -/
def matchSpace (m e t _x : Nat) : Bool := matchMark m e t 0

/-- R108: the lower bound alone; `ax` is the parameter `ATLEAST_APPLIES_EXCESS`. -/
def matchAtLeast (ax : Bool) (m e t x : Nat) : Bool :=
  decide ((window e t (if ax then x else 0)).1 ≤ m)

/-- What R105, R107 and R109 share: the result `r` of the comparison goes to RES_MATCH and STATUS. -/
def pulseCommand (r : Bool) (s : State) : State :=
  if tolLegal s.regs then
    if r then finishOk (setRes s (withMatched s.res true)) else raisePulse .timingMismatch s
  else raisePulse .illegalOperand s

/-- WINDOW (R103). -/
def execWindow (s : State) : Host.Outcome State Fault Refusal :=
  .next <|
    if tolLegal s.regs then
      let w := window s.regs.expect.toNat s.regs.tol.toNat s.regs.excess.toNat
      finishOk (setRes s (withResult2 (withResult s.res w.1) w.2))
    else raiseWindow .illegalOperand s

/-- MATCH_MARK (R105). -/
def execMatchMark (s : State) : Host.Outcome State Fault Refusal :=
  .next (pulseCommand
    (matchMark s.regs.meas.toNat s.regs.expect.toNat s.regs.tol.toNat s.regs.excess.toNat) s)

/-- MATCH_SPACE (R107). -/
def execMatchSpace (s : State) : Host.Outcome State Fault Refusal :=
  .next (pulseCommand
    (matchSpace s.regs.meas.toNat s.regs.expect.toNat s.regs.tol.toNat s.regs.excess.toNat) s)

/-- MATCH_AT_LEAST (R109). -/
def execMatchAtLeast (s : State) : Host.Outcome State Fault Refusal :=
  .next (pulseCommand
    (matchAtLeast s.build.atLeastAppliesExcess s.regs.meas.toNat s.regs.expect.toNat s.regs.tol.toNat
      s.regs.excess.toNat) s)

end Sys2Proof.Machine
end

