-- ==== Sys2Proof/Machine/BitDecoder.lean ====
section
/-! DEFINITION. The bit decoder and the byte decoder (41_bit_byte_decoder.md): matchData, matchBytes, and the
commands MATCH_DATA and MATCH_BYTES. A core function takes the valid TB entries as a list: `N` is its length and
`MemRead(TB, i)` its element i (R201). -/

namespace Sys2Proof.Machine

/-- The outcome of a matcher (R12): `Ok(x, entries consumed)` or `Fail(code)`. -/
inductive Match (α : Type) where
  | ok (x : α) (used : Nat)
  | fail (why : Miss)
  deriving DecidableEq, Repr

/-- The value of a matcher's result passed through `f`; the entry count and a failure stay. -/
def matchMap {α β : Type} (f : α → β) : Match α → Match β
  | .ok x u => .ok (f x) u
  | .fail c => .fail c

/-- `MemRead(TB, i)`, applied with i < N only (R64). -/
def entry (tb : List Word) (i : Nat) : Nat := (tb.getD i 0#32).toNat

/-- R120: the entry at `i`, and the next one when there is a trailing space (`sp`), match the given pair. -/
def matchPair (tb : List Word) (i m s : Nat) (c : BitCoding) (sp : Bool) : Bool :=
  matchMark (entry tb i) m c.t c.x && (!sp || matchSpace (entry tb (i + 1)) s c.t c.x)

/-- R120's loop over the last `k` bits, at running offset `o` with the bits so far in `v`; `els` says whether the
last bit's trailing space is present. -/
def bitLoop (tb : List Word) (start : Nat) (c : BitCoding) (els : Bool) : Nat → Nat → Nat → Match Nat
  | 0, o, v => .ok v o
  | k + 1, o, v =>
    let sp := decide (0 < k) || els
    let o' := o + 1 + sp.toNat
    if matchPair tb (start + o) c.om c.os c sp then bitLoop tb start c els k o' (2 * v + 1)
    else if matchPair tb (start + o) c.zm c.zs c sp then bitLoop tb start c els k o' (2 * v)
    else .fail .timingMismatch

/-- R120's `total`, and with 16·nb bits R124's `need`: the entries of `n` bits. -/
def entriesOf (n : Nat) (els : Bool) : Nat := 2 * n - (1 - els.toNat)

/-- The bit order of a decoded value (R120, R161): LSB-first reverses the `n` bits. -/
def orderBits (msb : Bool) (n v : Nat) : Nat := if msb then v else revBits n v

/-- `matchData` (R120), for 1 ≤ n ≤ 64 and t ≤ 100. -/
def matchData (tb : List Word) (start n : Nat) (c : BitCoding) (msb els : Bool) : Match Nat :=
  if tb.length - start < entriesOf n els then .fail .insufficientBuffer
  else matchMap (orderBits msb n) (bitLoop tb start c els n 0 0)

/-- R124's loop over the last `k` bytes, at running offset `o`. -/
def byteLoop (tb : List Word) (start : Nat) (c : BitCoding) (msb els : Bool) : Nat → Nat → Match (List Byte)
  | 0, o => .ok [] o
  | k + 1, o =>
    match matchData tb (start + o) 8 c msb (decide (0 < k) || els) with
    | .fail w => .fail w
    | .ok b u => matchMap (BitVec.ofNat 8 b :: ·) (byteLoop tb start c msb els k (o + u))

/-- `matchBytes` (R124), for nb ≥ 1 and t ≤ 100. -/
def matchBytes (tb : List Word) (start nb : Nat) (c : BitCoding) (msb els : Bool) : Match (List Byte) :=
  if tb.length - start < entriesOf (8 * nb) els then .fail .insufficientBuffer
  else byteLoop tb start c msb els nb 0

/-- The end of an integer matcher (R122, R144, R162). -/
def finishInt (r : Match Nat) (s : State) : State :=
  match r with
  | .fail w => raiseInt (missStatus w) s
  | .ok v u => finishOk (setRes s (withResult (withUsed (withMatched s.res true) u) v))

/-- The end of a byte matcher whose target is BA[off .. off + len − 1] (R125, R126, R146). -/
def finishBytes (off len : Nat) (r : Match (List Byte)) (s : State) : State :=
  match r with
  | .fail .insufficientBuffer => raiseBytes .insufficientBuffer s
  | .fail .timingMismatch => raiseBytes .timingMismatch (anyBytes s off len)
  | .ok bs u => finishOk (setRes (writeBytes s off bs) (withUsed (withMatched s.res true) u))

/-- MATCH_DATA (R122). -/
def execMatchData (s : State) : Host.Outcome State Fault Refusal :=
  .next <|
    if intMatchLegal s.regs then
      finishInt (matchData (tbEntries s) s.regs.cursor.toNat s.regs.nbits.toNat (codingOf s.regs)
        (cfgMsbFirst s.regs) (cfgExpectLastSpace s.regs)) s
    else raiseInt .illegalOperand s

/-- MATCH_BYTES (R125). -/
def execMatchBytes (s : State) : Host.Outcome State Fault Refusal :=
  .next <|
    if byteMatchLegal s.build s.regs then
      finishBytes s.regs.baOff.toNat s.regs.nbytes.toNat
        (matchBytes (tbEntries s) s.regs.cursor.toNat s.regs.nbytes.toNat (codingOf s.regs)
          (cfgMsbFirst s.regs) (cfgExpectLastSpace s.regs)) s
    else raiseBytes .illegalOperand s

end Sys2Proof.Machine
end

