-- ==== Sys2Proof/Machine/FrameMatcher.lean ====
section
/-! DEFINITION. The generic frame matcher (42_frame_matcher.md) and the constant-bit-time frame matcher
(43_const_bit_time.md), with the commands MATCH_GENERIC_BITS, MATCH_GENERIC_BYTES and MATCH_CBT. -/

namespace Sys2Proof.Machine

/-- `[d ≠ 0]`: whether an optional field is there (R10, R26). -/
def present (d : Nat) : Nat := if d = 0 then 0 else 1

/-- An optional header or footer mark at running offset `o` (R140): the next offset, or `none` on a mismatch. -/
def optMark (tb : List Word) (start d : Nat) (c : BitCoding) (o : Nat) : Option Nat :=
  if d = 0 then some o
  else if matchMark (entry tb (start + o)) d c.t c.x then some (o + 1) else none

/-- An optional header space (R140). -/
def optSpace (tb : List Word) (start d : Nat) (c : BitCoding) (o : Nat) : Option Nat :=
  if d = 0 then some o
  else if matchSpace (entry tb (start + o)) d c.t c.x then some (o + 1) else none

/-- The footer space (R140): looked at only if it is there and an entry is left, by CFG.ATLEAST's policy. -/
def footerSpace (tb : List Word) (start : Nat) (a : FrameArgs) (o : Nat) : Option Nat :=
  if a.fs ≠ 0 ∧ o < tb.length - start then
    let e := entry tb (start + o)
    if (if a.atleast then matchAtLeast a.ax e a.fs a.coding.t a.coding.x
        else matchSpace e a.fs a.coding.t a.coding.x) then some (o + 1) else none
  else some o

/-- The theoretical minimum of a section of `n` bits (R140, R142 item 1): the footer space is not counted. -/
def frameMin (a : FrameArgs) (n : Nat) : Nat := 2 * n + present a.hm + present a.hs + present a.fm

/-- `matchGeneric` (R140), with the body's matcher as an argument: it takes the TB index the body starts at. -/
def matchFrame {α : Type} (tb : List Word) (start n : Nat) (a : FrameArgs) (body : Nat → Match α) : Match α :=
  if tb.length - start < frameMin a n then .fail .insufficientBuffer
  else
    match (optMark tb start a.hm a.coding 0).bind (optSpace tb start a.hs a.coding) with
    | none => .fail .timingMismatch
    | some o =>
      match body (start + o) with
      | .fail w => .fail w
      | .ok b u =>
        match (optMark tb start a.fm a.coding (o + u)).bind (footerSpace tb start a) with
        | none => .fail .timingMismatch
        | some o' => .ok b o'

/-- `matchGeneric` in bit mode (R140), for 1 ≤ n ≤ 64 and t ≤ 100. -/
def matchGenericBits (tb : List Word) (start n : Nat) (a : FrameArgs) : Match Nat :=
  matchFrame tb start n a (fun i => matchData tb i n a.coding a.msb true)

/-- `matchGeneric` in byte mode (R140), for n ≥ 8, n % 8 = 0 and t ≤ 100. -/
def matchGenericBytes (tb : List Word) (start n : Nat) (a : FrameArgs) : Match (List Byte) :=
  matchFrame tb start n a (fun i => matchBytes tb i (n / 8) a.coding a.msb true)

/-- The minimum of a constant-bit-time frame without a footer (R161). -/
def cbtMin (a : FrameArgs) (n : Nat) : Nat := present a.hm + present a.hs + 2 * (n - 1) + 1

/-- R161's ordinary bits, in wire order: none when n = 1. -/
def cbtOrdinary (tb : List Word) (start n : Nat) (c : BitCoding) : Match Nat :=
  if 2 ≤ n then matchData tb start (n - 1) c true true else .ok 0 0

/-- R161's trailing space of the final bit: checked against the inferred duration if an entry is left (R163). -/
def cbtTrailing (tb : List Word) (start inferred : Nat) (c : BitCoding) (o v : Nat) : Match Nat :=
  if o < tb.length - start then
    if matchSpace (entry tb (start + o)) inferred c.t c.x then .ok v (o + 1) else .fail .timingMismatch
  else .ok v o

/-- R161's final bit, decided by its mark alone; `c` carries T_ONE as `om` and T_ZERO as `zm`. -/
def cbtFinalBit (tb : List Word) (start : Nat) (c : BitCoding) (o v : Nat) : Match Nat :=
  let m := entry tb (start + o)
  if matchMark m c.om c.t c.x then cbtTrailing tb start c.zm c (o + 1) (2 * v + 1)
  else if matchMark m c.zm c.t c.x then cbtTrailing tb start c.om c (o + 1) (2 * v)
  else .fail .timingMismatch

/-- R161 without a footer mark: final-bit inference. -/
def cbtInferred (tb : List Word) (start n : Nat) (a : FrameArgs) : Match Nat :=
  let c := cbtCoding a.coding
  if tb.length - start < cbtMin a n then .fail .insufficientBuffer
  else
    match (optMark tb start a.hm c 0).bind (optSpace tb start a.hs c) with
    | none => .fail .timingMismatch
    | some o =>
      match cbtOrdinary tb (start + o) n c with
      | .fail w => .fail w
      | .ok v u => matchMap (orderBits a.msb n) (cbtFinalBit tb start c (o + u) v)

/-- `matchCBT` (R161), for 1 ≤ n ≤ 64 and t ≤ 100. T_ONE is `a.coding.om` and T_ZERO is `a.coding.zm` (R160). -/
def matchCbt (tb : List Word) (start n : Nat) (a : FrameArgs) : Match Nat :=
  if a.fm ≠ 0 then matchGenericBits tb start n { a with coding := cbtCoding a.coding }
  else cbtInferred tb start n a

/-- MATCH_GENERIC_BITS (R144). -/
def execMatchGenericBits (s : State) : Host.Outcome State Fault Refusal :=
  .next <|
    if intMatchLegal s.regs then
      finishInt (matchGenericBits (tbEntries s) s.regs.cursor.toNat s.regs.nbits.toNat (frameArgsOf s)) s
    else raiseInt .illegalOperand s

/-- MATCH_GENERIC_BYTES (R146). -/
def execMatchGenericBytes (s : State) : Host.Outcome State Fault Refusal :=
  .next <|
    if byteFrameLegal s.build s.regs then
      finishBytes s.regs.baOff.toNat (s.regs.nbits.toNat / 8)
        (matchGenericBytes (tbEntries s) s.regs.cursor.toNat s.regs.nbits.toNat (frameArgsOf s)) s
    else raiseBytes .illegalOperand s

/-- MATCH_CBT (R162). -/
def execMatchCbt (s : State) : Host.Outcome State Fault Refusal :=
  .next <|
    if intMatchLegal s.regs then
      finishInt (matchCbt (tbEntries s) s.regs.cursor.toNat s.regs.nbits.toNat (frameArgsOf s)) s
    else raiseInt .illegalOperand s

end Sys2Proof.Machine
end

