-- ==== Sys2Proof/Machine/Dispatcher.lean ====
section
/-! DEFINITION. The protocol dispatcher (45_dispatcher.md): the table entries' decoders and encoders, dispatch and
lookup, and the commands DECODE, ENCODE_PROTO_INT, ENCODE_PROTO_BYTES and RESET_RESULT. -/

namespace Sys2Proof.Machine

/-- The matching arguments of a reference descriptor (R202). -/
def descFrameArgs (b : Build) (d : Descriptor) : FrameArgs where
  hm := d.hm.toNat
  hs := d.hs.toNat
  coding := ⟨d.om.toNat, d.os.toNat, d.zm.toNat, d.zs.toNat, d.t, d.x.toNat⟩
  fm := d.fm.toNat
  fs := d.fs.toNat
  atleast := d.atleast
  msb := d.msb
  ax := b.atLeastAppliesExcess

/-- The emission arguments of a reference descriptor (R202). -/
def descEmitArgs (d : Descriptor) (r : Half) : EmitArgs :=
  ⟨d.hm, d.hs, d.om, d.os, d.zm, d.zs, d.fm, d.fs, d.msb, r.toNat⟩

/-- The decoder of a reference protocol (R202): strict is not used. -/
def descDec (b : Build) (d : Descriptor) (tb : List Word) (off : Nat) : Option Record :=
  match (match d.kind with
    | .generic => matchGenericBits tb off d.n (descFrameArgs b d)
    | .cbt => matchCbt tb off d.n (descFrameArgs b d)) with
  | .ok v _ => some ⟨BitVec.ofNat 16 d.n, .int (BitVec.ofNat 64 v), b.derived0⟩
  | .fail _ => none

/-- The encoder of a reference protocol (R202): a byte state gives the empty sequence. -/
def descEnc (d : Descriptor) (state : Payload) (r : Half) : List Word :=
  match state with
  | .bytes _ => []
  | .int v =>
    match d.kind with
    | .generic => encodeGenericBits v.toNat d.n (descEmitArgs d r)
    | .cbt => encodeCbt v.toNat d.n (descEmitArgs d r)

/-- The decoder of a descriptor in byte mode (R201). Log 4. -/
def bytesDec (b : Build) (d : Descriptor) (tb : List Word) (off : Nat) : Option Record :=
  match matchGenericBytes tb off d.n (descFrameArgs b d) with
  | .ok bs _ => some ⟨BitVec.ofNat 16 d.n, .bytes bs, b.derived0⟩
  | .fail _ => none

/-- The encoder of a descriptor in byte mode (R201, R186): an integer, or bytes that are not the descriptor's number of
them, give the empty sequence. Log 4. -/
def bytesEnc (d : Descriptor) (state : Payload) (r : Half) : List Word :=
  match state with
  | .int _ => []
  | .bytes bs => if bs.length = d.n / 8 then encodeGenericBytes bs (descEmitArgs d r) else []

/-- R200: a record's byte list has at most BA_CAP bytes. -/
def recordLegal (b : Build) (rec : Record) : Bool :=
  match rec.payload with
  | .int _ => true
  | .bytes bs => decide (bs.length ≤ b.baCap)

/-- An entry's decoder `p.dec` (R200). Every record meets R200's bound: one beyond it counts as none, and no admissible
decoder gives one. Log 4, 18. -/
def entryDec (b : Build) (p : ProtoEntry) (tb : List Word) (off : Nat) (strict : Bool) : Option Record :=
  match p with
  | .desc _ d => descDec b d tb off
  | .bytesDesc _ d => (bytesDec b d tb off).filter (recordLegal b)
  | .external _ k => (Config.protoDec k tb off strict).filter (recordLegal b)

/-- An entry's encoder `p.enc` (R200). -/
def entryEnc (p : ProtoEntry) (state : Payload) (r : Half) : List Word :=
  match p with
  | .desc _ d => descEnc d state r
  | .bytesDesc _ d => bytesEnc d state r
  | .external _ k => Config.protoEnc k state r

/-- The inner loop of R204: the first entry, in table order, that accepts the buffer at offset `off`. -/
def firstAt (b : Build) (tb : List Word) (strict : Bool) (off : Nat) : Option (Half × Record) :=
  b.table.entries.findSome? (fun p => (entryDec b p tb off strict).map (fun rec => (p.id, rec)))

/-- `dispatch` (R204): offsets 0, 1, …, K in the outer loop, the table in the inner one, first success. -/
def dispatch (b : Build) (tb : List Word) (K : Nat) (strict : Bool) : Option (Half × Record) :=
  (List.range (K + 1)).findSome? (firstAt b tb strict)

/-- `lookup` (R208). -/
def lookup (b : Build) (id : Half) : Option ProtoEntry := b.table.entries.find? (fun p => p.id == id)

/-- The Decode Result of a successful decode (R205): R35's values with the record written over them. -/
def recordDr (b : Build) (id : Half) (rec : Record) : DecodeResult :=
  let d := { DecodeResult.reset b.derived0 with
    success := 1, proto := id, bits := rec.bits, derived := rec.derived }
  match rec.payload with
  | .int v => { d with kind := 0, valLo := v.extractLsb' 0 32, valHi := v.extractLsb' 32 32 }
  | .bytes bs =>
    { d with kind := 1, nbytes := BitVec.ofNat 16 bs.length, drs := memPutAll unlistedDrs d.drs 0 bs }

/-- DECODE (R205). -/
def execDecode (s : State) : Host.Outcome State Fault Refusal :=
  .next <|
    match dispatch s.build (tbEntries s) s.regs.maxSkip.toNat (cfgStrict s.regs) with
    | none => raise .noMatch (anyDr s)
    | some found => finishOk (setDr s (recordDr s.build found.1 found.2))

/-- What R209 and R210 share once the state operand is there. -/
def encodeProto (state : Payload) (s : State) : State :=
  match lookup s.build s.regs.protoId with
  | none => raiseEncode .unsupportedProtocol s
  | some p =>
    match entryEnc p state s.regs.repeatCount with
    | [] => raiseEncode .structuralMismatch s
    | v :: vs => writeOutput (v :: vs) s

/-- ENCODE_PROTO_INT (R209). -/
def execEncodeProtoInt (s : State) : Host.Outcome State Fault Refusal :=
  .next (encodeProto (.int (valBits s.regs)) s)

/-- ENCODE_PROTO_BYTES (R210). -/
def execEncodeProtoBytes (s : State) : Host.Outcome State Fault Refusal :=
  .next <|
    if rangeLegal s.build s.regs.baOff.toNat s.regs.nbytes.toNat then
      encodeProto (.bytes (baBytes s s.regs.baOff.toNat s.regs.nbytes.toNat)) s
    else raiseEncode .illegalOperand s

/-- RESET_RESULT (R212). -/
def execResetResult (s : State) : Host.Outcome State Fault Refusal := .next (finishOk (resetDr s))

end Sys2Proof.Machine
end

