-- ==== Sys2Proof/Machine/Dispatch.lean ====
section
/-! DEFINITION. exec: one arm per command of R82. -/

namespace Sys2Proof.Machine

def exec (i : Instr) (s : State) : Host.Outcome State Fault Refusal :=
  match i with
  | .window => Sys2Proof.Machine.execWindow s
  | .matchMark => Sys2Proof.Machine.execMatchMark s
  | .matchSpace => Sys2Proof.Machine.execMatchSpace s
  | .matchAtLeast => Sys2Proof.Machine.execMatchAtLeast s
  | .matchData => Sys2Proof.Machine.execMatchData s
  | .matchBytes => Sys2Proof.Machine.execMatchBytes s
  | .matchGenericBits => Sys2Proof.Machine.execMatchGenericBits s
  | .matchGenericBytes => Sys2Proof.Machine.execMatchGenericBytes s
  | .matchCbt => Sys2Proof.Machine.execMatchCbt s
  | .encodeGenericBits => Sys2Proof.Machine.execEncodeGenericBits s
  | .encodeGenericBytes => Sys2Proof.Machine.execEncodeGenericBytes s
  | .encodeCbt => Sys2Proof.Machine.execEncodeCbt s
  | .decode => Sys2Proof.Machine.execDecode s
  | .encodeProtoInt => Sys2Proof.Machine.execEncodeProtoInt s
  | .encodeProtoBytes => Sys2Proof.Machine.execEncodeProtoBytes s
  | .resetResult => Sys2Proof.Machine.execResetResult s

end Sys2Proof.Machine
end

