-- ==== Sys2Proof/Machine/Step.lean ====
section
/-! DEFINITION. One step: the host's next operation. IRPM fetches nothing (R22, R74); what comes nearest to a fetch is
the host's write of a command word to CMD (R80, R81). With no operation left the run is over and the unit is idle,
holding its state (R245, R281). Log 1, 2. -/

namespace Sys2Proof.Machine

/-- R81: the word written to CMD is run as a command, or is ILLEGAL_COMMAND. -/
def runWord (w : Word) (s : State) : Host.Outcome State Fault Refusal :=
  match decode w with
  | .ok i => exec i s
  | .error _ => .next (raiseIllegalCommand s)

/-- One operation of the host script. -/
def step (s : State) : Host.Outcome State Fault Refusal :=
  match s.script with
  | [] => .next s
  | op :: rest =>
    match busAccess op (setScript s rest) with
    | .done t => .next t
    | .command w t => runWord w t
    | .stuck => .fault .stuckAccess

/-- `s` with the host's next operation a write of the command word `w` (its low `nbits` bits) to CMD. -/
def State.withFetchWord (s : State) (nbits w : Nat) : State :=
  { s with script := HostOp.write (word32 cmdOffset) (BitVec.ofNat 32 (w % 2 ^ nbits)) :: s.script }

end Sys2Proof.Machine
end

