-- ==== Sys2Proof/WellFormed.lean ====
section
/-! DEFINITION. Well-formed terms. A command has no operand to check (R84), so every instruction is well formed; a
host operation is well formed when its access is one R63 gives a meaning; a table when it meets R200's contract. -/

namespace Sys2Proof

/-- R80, R84: a command is its opcode alone, so nothing in it can be ill formed. -/
def Instr.wf : Instr → Bool
  | .window | .matchMark | .matchSpace | .matchAtLeast => true
  | .matchData | .matchBytes => true
  | .matchGenericBits | .matchGenericBytes | .matchCbt => true
  | .encodeGenericBits | .encodeGenericBytes | .encodeCbt => true
  | .decode | .encodeProtoInt | .encodeProtoBytes | .resetResult => true

/-- R63: the access of a host operation is aligned and 32 bits wide. -/
def Machine.HostOp.wf : Machine.HostOp → Bool
  | .read a => Machine.accessLegal a
  | .write a _ => Machine.accessLegal a
  | .platformReset => true

/-- R281: a host script none of whose operations gets the host stuck. -/
def Machine.scriptWf (ops : List Machine.HostOp) : Bool := ops.all Machine.HostOp.wf

/-- R200: a list of entries is an admissible protocol table. -/
def tableWf (es : List ProtoEntry) : Bool := tableLegal es

end Sys2Proof
end

