-- ==== Sys2Proof/Safety.lean ====
section
/-! DEFINITION. What counts as a safe state and a safe run, in the terms the claims use: the invariant every step
keeps, scripts that never get the host stuck (R63, R281), the conditions of a round trip (R191), and what a protocol
table owes (R203), which IRPM cannot check. -/

namespace Sys2Proof.Machine

/-- A memory is canonical and lies below its capacity (R61, R62). -/
def MemOk {w : Nat} (dflt : Option (BitVec w)) (cap : Nat) (m : List (Nat × BitVec w)) : Prop :=
  memWf dflt m = true ∧ ∀ c ∈ m, c.1 < cap

/-- The Decode Result says what R34 and R205 let it say: a success names an entry of PT, and its byte count is a byte
payload's within BA_CAP. -/
def DrOk (b : Build) (d : DecodeResult) : Prop :=
  MemOk unlistedDrs b.baCap d.drs ∧
    (d.success = 1 → (∃ p ∈ b.table.entries, p.id = d.proto) ∧ d.nbytes.toNat ≤ b.baCap ∧
      (d.kind = 0 → d.nbytes = 0 ∧ d.drs = []) ∧ (d.kind = 1 → d.valLo = 0 ∧ d.valHi = 0))

/-- What every step keeps: canonical memories within their capacities, the lengths within theirs (R23, R24), every OB
entry below OB_LEN written (R65), no reserved status code (R230), and a sound Decode Result. -/
structure UnitInv (s : State) : Prop where
  tb : MemOk unlistedBuffer s.build.tbCap s.tb
  ob : MemOk unlistedBuffer s.build.obCap s.ob
  ba : MemOk unlistedBuffer s.build.baCap s.ba
  dr : DrOk s.build s.dr
  tbLen : s.regs.tbLen.toNat ≤ s.build.tbCap
  used : s.res.used.toNat ≤ s.build.tbCap
  obLen : s.res.obLen.toNat ≤ s.build.obCap
  obWritten : ∀ i, i < s.res.obLen.toNat → (memGet s.ob i).isSome = true
  status : s.status.toNat ≤ 8

/-- A register the host can write (R23): all but CMD, whose write runs a command, and the read-only ones. -/
def writableReg : Reg → Bool
  | .tbLen | .cursor | .meas | .expect | .tol | .excess => true
  | .hdrMark | .hdrSpace | .oneMark | .oneSpace | .zeroMark | .zeroSpace | .ftrMark | .ftrSpace => true
  | .nbits | .cfg | .nbytes | .baOff | .valLo | .valHi | .repeatCount | .protoId | .maxSkip => true
  | .cmd | .status | .resMatch | .resUsed | .resLo | .resHi | .res2Lo | .res2Hi | .obLen => false
  | .drSuccess | .drProto | .drBits | .drKind | .drValLo | .drValHi | .drNbytes => false

/-- The width of a register's field, bits [width − 1 : 0] (R23). -/
def fieldWidth : Reg → Nat
  | .status | .tol | .maxSkip => 8
  | .tbLen | .cursor | .nbits | .nbytes | .baOff | .repeatCount | .protoId => 16
  | .resUsed | .obLen | .drProto | .drBits | .drNbytes => 16
  | .cfg => 4
  | .resMatch | .drSuccess | .drKind => 1
  | .cmd | .meas | .expect | .excess => 32
  | .hdrMark | .hdrSpace | .oneMark | .oneSpace | .zeroMark | .zeroSpace | .ftrMark | .ftrSpace => 32
  | .valLo | .valHi | .resLo | .resHi | .res2Lo | .res2Hi | .drValLo | .drValHi => 32

/-- R191 (a), R110 item 5: the duration `d` lies in its own mark window. -/
def ownMark (d t x : Nat) : Prop := (d + x) * (100 - t) / 100 ≤ d

/-- R191 (a) for a frame that carries the bits `bit 0 .. bit (n − 1)`: every duration emitted as a mark lies in its own
mark window. -/
def MarksOwn (r : OperandRegs) (n : Nat) (bit : Nat → Bool) : Prop :=
  (r.hdrMark ≠ 0 → ownMark r.hdrMark.toNat r.tol.toNat r.excess.toNat) ∧
  (r.ftrMark ≠ 0 → ownMark r.ftrMark.toNat r.tol.toNat r.excess.toNat) ∧
  ((∃ k, k < n ∧ bit k = true) → ownMark r.oneMark.toNat r.tol.toNat r.excess.toNat) ∧
  ((∃ k, k < n ∧ bit k = false) → ownMark r.zeroMark.toNat r.tol.toNat r.excess.toNat)

/-- R191 (b), generic: the one pair does not accept the zero pair. -/
def PairsApart (r : OperandRegs) : Prop :=
  ¬(matchMark r.zeroMark.toNat r.oneMark.toNat r.tol.toNat r.excess.toNat = true ∧
    matchSpace r.zeroSpace.toNat r.oneSpace.toNat r.tol.toNat r.excess.toNat = true)

/-- The footer space, where one is emitted, matches the footer policy (R191): always for the exact policy, and for the
at-least policy when it leaves the excess out (R108's value) or the excess does not lift the bound above the gap. R191
says "always"; the last case is log 20's. -/
def GapOwn (b : Build) (r : OperandRegs) : Prop :=
  r.ftrSpace ≠ 0 → b.atLeastAppliesExcess = false ∨ cfgAtLeast r = false ∨
    ownMark r.ftrSpace.toNat r.tol.toNat r.excess.toNat

/-- R191: `t` is the state the round trip matches in: OB of `s` copied into TB, TB_LEN = OB_LEN, CURSOR = 0, the same
registers otherwise. -/
def CopiedBack (s t : State) : Prop :=
  t.build = s.build ∧
  t.regs = { s.regs with tbLen := s.res.obLen, cursor := 0 } ∧
  ∀ i, i < s.res.obLen.toNat → readTb t i = busRead (.ob i) s

/-- The entries of one section with `n` body bits (R190). -/
def sectionEntries (r : OperandRegs) (n : Nat) : Nat :=
  (if r.hdrMark = 0 then 0 else 1) + (if r.hdrSpace = 0 then 0 else 1) + 2 * n +
    (if r.ftrMark = 0 then 0 else 1) + (if r.ftrSpace = 0 then 0 else 1)

/-- An offset that R62 and R23 reserve: a reserved register number, the space between the windows, an index at or
beyond a window's capacity (U2, U3). -/
def reservedOffset (b : Build) (off : Nat) : Prop :=
  (0x19 * 4 ≤ off ∧ off < 0x20 * 4) ∨ (0x27 * 4 ≤ off ∧ off < 0x28 * 4) ∨ (0x2F * 4 ≤ off ∧ off < 0x10000) ∨
  (0x10000 + 4 * b.tbCap ≤ off ∧ off < 0x20000) ∨ (0x20000 + 4 * b.obCap ≤ off ∧ off < 0x30000) ∨
  (0x30000 + 4 * b.baCap ≤ off ∧ off < 0x40000) ∨ 0x40000 + 4 * b.baCap ≤ off

/-- The entries left from the cursor on, `sat(reg(TB_LEN) − start)` (R16). -/
def remaining (s : State) : Nat := s.regs.tbLen.toNat - s.regs.cursor.toNat

/-- TB entry `o` entries after the cursor, as a number. -/
def atCursor (s : State) (o : Nat) : Nat := (readTb s (s.regs.cursor.toNat + o)).toNat

/-- R120: the pair at running offset `o` matches the mark `m` and, when the bit has a trailing space, the space `p`. -/
def pairFits (s : State) (o : Nat) (m p : Word) (sp : Bool) : Bool :=
  matchMark (atCursor s o) m.toNat s.regs.tol.toNat s.regs.excess.toNat &&
    (!sp || matchSpace (atCursor s (o + 1)) p.toNat s.regs.tol.toNat s.regs.excess.toNat)

/-- R120: bit `k` of `n` bits has a trailing space. -/
def hasSpace (s : State) (n k : Nat) : Bool := decide (k + 1 < n) || cfgExpectLastSpace s.regs

/-- R120: bit `k` is decided as `b`: a 1 if the one pair matches, else a 0 if the zero pair does. -/
def bitReads (s : State) (n k : Nat) (b : Bool) : Prop :=
  if b then pairFits s (2 * k) s.regs.oneMark s.regs.oneSpace (hasSpace s n k) = true
  else pairFits s (2 * k) s.regs.oneMark s.regs.oneSpace (hasSpace s n k) = false ∧
    pairFits s (2 * k) s.regs.zeroMark s.regs.zeroSpace (hasSpace s n k) = true

/-- The integer whose bits are on the wire in the order `bits 0, bits 1, …` (R123 item 3). -/
def wireValue (msb : Bool) (n : Nat) (bits : Nat → Bool) : Nat :=
  ∑ k ∈ Finset.range n, if bits k then 2 ^ (if msb then n - 1 - k else k) else 0

/-- RES_MATCH, RES_USED and RES as a successful integer matcher leaves them (R122, R144, R162). -/
def intResult (r : ResultRegs) (v used : Nat) : ResultRegs :=
  { r with
    matched := 1, used := BitVec.ofNat 16 used, lo := BitVec.ofNat 32 v, hi := BitVec.ofNat 32 (v / 2 ^ 32) }

/-- RES_MATCH, RES_USED and RES as a failed integer matcher leaves them (R233). -/
def intFailure (r : ResultRegs) : ResultRegs := { r with matched := 0, used := 0, lo := 0, hi := 0 }

/-- The header of R140 and R161 matches: its mark and its space, each where it is there. -/
def headerFits (s : State) : Prop :=
  (s.regs.hdrMark ≠ 0 →
    matchMark (atCursor s 0) s.regs.hdrMark.toNat s.regs.tol.toNat s.regs.excess.toNat = true) ∧
  (s.regs.hdrSpace ≠ 0 →
    matchSpace (atCursor s (present s.regs.hdrMark.toNat)) s.regs.hdrSpace.toNat s.regs.tol.toNat
      s.regs.excess.toNat = true)

/-- The entries of the header. -/
def headerEntries (r : OperandRegs) : Nat := present r.hdrMark.toNat + present r.hdrSpace.toNat

/-- R140's theoretical minimum for the registers. -/
def sectionMinimum (r : OperandRegs) : Nat :=
  2 * r.nbits.toNat + headerEntries r + present r.ftrMark.toNat

/-- The footer of R140 matches, after `o` entries of header and body: its mark if it is there, its space if it is there
and an entry is left, by CFG.ATLEAST's policy. -/
def footerFits (s : State) (o : Nat) : Prop :=
  (s.regs.ftrMark ≠ 0 →
    matchMark (atCursor s o) s.regs.ftrMark.toNat s.regs.tol.toNat s.regs.excess.toNat = true) ∧
  (s.regs.ftrSpace ≠ 0 → o + present s.regs.ftrMark.toNat < remaining s →
    (if cfgAtLeast s.regs then
      matchAtLeast s.build.atLeastAppliesExcess (atCursor s (o + present s.regs.ftrMark.toNat))
        s.regs.ftrSpace.toNat s.regs.tol.toNat s.regs.excess.toNat
    else
      matchSpace (atCursor s (o + present s.regs.ftrMark.toNat)) s.regs.ftrSpace.toNat s.regs.tol.toNat
        s.regs.excess.toNat) = true)

/-- R147 item 2: the entries of a matched section are its minimum, and one more when a footer space is there and an
entry is left for it. -/
def sectionUsed (s : State) : Nat :=
  sectionMinimum s.regs +
    (if s.regs.ftrSpace ≠ 0 ∧ sectionMinimum s.regs < remaining s then 1 else 0)

/-- R140: the section at the cursor matches, with the body's outcome `body` at the TB index where the body starts. -/
def sectionFits {α : Type} (s : State) (body : Nat → Match α) (x : α) : Prop :=
  headerFits s ∧
  body (s.regs.cursor.toNat + headerEntries s.regs) = .ok x (2 * s.regs.nbits.toNat) ∧
  footerFits s (headerEntries s.regs + 2 * s.regs.nbits.toNat)

/-- The bit-mode body of R140 for the registers. -/
def bitsBody (s : State) (i : Nat) : Match Nat :=
  matchData (tbEntries s) i s.regs.nbits.toNat (codingOf s.regs) (cfgMsbFirst s.regs) true

/-- The byte-mode body of R140 for the registers. -/
def bytesBody (s : State) (i : Nat) : Match (List Byte) :=
  matchBytes (tbEntries s) i (s.regs.nbits.toNat / 8) (codingOf s.regs) (cfgMsbFirst s.regs) true

/-- R161's minimum for the registers, without a footer mark. -/
def cbtMinimum (r : OperandRegs) : Nat := headerEntries r + 2 * (r.nbits.toNat - 1) + 1

/-- R161: the `n − 1` ordinary bits, in wire order, give `w`. -/
def cbtOrdinaryFits (s : State) (w : Nat) : Prop :=
  if s.regs.nbits.toNat = 1 then w = 0
  else matchData (tbEntries s) (s.regs.cursor.toNat + headerEntries s.regs) (s.regs.nbits.toNat - 1)
    (cbtCoding (codingOf s.regs)) true true = .ok w (2 * (s.regs.nbits.toNat - 1))

/-- R161: the final bit, `o` entries after the cursor, reads as `b` by its mark alone, and its trailing space, if an
entry is left, matches the duration inferred from the mark. -/
def cbtFinalFits (s : State) (o : Nat) (b : Bool) : Prop :=
  (if b then
    matchMark (atCursor s o) s.regs.oneMark.toNat s.regs.tol.toNat s.regs.excess.toNat = true
  else
    matchMark (atCursor s o) s.regs.oneMark.toNat s.regs.tol.toNat s.regs.excess.toNat = false ∧
    matchMark (atCursor s o) s.regs.zeroMark.toNat s.regs.tol.toNat s.regs.excess.toNat = true) ∧
  (o + 1 < remaining s →
    matchSpace (atCursor s (o + 1)) (if b then s.regs.zeroMark else s.regs.oneMark).toNat s.regs.tol.toNat
      s.regs.excess.toNat = true)

/-- R182: one section around `body`; a zero duration is absent. -/
def sectionOf (r : OperandRegs) (body : List Word) : List Word :=
  [r.hdrMark, r.hdrSpace].filter (· ≠ 0) ++ body ++ [r.ftrMark, r.ftrSpace].filter (· ≠ 0)

/-- R182: the message, sent REPEAT + 1 times. -/
def messageOf (r : OperandRegs) (body : List Word) : List Word :=
  (List.replicate (r.repeatCount.toNat + 1) (sectionOf r body)).flatten

/-- R180: the entries of the bits `bit 0 .. bit (n − 1)` of a value, in wire order, with a one pair and a zero pair. -/
def wireEntries (msb : Bool) (n : Nat) (bit : Nat → Bool) (one zero : List Word) : List Word :=
  (List.range n).flatMap (fun k => if bit (if msb then n - 1 - k else k) then one else zero)

/-- `t` is `s` after a failed encoder with this status (R184, R233): OB_LEN is 0, OB and all else as before; the model's
own free-value counter aside. -/
def encodeFailed (s t : State) (code : Byte) : Prop :=
  t = { s with status := code, res := { s.res with obLen := 0 }, freeSeq := t.freeSeq }

/-- `t` is `s` after an encoder wrote `seq` (R184): the host reads `seq` from OB, OB's later entries and all else are as
before; the model's own free-value counter aside. -/
def encodeWrote (s t : State) (seq : List Word) : Prop :=
  t = { s with
    status := 0, res := { s.res with obLen := BitVec.ofNat 16 seq.length }, ob := t.ob, freeSeq := t.freeSeq } ∧
  t.res.obLen.toNat = seq.length ∧
  (∀ (i : Nat) (h : i < seq.length), busRead (.ob i) t = seq[i]) ∧
  (∀ i, seq.length ≤ i → memGet t.ob i = memGet s.ob i)

/-- An encoder that produces `seq` ends as R184 says. -/
def encodeEndsWith (s t : State) (seq : List Word) : Prop :=
  (seq.length ≤ s.build.obCap → encodeWrote s t seq) ∧ (s.build.obCap < seq.length → encodeFailed s t 8)

/-- R203 item 1, owed by a table and not checked: DECODE of an entry's own output gives the entry and the state back.
THE MODEL'S CHOICE (log 22): R203 names no MAX_SKIP and no limit on the output's length, so this asks it at every `K`
that MAX_SKIP can hold, and of outputs longer than TB_CAP too, through `dispatch` on the bare list. No step and no
obligation rests on it. -/
def TableRoundTrip (b : Build) : Prop :=
  ∀ p ∈ b.table.entries, ∀ (state : Payload) (r : Half), Config.validState p.id state = true →
    ∀ K ≤ 255, ∃ rec, dispatch b (entryEnc p state r) K true = some (p.id, rec) ∧ rec.payload = state

/-- R203 item 2, owed by a table and not checked: an entry rejects every buffer with fewer entries after the offset
than its minimum. THE MODEL'S CHOICE (log 22): the minimum is one number per identity, given from outside, and the
rejection is asked at every offset, in both modes and of lists of any length. No step and no obligation rests on it. -/
def TableRejectsTruncated (b : Build) (minimum : Half → Nat) : Prop :=
  ∀ p ∈ b.table.entries, ∀ (tb : List Word) (off : Nat) (strict : Bool),
    tb.length - off < minimum p.id → entryDec b p tb off strict = none

/-- The registers hold the frame descriptor `d` (R26) that a reference protocol carries (R202). -/
def DescriptorLoaded (r : OperandRegs) (d : Descriptor) : Prop :=
  r.hdrMark = d.hm ∧ r.hdrSpace = d.hs ∧ r.oneMark = d.om ∧ r.oneSpace = d.os ∧ r.zeroMark = d.zm ∧
  r.zeroSpace = d.zs ∧ r.ftrMark = d.fm ∧ r.ftrSpace = d.fs ∧ r.nbits.toNat = d.n ∧ r.tol.toNat = d.t ∧
  r.excess = d.x ∧ r.cfg.getLsbD 0 = d.msb ∧ r.cfg.getLsbD 1 = d.atleast

/-- A run that never stops: the step answers a next state for `k` steps from `s`. -/
def RunsFor : Nat → State → Prop
  | 0, _ => True
  | k + 1, s => ∃ t, step s = .next t ∧ RunsFor k t

end Sys2Proof.Machine
end

