-- ==== Sys2Proof/Certificates/Slice0/Obligations.lean ====
section
/-! DEFINITION. The statements for the provers, in the order of the spec's files. Each says in its docstring which
rule it formalises. A statement about a free value holds for every value of it. -/

open Sys2Proof Sys2Proof.Machine

/-! ### Reset, registers, bus -/

/-- R261 (and R23's reset column): what every register reads after reset, for every build; the Decode Result's bytes
and derived fields besides (R35). -/
def Obligations.ResetValuesOfAllRegisters : Prop :=
  ∀ b : Build,
    (∀ r : Reg, readReg r (State.resetOf b) =
      if r = .tol then 25 else if r = .cfg then 0xD
      else if r = .protoId ∨ r = .drProto then 0xFFFF else 0) ∧
    (∀ j, readDrs (State.resetOf b).dr j = 0) ∧ (State.resetOf b).dr.derived = b.derived0

/-- The state after reset meets the invariant, whatever the unit was built with. -/
def Obligations.ResetMeetsInvariant : Prop := ∀ b : Build, UnitInv (State.resetOf b)

/-- Every step of every state that meets the invariant keeps it: canonical memories within their capacities (R61), the
lengths within theirs (R24, R184), every OB entry below OB_LEN written (R65), no reserved status code (R230), a Decode
Result that says what R205 lets it say. -/
def Obligations.StepKeepsMachineInvariant : Prop := ∀ s t : State, UnitInv s → step s = .next t → UnitInv t

/-- R23, R62, R67: a host read of register n at offset 4·n returns its field, zero-extended, and changes nothing else.
The rows are R23's table: each register's offset and field as literals, with no register left out. -/
def Obligations.RegisterReadAtItsOffset : Prop :=
  ∀ (s : State) (rest : List HostOp) (rows : List (Reg × Nat × Word)), rows =
      [(.cmd, 0x000, s.cmd), (.status, 0x004, s.status.setWidth 32), (.tbLen, 0x008, s.regs.tbLen.setWidth 32),
       (.cursor, 0x00C, s.regs.cursor.setWidth 32), (.meas, 0x010, s.regs.meas), (.expect, 0x014, s.regs.expect),
       (.tol, 0x018, s.regs.tol.setWidth 32), (.excess, 0x01C, s.regs.excess), (.hdrMark, 0x020, s.regs.hdrMark),
       (.hdrSpace, 0x024, s.regs.hdrSpace), (.oneMark, 0x028, s.regs.oneMark), (.oneSpace, 0x02C, s.regs.oneSpace),
       (.zeroMark, 0x030, s.regs.zeroMark), (.zeroSpace, 0x034, s.regs.zeroSpace),
       (.ftrMark, 0x038, s.regs.ftrMark), (.ftrSpace, 0x03C, s.regs.ftrSpace)] ++
      [(.nbits, 0x040, s.regs.nbits.setWidth 32), (.cfg, 0x044, s.regs.cfg.setWidth 32),
       (.nbytes, 0x048, s.regs.nbytes.setWidth 32), (.baOff, 0x04C, s.regs.baOff.setWidth 32),
       (.valLo, 0x050, s.regs.valLo), (.valHi, 0x054, s.regs.valHi),
       (.repeatCount, 0x058, s.regs.repeatCount.setWidth 32), (.protoId, 0x05C, s.regs.protoId.setWidth 32),
       (.maxSkip, 0x060, s.regs.maxSkip.setWidth 32)] ++
      [(.resMatch, 0x080, s.res.matched.setWidth 32), (.resUsed, 0x084, s.res.used.setWidth 32),
       (.resLo, 0x088, s.res.lo), (.resHi, 0x08C, s.res.hi), (.res2Lo, 0x090, s.res.lo2), (.res2Hi, 0x094, s.res.hi2),
       (.obLen, 0x098, s.res.obLen.setWidth 32)] ++
      [(.drSuccess, 0x0A0, s.dr.success.setWidth 32), (.drProto, 0x0A4, s.dr.proto.setWidth 32),
       (.drBits, 0x0A8, s.dr.bits.setWidth 32), (.drKind, 0x0AC, s.dr.kind.setWidth 32),
       (.drValLo, 0x0B0, s.dr.valLo), (.drValHi, 0x0B4, s.dr.valHi), (.drNbytes, 0x0B8, s.dr.nbytes.setWidth 32)] →
    (∀ r, ∃ off v, (r, off, v) ∈ rows) ∧
    ∀ r off v, (r, off, v) ∈ rows → off = 4 * regno r ∧ readReg r s = v ∧
      (s.script = .read (word32 off) :: rest →
        step s = .next { s with script := rest, reads := v :: s.reads })

/-- R23, R24: what the host writes to a writable register it reads back, cut to the field, or clamped for TB_LEN; no
other register and nothing else changes. -/
def Obligations.WrittenRegisterReadsBack : Prop :=
  ∀ (s : State) (r : Reg) (w : Word) (rest : List HostOp), writableReg r = true →
    s.script = .write (word32 (4 * regno r)) w :: .read (word32 (4 * regno r)) :: rest →
    ∃ t, step s = .next t ∧
      t = { s with script := .read (word32 (4 * regno r)) :: rest, regs := t.regs } ∧
      (∀ q, q ≠ r → readReg q t = readReg q s) ∧
      step t = .next { t with
        script := rest
        reads := (if r = .tbLen then BitVec.ofNat 32 (min w.toNat s.build.tbCap)
          else BitVec.ofNat 32 (w.toNat % 2 ^ fieldWidth r)) :: s.reads }

/-- R272: a host write to a read-only register, to OB or to DRS is ignored, and TB_LEN stores min(w, TB_CAP). -/
def Obligations.IgnoredWritesAndTbLenClamp : Prop :=
  ∀ (s : State) (off : Nat) (w : Word) (rest : List HostOp), off % 4 = 0 →
    s.script = .write (word32 off) w :: rest →
    (((∃ r, writableReg r = false ∧ r ≠ .cmd ∧ off = 4 * regno r) ∨ (0x20000 ≤ off ∧ off < 0x30000) ∨
        (0x40000 ≤ off ∧ off < 0x44000)) →
      step s = .next { s with script := rest }) ∧
    (off = 4 * regno .tbLen →
      step s = .next { s with
        script := rest, regs := { s.regs with tbLen := BitVec.ofNat 16 (min w.toNat s.build.tbCap) } })

/-- R23, R62 (U2, U3): reserved space reads 0 and ignores writes. -/
def Obligations.ReservedSpaceReadsZero : Prop :=
  ∀ (s : State) (off : Nat) (rest : List HostOp), off % 4 = 0 → reservedOffset s.build off →
    (s.script = .read (word32 off) :: rest →
      step s = .next { s with script := rest, reads := 0 :: s.reads }) ∧
    (∀ w, s.script = .write (word32 off) w :: rest → step s = .next { s with script := rest })

/-- R62, R65: a TB entry written by the host is what the host then reads there, a BA byte in its low 8 bits,
zero-extended; every other element and everything else stays. -/
def Obligations.BufferWriteReadsBack : Prop :=
  ∀ (s : State) (i : Nat) (w : Word) (rest : List HostOp),
    (i < s.build.tbCap →
      s.script = .write (word32 (0x10000 + 4 * i)) w :: .read (word32 (0x10000 + 4 * i)) :: rest →
      ∃ t, step s = .next t ∧ t = { s with script := .read (word32 (0x10000 + 4 * i)) :: rest, tb := t.tb } ∧
        (∀ j, j ≠ i → readTb t j = readTb s j) ∧
        step t = .next { t with script := rest, reads := w :: s.reads }) ∧
    (i < s.build.baCap →
      s.script = .write (word32 (0x30000 + 4 * i)) w :: .read (word32 (0x30000 + 4 * i)) :: rest →
      ∃ t, step s = .next t ∧ t = { s with script := .read (word32 (0x30000 + 4 * i)) :: rest, ba := t.ba } ∧
        (∀ j, j ≠ i → readBa t j = readBa s j) ∧
        step t = .next { t with script := rest, reads := BitVec.ofNat 32 (w.toNat % 256) :: s.reads })

/-- R62, R65, R282: a host read at the offset of element i of a window returns that element and changes nothing else:
the TB entry, the OB entry an encode wrote below OB_LEN, the BA byte or the DRS byte, a byte zero-extended. What an
element nothing has written reads as is a free value (log 8). -/
def Obligations.WindowReadReturnsTheElement : Prop :=
  ∀ (s : State) (i : Nat) (rest : List HostOp) (yields : Nat → Word → Prop),
    yields = (fun off v => s.script = .read (word32 off) :: rest →
      step s = .next { s with script := rest, reads := v :: s.reads }) →
    (i < s.build.tbCap → yields (0x10000 + 4 * i) (readTb s i) ∧ ∀ v, memGet s.tb i = some v → readTb s i = v) ∧
    (i < s.build.obCap → i < s.res.obLen.toNat → ∀ v, memGet s.ob i = some v → yields (0x20000 + 4 * i) v) ∧
    (i < s.build.baCap → yields (0x30000 + 4 * i) (BitVec.ofNat 32 (readBa s i).toNat) ∧
      ∀ v, memGet s.ba i = some v → readBa s i = v) ∧
    (i < s.build.baCap → yields (0x40000 + 4 * i) (BitVec.ofNat 32 (readDrs s.dr i).toNat) ∧
      ∀ v, memGet s.dr.drs i = some v → readDrs s.dr i = v)

/-- R67: a read changes nothing but what the host has read, and two reads with nothing between them return the same
word, an unspecified one (U7, U8) too. -/
def Obligations.ReadsHaveNoEffectAndRepeat : Prop :=
  ∀ (s : State) (a : Access) (rest : List HostOp), accessLegal a = true →
    s.script = .read a :: .read a :: rest →
    ∃ v, step s = .next { s with script := .read a :: rest, reads := v :: s.reads } ∧
      step { s with script := .read a :: rest, reads := v :: s.reads } =
        .next { s with script := rest, reads := v :: v :: s.reads }

/-- R63: an access that is not 32 bits wide at a multiple of 4 has no step, and every other access has one. -/
def Obligations.MisalignedOrNarrowAccessIsStuck : Prop :=
  ∀ (s : State) (a : Access) (op : HostOp) (rest : List HostOp), s.script = op :: rest →
    (op = .read a ∨ ∃ w, op = .write a w) →
    ((a.bytes ≠ 4 ∨ a.offset % 4 ≠ 0) → step s = .fault .stuckAccess) ∧
    (a.bytes = 4 → a.offset % 4 = 0 → ∃ t, step s = .next t)

/-- R63, R280, R281: a host script of aligned 32-bit accesses never stops, from any state. -/
def Obligations.AlignedScriptsNeverStop : Prop :=
  ∀ (k : Nat) (s : State), scriptWf s.script = true → RunsFor k s

/-- R260 (the model's platform event, log 14) and R245: a platform reset leaves every register as reset does, empties
TB, OB and BA, and keeps the parameters and the host's side; with no operation left the unit holds its state. -/
def Obligations.PlatformResetAndIdle : Prop :=
  ∀ s : State,
    (∀ rest, s.script = .platformReset :: rest → ∃ t, step s = .next t ∧
      (∀ r, readReg r t = readReg r (State.resetOf s.build)) ∧ (∀ j, readDrs t.dr j = 0) ∧
      t.dr.derived = s.build.derived0 ∧ (∀ i, memGet t.tb i = none ∧ memGet t.ob i = none ∧ memGet t.ba i = none) ∧
      t.build = s.build ∧ t.script = rest ∧ t.reads = s.reads) ∧
    (s.script = [] → step s = .next s)

/-! ### Command words -/

/-- R81: a word written to CMD is stored for read-back and runs the one of R82's commands whose opcode it is, or is
ILLEGAL_COMMAND, which changes only STATUS and CMD. -/
def Obligations.CmdWriteRunsOneCommandOrIsIllegal : Prop :=
  ∀ (s : State) (w : Word) (rest : List HostOp), s.script = .write (word32 0) w :: rest →
    ∀ rows : List (Word × Instr), rows =
      [(0x01, .window), (0x02, .matchMark), (0x03, .matchSpace), (0x04, .matchAtLeast), (0x10, .matchData),
       (0x11, .matchBytes), (0x20, .matchGenericBits), (0x21, .matchGenericBytes), (0x22, .matchCbt),
       (0x30, .encodeGenericBits), (0x31, .encodeGenericBytes), (0x32, .encodeCbt), (0x40, .decode),
       (0x41, .encodeProtoInt), (0x42, .encodeProtoBytes), (0x43, .resetResult)] →
      (∀ i, (w, i) ∈ rows → step s = exec i { s with script := rest, cmd := w }) ∧
      ((∀ i, (w, i) ∉ rows) → step s = .next { s with script := rest, cmd := w, status := 6 })

/-- R81: when the word the host writes to CMD decodes to a command, the step is exec of that command, with the word in
CMD and the operation taken off the host's script. -/
def Obligations.StepRunsDecodedCommand : Prop :=
  ∀ (s : State) (w : Word) (i : Instr) (rest : List HostOp),
    s.script = .write (word32 cmdOffset) w :: rest → decode w = .ok i →
    step s = exec i { s with script := rest, cmd := w }

/-- R80, R82: decoding a command's encoding gives it back. -/
def Obligations.DecodeOfEncodeIsTheCommand : Prop := ∀ i : Instr, i.wf = true → decode (encode i) = .ok i

/-- R80 to R83: no other word decodes to a command. -/
def Obligations.OnlyItsEncodingDecodesToACommand : Prop :=
  ∀ (w : Word) (i : Instr), decode w = .ok i → w = encode i

/-- R82, R83: a few words, read as the opcode map reads them. -/
def Obligations.SampleWordsDecode : Prop :=
  decode 0x00000001#32 = .ok .window ∧ decode 0x00000010#32 = .ok .matchData ∧
  decode 0x00000021#32 = .ok .matchGenericBytes ∧ decode 0x00000022#32 = .ok .matchCbt ∧
  decode 0x00000032#32 = .ok .encodeCbt ∧ decode 0x00000040#32 = .ok .decode ∧
  decode 0x00000043#32 = .ok .resetResult ∧ decode 0x00000000#32 = .error .unknownOpcode ∧
  decode 0x00000005#32 = .error .unknownOpcode ∧ decode 0x00000102#32 = .error .reservedBits

/-- R25, R28: the bits of CFG, and VAL. -/
def Obligations.CfgBitsAndVal : Prop :=
  ∀ r : OperandRegs,
    cfgMsbFirst r = r.cfg.getLsbD 0 ∧ cfgAtLeast r = r.cfg.getLsbD 1 ∧ cfgExpectLastSpace r = r.cfg.getLsbD 2 ∧
    cfgStrict r = r.cfg.getLsbD 3 ∧ valOperand r = (r.valHi ++ r.valLo).toNat ∧
    valOperand r = r.valHi.toNat * 2 ^ 32 + r.valLo.toNat

/-! ### Pulse matcher -/

/-- R103, R100: WINDOW writes the two bounds, or raises ILLEGAL_OPERAND and writes zeros. -/
def Obligations.WindowWritesBounds : Prop :=
  ∀ s : State,
    (s.regs.tol.toNat ≤ 100 → ∀ lo hi : Nat,
      lo = (s.regs.expect.toNat + s.regs.excess.toNat) * (100 - s.regs.tol.toNat) / 100 →
      hi = (s.regs.expect.toNat + s.regs.excess.toNat) * (100 + s.regs.tol.toNat) / 100 →
      exec .window s = .next { s with
        status := 0
        res := { s.res with
          lo := BitVec.ofNat 32 lo, hi := BitVec.ofNat 32 (lo / 2 ^ 32),
          lo2 := BitVec.ofNat 32 hi, hi2 := BitVec.ofNat 32 (hi / 2 ^ 32) } }) ∧
    (100 < s.regs.tol.toNat →
      exec .window s = .next { s with status := 7, res := { s.res with lo := 0, hi := 0, lo2 := 0, hi2 := 0 } })

/-- R101: the range of the window arithmetic. -/
def Obligations.WindowArithmeticRange : Prop :=
  ∀ e x t : Nat, e < 2 ^ 32 → x < 2 ^ 32 → t ≤ 100 →
    (window e t x).1 ≤ e + x ∧ e + x ≤ (window e t x).2 ∧ (window e t x).2 ≤ 2 * (e + x) ∧
    2 * (e + x) < 2 ^ 34 ∧ (e + x) * (100 + t) < 2 ^ 41 ∧ e + x ≤ 2 ^ 33 - 2 ∧
    (t = 0 → (window e t x).1 = e + x ∧ (window e t x).2 = e + x) ∧ (t = 100 → (window e t x).1 = 0)

/-- R105, R104: MATCH_MARK compares with the window of EXPECT and EXCESS. -/
def Obligations.MatchMarkComparesWithExcess : Prop :=
  ∀ s : State,
    (s.regs.tol.toNat ≤ 100 → ∀ lo hi : Nat,
      lo = (s.regs.expect.toNat + s.regs.excess.toNat) * (100 - s.regs.tol.toNat) / 100 →
      hi = (s.regs.expect.toNat + s.regs.excess.toNat) * (100 + s.regs.tol.toNat) / 100 →
      exec .matchMark s =
        if lo ≤ s.regs.meas.toNat ∧ s.regs.meas.toNat ≤ hi then
          .next { s with status := 0, res := { s.res with matched := 1 } }
        else .next { s with status := 2, res := { s.res with matched := 0 } }) ∧
    (100 < s.regs.tol.toNat →
      exec .matchMark s = .next { s with status := 7, res := { s.res with matched := 0 } })

/-- R107, R106: MATCH_SPACE compares with the window of EXPECT alone, for every EXCESS. -/
def Obligations.MatchSpaceIgnoresExcess : Prop :=
  ∀ s : State,
    (s.regs.tol.toNat ≤ 100 → ∀ lo hi : Nat,
      lo = s.regs.expect.toNat * (100 - s.regs.tol.toNat) / 100 →
      hi = s.regs.expect.toNat * (100 + s.regs.tol.toNat) / 100 →
      exec .matchSpace s =
        if lo ≤ s.regs.meas.toNat ∧ s.regs.meas.toNat ≤ hi then
          .next { s with status := 0, res := { s.res with matched := 1 } }
        else .next { s with status := 2, res := { s.res with matched := 0 } }) ∧
    (100 < s.regs.tol.toNat →
      exec .matchSpace s = .next { s with status := 7, res := { s.res with matched := 0 } })

/-- R109, R108: MATCH_AT_LEAST compares with the lower bound only; EXCESS counts only if the parameter says so. -/
def Obligations.MatchAtLeastHasNoUpperBound : Prop :=
  ∀ s : State,
    (s.regs.tol.toNat ≤ 100 → ∀ lo : Nat,
      lo = (s.regs.expect.toNat + if s.build.atLeastAppliesExcess then s.regs.excess.toNat else 0) *
        (100 - s.regs.tol.toNat) / 100 →
      exec .matchAtLeast s =
        if lo ≤ s.regs.meas.toNat then .next { s with status := 0, res := { s.res with matched := 1 } }
        else .next { s with status := 2, res := { s.res with matched := 0 } }) ∧
    (100 < s.regs.tol.toNat →
      exec .matchAtLeast s = .next { s with status := 7, res := { s.res with matched := 0 } })

/-- R110, its five items, with the tolerance in its legal range (R100). -/
def Obligations.WindowProperties : Prop :=
  (∀ m, m = 750 ∨ m = 1250 → matchMark m 1000 25 0 = true) ∧
  (∀ m, m = 749 ∨ m = 1251 → matchMark m 1000 25 0 = false) ∧
  (∀ m, 750 ≤ m → m ≤ 1250 → matchMark m 1000 25 0 = true) ∧
  (∀ m e t x, matchMark m e t 0 = matchSpace m e t x) ∧
  (∀ m e t x ax, x = 0 → matchMark m e t x = true → matchAtLeast ax m e t 0 = true) ∧
  (∀ m e x t1 t2, t1 ≤ t2 → t2 ≤ 100 →
    (matchMark m e t1 x = true → matchMark m e t2 x = true) ∧
    (matchSpace m e t1 x = true → matchSpace m e t2 x = true)) ∧
  (∀ e x t, t ≤ 100 → matchSpace e e t x = true ∧
    (matchMark e e t x = true ↔ (e + x) * (100 - t) / 100 ≤ e))

/-! ### Bit decoder and byte decoder -/

/-- R122, R120: MATCH_DATA, with all its outcomes in order: ILLEGAL_OPERAND; INSUFFICIENT_BUFFER; the value when every
bit's pair decides it; TIMING_MISMATCH at the first bit that matches neither pair. -/
def Obligations.MatchDataOutcomes : Prop :=
  ∀ (s : State) (n total : Nat) (bits : Nat → Bool), n = s.regs.nbits.toNat →
    total = 2 * n - (if cfgExpectLastSpace s.regs then 0 else 1) →
    ((100 < s.regs.tol.toNat ∨ n < 1 ∨ 64 < n) →
      exec .matchData s = .next { s with status := 7, res := intFailure s.res }) ∧
    (s.regs.tol.toNat ≤ 100 → 1 ≤ n → n ≤ 64 →
      (remaining s < total → exec .matchData s = .next { s with status := 1, res := intFailure s.res }) ∧
      (total ≤ remaining s → (∀ k, k < n → bitReads s n k (bits k)) →
        exec .matchData s = .next { s with
          status := 0, res := intResult s.res (wireValue (cfgMsbFirst s.regs) n bits) total }) ∧
      (total ≤ remaining s → ∀ k, k < n → (∀ j, j < k → bitReads s n j (bits j)) →
        (¬bitReads s n k true ∧ ¬bitReads s n k false) →
        exec .matchData s = .next { s with status := 2, res := intFailure s.res }))

/-- R123, its four items: the value's range and the entries; bit-order equivalence; where the first bit goes; the
entries read. -/
def Obligations.MatchDataProperties : Prop :=
  ∀ (tb : List Word) (start n : Nat) (c : BitCoding) (els : Bool), 1 ≤ n → n ≤ 64 → c.t ≤ 100 →
    (∀ msb v u, matchData tb start n c msb els = .ok v u →
      v < 2 ^ n ∧ u = 2 * n - (if els then 0 else 1) ∧
      v.testBit (if msb then n - 1 else 0) = matchPair tb start c.om c.os c (decide (1 < n) || els)) ∧
    (∀ v u, matchData tb start n c true els = .ok v u →
      ∃ v', matchData tb start n c false els = .ok v' u ∧ v' < 2 ^ n ∧
        ∀ i, i < n → v'.testBit i = v.testBit (n - 1 - i)) ∧
    (∀ why, matchData tb start n c true els = .fail why ↔ matchData tb start n c false els = .fail why) ∧
    (∀ (tb' : List Word) (msb : Bool), 2 * n - (if els then 0 else 1) ≤ tb.length - start →
      2 * n - (if els then 0 else 1) ≤ tb'.length - start →
      (∀ i, i < 2 * n - (if els then 0 else 1) → tb[start + i]? = tb'[start + i]?) →
      matchData tb start n c msb els = matchData tb' start n c msb els)

/-- R125, R124, R126: MATCH_BYTES refuses illegal operands and short buffers with BA unchanged; when every byte's bits
decode it writes the bytes from BA_OFF on, and only there; when some byte's bits do not, it is TIMING_MISMATCH, and the
target range, and only it, holds free values (log 10). -/
def Obligations.MatchBytesOutcomes : Prop :=
  ∀ (s : State) (nb off need : Nat) (b : Nat → Byte), nb = s.regs.nbytes.toNat → off = s.regs.baOff.toNat →
    need = 16 * nb - (if cfgExpectLastSpace s.regs then 0 else 1) →
    ((100 < s.regs.tol.toNat ∨ nb < 1 ∨ s.build.baCap < off + nb) →
      exec .matchBytes s = .next { s with status := 7, res := { s.res with matched := 0, used := 0 } }) ∧
    (s.regs.tol.toNat ≤ 100 → 1 ≤ nb → off + nb ≤ s.build.baCap →
      (remaining s < need →
        exec .matchBytes s = .next { s with status := 1, res := { s.res with matched := 0, used := 0 } }) ∧
      (need ≤ remaining s →
        (∀ j, j < nb → ∃ u, matchData (tbEntries s) (s.regs.cursor.toNat + 16 * j) 8 (codingOf s.regs)
          (cfgMsbFirst s.regs) (decide (j + 1 < nb) || cfgExpectLastSpace s.regs) = .ok (b j).toNat u) →
        ∃ t, exec .matchBytes s = .next t ∧
          t = { s with
            status := 0, res := { s.res with matched := 1, used := BitVec.ofNat 16 need }, ba := t.ba } ∧
          (∀ j, j < nb → readBa t (off + j) = b j) ∧
          (∀ j, (j < off ∨ off + nb ≤ j) → readBa t j = readBa s j)) ∧
      (need ≤ remaining s →
        (∃ j, j < nb ∧ ∀ v u, matchData (tbEntries s) (s.regs.cursor.toNat + 16 * j) 8 (codingOf s.regs)
          (cfgMsbFirst s.regs) (decide (j + 1 < nb) || cfgExpectLastSpace s.regs) ≠ .ok v u) →
        ∃ t, exec .matchBytes s = .next t ∧
          t = { s with
            status := 2, res := { s.res with matched := 0, used := 0 }, ba := t.ba, freeSeq := t.freeSeq } ∧
          (∀ j, (j < off ∨ off + nb ≤ j) → readBa t j = readBa s j)))

/-- R126, R233: a failed byte match zeroes RES_MATCH and RES_USED, leaves BA as it was unless entries mismatched, and
then touches its target range only. The bytes there are free values (log 10): nothing is said of them. -/
def Obligations.FailedByteMatchTouchesItsRangeOnly : Prop :=
  ∀ (i : Instr) (s t : State) (len : Nat),
    (i = .matchBytes ∧ len = s.regs.nbytes.toNat) ∨ (i = .matchGenericBytes ∧ len = s.regs.nbits.toNat / 8) →
    exec i s = .next t → t.status ≠ 0 →
    t = { s with
      status := t.status, res := { s.res with matched := 0, used := 0 }, ba := t.ba, freeSeq := t.freeSeq } ∧
    (t.status = 1 ∨ t.status = 2 ∨ t.status = 7) ∧ (t.status ≠ 2 → t.ba = s.ba) ∧
    (∀ j, (j < s.regs.baOff.toNat ∨ s.regs.baOff.toNat + len ≤ j) → readBa t j = readBa s j)

/-- R127, its three items: a success gives nb bytes, and which entries a byte comes from; the other bit order reverses each byte on its own; bytes and
integers agree, byte 0 most significant. -/
def Obligations.MatchBytesProperties : Prop :=
  ∀ (tb : List Word) (start nb : Nat) (c : BitCoding) (els : Bool), 1 ≤ nb → c.t ≤ 100 →
    (∀ msb bs u, matchBytes tb start nb c msb els = .ok bs u →
      bs.length = nb ∧ u = 16 * nb - (if els then 0 else 1) ∧
      ∀ (j : Nat) (h : j < bs.length), ∃ u',
        matchData tb (start + 16 * j) 8 c msb (decide (j + 1 < nb) || els) = .ok bs[j].toNat u') ∧
    (∀ bs u, matchBytes tb start nb c true els = .ok bs u →
      ∃ bs', matchBytes tb start nb c false els = .ok bs' u ∧ bs'.length = bs.length ∧
        ∀ (j i : Nat), i < 8 → (bs'.getD j 0).getLsbD i = (bs.getD j 0).getLsbD (7 - i)) ∧
    (nb ≤ 8 → ∀ msb why,
      matchBytes tb start nb c msb els = .fail why ↔ matchData tb start (8 * nb) c msb els = .fail why) ∧
    (nb ≤ 8 → ∀ bs u, matchBytes tb start nb c true els = .ok bs u →
      matchData tb start (8 * nb) c true els = .ok (bs.foldl (fun a b => a * 256 + b.toNat) 0) u)

/-! ### Frame matchers -/

/-- R144, R140: MATCH_GENERIC_BITS, with all its outcomes: illegal operands, a buffer below the minimum, a section that
matches, one that does not. -/
def Obligations.MatchGenericBitsOutcomes : Prop :=
  ∀ s : State,
    ((100 < s.regs.tol.toNat ∨ s.regs.nbits.toNat < 1 ∨ 64 < s.regs.nbits.toNat) →
      exec .matchGenericBits s = .next { s with status := 7, res := intFailure s.res }) ∧
    (s.regs.tol.toNat ≤ 100 → 1 ≤ s.regs.nbits.toNat → s.regs.nbits.toNat ≤ 64 →
      (remaining s < sectionMinimum s.regs →
        exec .matchGenericBits s = .next { s with status := 1, res := intFailure s.res }) ∧
      (sectionMinimum s.regs ≤ remaining s →
        (∀ v, sectionFits s (bitsBody s) v →
          exec .matchGenericBits s = .next { s with status := 0, res := intResult s.res v (sectionUsed s) }) ∧
        ((∀ v, ¬sectionFits s (bitsBody s) v) →
          exec .matchGenericBits s = .next { s with status := 2, res := intFailure s.res })))

/-- R146, R140: MATCH_GENERIC_BYTES refuses illegal operands and short buffers with BA unchanged, and writes the bytes
of a section that matches from BA_OFF on, and only there; a section that does not match is TIMING_MISMATCH, and the
target range, and only it, holds free values (log 10). -/
def Obligations.MatchGenericBytesOutcomes : Prop :=
  ∀ (s : State) (len off : Nat), len = s.regs.nbits.toNat / 8 → off = s.regs.baOff.toNat →
    ((100 < s.regs.tol.toNat ∨ s.regs.nbits.toNat = 0 ∨ s.regs.nbits.toNat % 8 ≠ 0 ∨ s.build.baCap < off + len) →
      exec .matchGenericBytes s = .next { s with status := 7, res := { s.res with matched := 0, used := 0 } }) ∧
    (s.regs.tol.toNat ≤ 100 → s.regs.nbits.toNat ≠ 0 → s.regs.nbits.toNat % 8 = 0 → off + len ≤ s.build.baCap →
      (remaining s < sectionMinimum s.regs →
        exec .matchGenericBytes s = .next { s with status := 1, res := { s.res with matched := 0, used := 0 } }) ∧
      (sectionMinimum s.regs ≤ remaining s →
        (∀ bs, sectionFits s (bytesBody s) bs →
          ∃ t, exec .matchGenericBytes s = .next t ∧
            t = { s with
              status := 0
              res := { s.res with matched := 1, used := BitVec.ofNat 16 (sectionUsed s) }
              ba := t.ba } ∧
            bs.length = len ∧ (∀ (j : Nat) (h : j < bs.length), readBa t (off + j) = bs[j]) ∧
            (∀ j, (j < off ∨ off + len ≤ j) → readBa t j = readBa s j)) ∧
        ((∀ bs, ¬sectionFits s (bytesBody s) bs) →
          ∃ t, exec .matchGenericBytes s = .next t ∧
            t = { s with
              status := 2, res := { s.res with matched := 0, used := 0 }, ba := t.ba, freeSeq := t.freeSeq } ∧
            (∀ j, (j < off ∨ off + len ≤ j) → readBa t j = readBa s j))))

/-- R147 items 1 and 2, R162: what RES_USED says after a match: a section's minimum, and one more exactly when a footer
space is there and an entry was left for it; without a footer, a constant-bit-time frame's minimum or one more. It is
never 0 and never beyond the entries left. -/
def Obligations.UsedEntriesOfAMatchedFrame : Prop :=
  ∀ (i : Instr) (s t : State), exec i s = .next t → t.status = 0 →
    ((i = .matchGenericBits ∨ i = .matchGenericBytes ∨ (i = .matchCbt ∧ s.regs.ftrMark ≠ 0)) →
      t.res.used.toNat = sectionUsed s ∧ 2 * s.regs.nbits.toNat ≤ t.res.used.toNat ∧ 2 ≤ t.res.used.toNat ∧
      t.res.used.toNat ≤ remaining s) ∧
    ((i = .matchCbt ∧ s.regs.ftrMark = 0) →
      t.res.used.toNat = cbtMinimum s.regs + (if cbtMinimum s.regs < remaining s then 1 else 0) ∧
      1 ≤ t.res.used.toNat ∧ t.res.used.toNat ≤ remaining s)

/-- R161, R164 item 1: with a footer mark, MATCH_CBT gives what MATCH_GENERIC_BITS gives with the pairs
(T_ONE, T_ZERO) and (T_ZERO, T_ONE). -/
def Obligations.CbtWithFooterIsGeneric : Prop :=
  ∀ s : State, s.regs.ftrMark ≠ 0 →
    ∃ t u, exec .matchCbt s = .next t ∧
      exec .matchGenericBits
        { s with regs := { s.regs with oneSpace := s.regs.zeroMark, zeroSpace := s.regs.oneMark } } = .next u ∧
      t = { s with status := u.status, res := u.res }

/-- R161, R162, R163: MATCH_CBT without a footer mark: illegal operands; a buffer below the minimum; the header, the
ordinary bits and the final bit match; one of them does not. -/
def Obligations.CbtWithoutFooterInfersFinalBit : Prop :=
  ∀ (s : State) (n o : Nat), n = s.regs.nbits.toNat → s.regs.ftrMark = 0 →
    o = headerEntries s.regs + 2 * (n - 1) →
    ((100 < s.regs.tol.toNat ∨ n < 1 ∨ 64 < n) →
      exec .matchCbt s = .next { s with status := 7, res := intFailure s.res }) ∧
    (s.regs.tol.toNat ≤ 100 → 1 ≤ n → n ≤ 64 →
      (remaining s < cbtMinimum s.regs →
        exec .matchCbt s = .next { s with status := 1, res := intFailure s.res }) ∧
      (cbtMinimum s.regs ≤ remaining s →
        (∀ (w : Nat) (b : Bool), headerFits s → cbtOrdinaryFits s w → cbtFinalFits s o b →
          ∃ v, v < 2 ^ n ∧
            (∀ i, i < n → v.testBit (if cfgMsbFirst s.regs then i else n - 1 - i) = (2 * w + b.toNat).testBit i) ∧
            exec .matchCbt s = .next { s with
              status := 0
              res := intResult s.res v
                (cbtMinimum s.regs + if cbtMinimum s.regs < remaining s then 1 else 0) }) ∧
        ((∀ (w : Nat) (b : Bool), ¬(headerFits s ∧ cbtOrdinaryFits s w ∧ cbtFinalFits s o b)) →
          exec .matchCbt s = .next { s with status := 2, res := intFailure s.res })))

/-- R164 item 2: where the windows separate the two durations, a constant-bit-time frame without a footer, its trailing
space present, decodes after its header, if it has one, as matchData decodes n bits of the pairs (T_ONE, T_ZERO),
(T_ZERO, T_ONE): the same outcome, value and entries. -/
def Obligations.CbtAgreesWithPairDecoder : Prop :=
  ∀ (tb : List Word) (start n h : Nat) (a : FrameArgs), 1 ≤ n → n ≤ 64 → a.coding.t ≤ 100 → a.fm = 0 →
    h = (if a.hm = 0 then 0 else 1) + (if a.hs = 0 then 0 else 1) → h + 2 * n ≤ tb.length - start →
    (a.hm ≠ 0 → matchMark (entry tb start) a.hm a.coding.t a.coding.x = true) →
    (a.hs ≠ 0 →
      matchSpace (entry tb (start + if a.hm = 0 then 0 else 1)) a.hs a.coding.t a.coding.x = true) →
    (∀ m, ¬(matchMark m a.coding.om a.coding.t a.coding.x = true ∧
      matchMark m a.coding.zm a.coding.t a.coding.x = true)) →
    (∀ m, ¬(matchSpace m a.coding.om a.coding.t a.coding.x = true ∧
      matchSpace m a.coding.zm a.coding.t a.coding.x = true)) →
    (∀ v u, matchData tb (start + h) n (cbtCoding a.coding) a.msb true = .ok v u →
      matchCbt tb start n a = .ok v (h + u)) ∧
    (∀ why, matchData tb (start + h) n (cbtCoding a.coding) a.msb true = .fail why →
      matchCbt tb start n a = .fail why)

/-! ### Encoders -/

/-- R185, R184: ENCODE_GENERIC_BITS writes the message of the low NBITS bits of VAL, or fails with OB_LEN = 0 and OB
unchanged. -/
def Obligations.EncodeGenericBitsOutcomes : Prop :=
  ∀ s : State,
    ((s.regs.nbits.toNat < 1 ∨ 64 < s.regs.nbits.toNat) →
      ∃ t, exec .encodeGenericBits s = .next t ∧ encodeFailed s t 7) ∧
    (1 ≤ s.regs.nbits.toNat → s.regs.nbits.toNat ≤ 64 →
      ∃ t, exec .encodeGenericBits s = .next t ∧
        encodeEndsWith s t (messageOf s.regs (wireEntries (cfgMsbFirst s.regs) s.regs.nbits.toNat
          (fun k => (s.regs.valHi ++ s.regs.valLo).getLsbD k)
          [s.regs.oneMark, s.regs.oneSpace] [s.regs.zeroMark, s.regs.zeroSpace])))

/-- R187, R181, R184: ENCODE_GENERIC_BYTES writes the message of the bytes BA[BA_OFF ..], each in its own bit order. -/
def Obligations.EncodeGenericBytesOutcomes : Prop :=
  ∀ (s : State) (len off : Nat), len = s.regs.nbits.toNat / 8 → off = s.regs.baOff.toNat →
    ((s.regs.nbits.toNat = 0 ∨ s.regs.nbits.toNat % 8 ≠ 0 ∨ s.build.baCap < off + len) →
      ∃ t, exec .encodeGenericBytes s = .next t ∧ encodeFailed s t 7) ∧
    (s.regs.nbits.toNat ≠ 0 → s.regs.nbits.toNat % 8 = 0 → off + len ≤ s.build.baCap →
      ∃ t, exec .encodeGenericBytes s = .next t ∧
        encodeEndsWith s t (messageOf s.regs ((List.range len).flatMap fun j =>
          wireEntries (cfgMsbFirst s.regs) 8 (fun k => (readBa s (off + j)).getLsbD k)
            [s.regs.oneMark, s.regs.oneSpace] [s.regs.zeroMark, s.regs.zeroSpace])))

/-- R189, R188, R184: ENCODE_CBT writes a 1 as (T_ONE, T_ZERO) and a 0 as (T_ZERO, T_ONE), the last bit's space too. -/
def Obligations.EncodeCbtOutcomes : Prop :=
  ∀ s : State,
    ((s.regs.nbits.toNat < 1 ∨ 64 < s.regs.nbits.toNat) →
      ∃ t, exec .encodeCbt s = .next t ∧ encodeFailed s t 7) ∧
    (1 ≤ s.regs.nbits.toNat → s.regs.nbits.toNat ≤ 64 →
      ∃ t, exec .encodeCbt s = .next t ∧
        encodeEndsWith s t (messageOf s.regs (wireEntries (cfgMsbFirst s.regs) s.regs.nbits.toNat
          (fun k => (s.regs.valHi ++ s.regs.valLo).getLsbD k)
          [s.regs.oneMark, s.regs.zeroMark] [s.regs.zeroMark, s.regs.oneMark])))

/-- R190: the length an encoder writes to OB_LEN, in bit mode, byte mode and constant bit time. -/
def Obligations.EncodedLength : Prop :=
  ∀ (i : Instr) (s t : State), (i = .encodeGenericBits ∨ i = .encodeGenericBytes ∨ i = .encodeCbt) →
    exec i s = .next t → t.status = 0 →
    t.res.obLen.toNat = (s.regs.repeatCount.toNat + 1) * sectionEntries s.regs s.regs.nbits.toNat

/-- R191, generic bits: what ENCODE_GENERIC_BITS wrote, copied into TB, MATCH_GENERIC_BITS reads back as the low NBITS
bits of VAL, using one section's entries. -/
def Obligations.GenericBitsRoundTrip : Prop :=
  ∀ s t s' : State, exec .encodeGenericBits s = .next t → t.status = 0 → CopiedBack t s' →
    s.regs.tol.toNat ≤ 100 → PairsApart s.regs → GapOwn s.build s.regs →
    MarksOwn s.regs s.regs.nbits.toNat (fun k => (s.regs.valHi ++ s.regs.valLo).getLsbD k) →
    exec .matchGenericBits s' = .next { s' with
      status := 0
      res := intResult s'.res ((s.regs.valHi ++ s.regs.valLo).toNat % 2 ^ s.regs.nbits.toNat)
        (sectionEntries s.regs s.regs.nbits.toNat) }

/-- R191, generic bytes: what ENCODE_GENERIC_BYTES wrote, copied into TB, MATCH_GENERIC_BYTES writes back as the same
bytes. -/
def Obligations.GenericBytesRoundTrip : Prop :=
  ∀ s t s' : State, exec .encodeGenericBytes s = .next t → t.status = 0 → CopiedBack t s' →
    s.regs.tol.toNat ≤ 100 → PairsApart s.regs → GapOwn s.build s.regs →
    MarksOwn s.regs s.regs.nbits.toNat
      (fun k => (readBa s (s.regs.baOff.toNat + k / 8)).getLsbD (k % 8)) →
    ∃ u, exec .matchGenericBytes s' = .next u ∧ u.status = 0 ∧ u.res.matched = 1 ∧
      u.res.used = BitVec.ofNat 16 (sectionEntries s.regs s.regs.nbits.toNat) ∧
      (∀ j, j < s.regs.nbits.toNat / 8 →
        readBa u (s.regs.baOff.toNat + j) = readBa s (s.regs.baOff.toNat + j))

/-- R191 and R164 item 4, constant bit time: what ENCODE_CBT wrote, copied into TB, MATCH_CBT reads back. RES_USED is
one section's entries, less the gap when there is no footer mark, because MATCH_CBT then ignores FTR_SPACE (R163
item 1). R191 taken literally gives one frame's length, the gap counted; the model follows R161 and R163, which is its
reading (log 20). The gap's own window is asked for only where MATCH_CBT looks at the gap. -/
def Obligations.CbtRoundTrip : Prop :=
  ∀ s t s' : State, exec .encodeCbt s = .next t → t.status = 0 → CopiedBack t s' →
    s.regs.tol.toNat ≤ 100 → (s.regs.ftrMark ≠ 0 → GapOwn s.build s.regs) →
    matchMark s.regs.zeroMark.toNat s.regs.oneMark.toNat s.regs.tol.toNat s.regs.excess.toNat = false →
    MarksOwn s.regs s.regs.nbits.toNat (fun k => (s.regs.valHi ++ s.regs.valLo).getLsbD k) →
    exec .matchCbt s' = .next { s' with
      status := 0
      res := intResult s'.res ((s.regs.valHi ++ s.regs.valLo).toNat % 2 ^ s.regs.nbits.toNat)
        (sectionEntries s.regs s.regs.nbits.toNat -
          if s.regs.ftrMark = 0 ∧ s.regs.ftrSpace ≠ 0 then 1 else 0) }

/-! ### Dispatcher -/

/-- R202: a reference protocol decodes as the matcher command does with the descriptor in the registers and CURSOR at
the offset, whatever strict is, and encodes as the encode command writes; a byte state gives the empty sequence. -/
def Obligations.ReferenceProtocolIsItsDescriptor : Prop :=
  ∀ (id : Half) (d : Descriptor), d.legal = true →
    (∀ (s t : State) (strict : Bool), DescriptorLoaded s.regs d →
      exec (match d.kind with | .generic => .matchGenericBits | .cbt => .matchCbt) s = .next t →
      entryDec s.build (.desc id d) ((List.range s.regs.tbLen.toNat).map (readTb s)) s.regs.cursor.toNat strict =
        if t.status = 0 then some ⟨BitVec.ofNat 16 d.n, .int (t.res.hi ++ t.res.lo), s.build.derived0⟩ else none) ∧
    (∀ (r : OperandRegs) (v : BitVec 64), DescriptorLoaded r d →
      entryEnc (.desc id d) (.int v) r.repeatCount = messageOf r (wireEntries d.msb d.n (fun k => v.getLsbD k)
        (match d.kind with | .generic => [d.om, d.os] | .cbt => [d.om, d.zm])
        (match d.kind with | .generic => [d.zm, d.zs] | .cbt => [d.zm, d.om]))) ∧
    (∀ (bs : List Byte) (r : Half), entryEnc (.desc id d) (.bytes bs) r = [])

/-- R204, R205: DECODE reports the first entry, in table order, that accepts at the first offset at which any does, with
the record over a reset Decode Result; if none accepts at any offset up to MAX_SKIP it reports NO_MATCH, and only
DR_SUCCESS = 0 is said of the Decode Result. -/
def Obligations.DecodeIsAPrioritySearch : Prop :=
  ∀ (s : State) (dec : ProtoEntry → Nat → Option Record),
    dec = (fun p off => entryDec s.build p ((List.range s.regs.tbLen.toNat).map (readTb s)) off
      (s.regs.cfg.getLsbD 3)) →
    (∀ (off : Nat) (pre post : List ProtoEntry) (p : ProtoEntry) (rec : Record), off ≤ s.regs.maxSkip.toNat →
      s.build.table.entries = pre ++ p :: post →
      (∀ off' q, off' < off → q ∈ s.build.table.entries → dec q off' = none) →
      (∀ q, q ∈ pre → dec q off = none) → dec p off = some rec →
      ∃ d, exec .decode s = .next { s with status := 0, dr := d } ∧
        d.success = 1 ∧ d.proto = p.id ∧ d.bits = rec.bits ∧ d.derived = rec.derived ∧
        (∀ v, rec.payload = .int v → d.kind = 0 ∧ d.valHi ++ d.valLo = v ∧ d.nbytes = 0 ∧ ∀ j, readDrs d j = 0) ∧
        (∀ bs, rec.payload = .bytes bs → d.kind = 1 ∧ d.valLo = 0 ∧ d.valHi = 0 ∧
          d.nbytes.toNat = bs.length ∧ ∀ j, readDrs d j = bs.getD j 0)) ∧
    ((∀ off q, off ≤ s.regs.maxSkip.toNat → q ∈ s.build.table.entries → dec q off = none) →
      ∃ d k, exec .decode s = .next { s with status := 5, dr := d, freeSeq := k } ∧ d.success = 0)

/-- R205, R207 items 3 and 4: DECODE's outcome depends on PT, the valid TB entries, MAX_SKIP and CFG.STRICT alone: two
states that agree on them report the same status and, on success, the same Decode Result. -/
def Obligations.DecodeDependsOnItsOperandsOnly : Prop :=
  ∀ s1 s2 t1 t2 : State, s1.build = s2.build → s1.regs.tbLen = s2.regs.tbLen →
    s1.regs.maxSkip = s2.regs.maxSkip → s1.regs.cfg.getLsbD 3 = s2.regs.cfg.getLsbD 3 →
    (∀ i, i < s1.regs.tbLen.toNat → readTb s1 i = readTb s2 i) →
    exec .decode s1 = .next t1 → exec .decode s2 = .next t2 →
    t1.status = t2.status ∧ t1.dr.success = t2.dr.success ∧ (t1.status = 0 → t1.dr = t2.dr)

/-- R209: ENCODE_PROTO_INT with the entry that PROTO_ID names, if there is one. -/
def Obligations.EncodeProtoIntOutcomes : Prop :=
  ∀ s : State,
    ((∀ p ∈ s.build.table.entries, p.id ≠ s.regs.protoId) →
      ∃ t, exec .encodeProtoInt s = .next t ∧ encodeFailed s t 4) ∧
    (∀ (p : ProtoEntry) (seq : List Word), p ∈ s.build.table.entries → p.id = s.regs.protoId →
      seq = entryEnc p (.int (s.regs.valHi ++ s.regs.valLo)) s.regs.repeatCount →
      ∃ t, exec .encodeProtoInt s = .next t ∧
        (seq = [] → encodeFailed s t 3) ∧ (seq ≠ [] → encodeEndsWith s t seq))

/-- R210: ENCODE_PROTO_BYTES, its range check first. -/
def Obligations.EncodeProtoBytesOutcomes : Prop :=
  ∀ (s : State) (off nb : Nat), off = s.regs.baOff.toNat → nb = s.regs.nbytes.toNat →
    (s.build.baCap < off + nb → ∃ t, exec .encodeProtoBytes s = .next t ∧ encodeFailed s t 7) ∧
    (off + nb ≤ s.build.baCap →
      ((∀ p ∈ s.build.table.entries, p.id ≠ s.regs.protoId) →
        ∃ t, exec .encodeProtoBytes s = .next t ∧ encodeFailed s t 4) ∧
      (∀ (p : ProtoEntry) (seq : List Word), p ∈ s.build.table.entries → p.id = s.regs.protoId →
        seq = entryEnc p (.bytes ((List.range nb).map fun j => readBa s (off + j))) s.regs.repeatCount →
        ∃ t, exec .encodeProtoBytes s = .next t ∧
          (seq = [] → encodeFailed s t 3) ∧ (seq ≠ [] → encodeEndsWith s t seq)))

/-- R208, R209: PROTO_ID's reset value 0xFFFF names no entry of any admissible table. -/
def Obligations.UnknownIdentityIsUnsupported : Prop :=
  ∀ s : State, s.regs.protoId = 0xFFFF →
    (∃ t, exec .encodeProtoInt s = .next t ∧ encodeFailed s t 4) ∧
    (s.regs.baOff.toNat + s.regs.nbytes.toNat ≤ s.build.baCap →
      ∃ t, exec .encodeProtoBytes s = .next t ∧ encodeFailed s t 4)

/-- R212, R35: RESET_RESULT gives the Decode Result its reset values, is always OK, and is idempotent. -/
def Obligations.ResetResultResetsDecodeResult : Prop :=
  ∀ s : State, ∃ t, exec .resetResult s = .next t ∧ t = { s with status := 0, dr := t.dr } ∧
    t.dr.success = 0 ∧ t.dr.proto = 0xFFFF ∧ t.dr.bits = 0 ∧ t.dr.kind = 0 ∧ t.dr.valLo = 0 ∧ t.dr.valHi = 0 ∧
    t.dr.nbytes = 0 ∧ (∀ j, readDrs t.dr j = 0) ∧ t.dr.derived = s.build.derived0 ∧
    exec .resetResult t = .next t

/-! ### Frames and whole-machine rules -/

/-- R22, R61, R74, R266: no command changes an operand or descriptor register (CURSOR among them), TB, CMD, what the unit
was built with, or the host's side. -/
def Obligations.NoCommandChangesOperandsOrTb : Prop :=
  ∀ (i : Instr) (s t : State), exec i s = .next t →
    t.regs = s.regs ∧ t.cmd = s.cmd ∧ t.build = s.build ∧ t.script = s.script ∧ t.reads = s.reads ∧
    t.resetEpoch = s.resetEpoch ∧ ∀ j, readTb t j = readTb s j

/-- R35 (and D45): only DECODE and RESET_RESULT change the Decode Result, and they change nothing but it and STATUS. -/
def Obligations.OnlyDispatcherChangesDecodeResult : Prop :=
  ∀ (i : Instr) (s t : State), exec i s = .next t →
    (i ≠ .decode → i ≠ .resetResult → t.dr = s.dr) ∧
    (i = .decode ∨ i = .resetResult →
      t.res = s.res ∧ (∀ j, readBa t j = readBa s j) ∧ (∀ j, memGet t.ob j = memGet s.ob j) ∧
      (∀ j, readTb t j = readTb s j) ∧ t.regs = s.regs ∧ t.cmd = s.cmd)

/-- The frame of WINDOW, MATCH_MARK, MATCH_SPACE and MATCH_AT_LEAST (R103, R105, R107, R109): STATUS and the results
named there; every memory and everything else stays. -/
def Obligations.PulseFrame : Prop :=
  ∀ (i : Instr) (s t : State),
    (i = .window ∨ i = .matchMark ∨ i = .matchSpace ∨ i = .matchAtLeast) → exec i s = .next t →
    t.regs = s.regs ∧ t.cmd = s.cmd ∧ t.dr = s.dr ∧ t.res.used = s.res.used ∧ t.res.obLen = s.res.obLen ∧
    (i = .window → t.res.matched = s.res.matched) ∧
    (i ≠ .window → t.res.lo = s.res.lo ∧ t.res.hi = s.res.hi ∧ t.res.lo2 = s.res.lo2 ∧ t.res.hi2 = s.res.hi2) ∧
    (∀ j, readTb t j = readTb s j) ∧ (∀ j, readBa t j = readBa s j) ∧ (∀ j, readOb t j = readOb s j) ∧
    (∀ j, readDrs t.dr j = readDrs s.dr j)

/-- The frame of MATCH_DATA, MATCH_GENERIC_BITS and MATCH_CBT (R122, R144, R162): STATUS, RES_MATCH, RES_USED and RES;
every memory and everything else stays. -/
def Obligations.IntegerMatcherFrame : Prop :=
  ∀ (i : Instr) (s t : State),
    (i = .matchData ∨ i = .matchGenericBits ∨ i = .matchCbt) → exec i s = .next t →
    t.regs = s.regs ∧ t.cmd = s.cmd ∧ t.dr = s.dr ∧ t.res.lo2 = s.res.lo2 ∧ t.res.hi2 = s.res.hi2 ∧
    t.res.obLen = s.res.obLen ∧
    (∀ j, readTb t j = readTb s j) ∧ (∀ j, readBa t j = readBa s j) ∧ (∀ j, readOb t j = readOb s j) ∧
    (∀ j, readDrs t.dr j = readDrs s.dr j)

/-- The frame of MATCH_BYTES and MATCH_GENERIC_BYTES (R125, R146, R233): STATUS, RES_MATCH, RES_USED and the BA bytes of
the target range, whose first index is BA_OFF; RES and everything else stays. -/
def Obligations.ByteMatcherFrame : Prop :=
  ∀ (i : Instr) (s t : State) (len : Nat),
    (i = .matchBytes ∧ len = s.regs.nbytes.toNat) ∨ (i = .matchGenericBytes ∧ len = s.regs.nbits.toNat / 8) →
    exec i s = .next t →
    t.regs = s.regs ∧ t.cmd = s.cmd ∧ t.dr = s.dr ∧ t.res.lo = s.res.lo ∧ t.res.hi = s.res.hi ∧
    t.res.lo2 = s.res.lo2 ∧ t.res.hi2 = s.res.hi2 ∧ t.res.obLen = s.res.obLen ∧
    (∀ j, readTb t j = readTb s j) ∧ (∀ j, memGet t.ob j = memGet s.ob j) ∧
    (∀ j, (j < s.regs.baOff.toNat ∨ s.regs.baOff.toNat + len ≤ j) → readBa t j = readBa s j)

/-- The frame of the five encoders (R184, R82): STATUS, OB_LEN and the OB entries below OB_LEN; everything else stays. -/
def Obligations.EncoderFrame : Prop :=
  ∀ (i : Instr) (s t : State),
    (i = .encodeGenericBits ∨ i = .encodeGenericBytes ∨ i = .encodeCbt ∨ i = .encodeProtoInt ∨
      i = .encodeProtoBytes) → exec i s = .next t →
    t.regs = s.regs ∧ t.cmd = s.cmd ∧ t.dr = s.dr ∧ t.res = { s.res with obLen := t.res.obLen } ∧
    t.res.obLen.toNat ≤ s.build.obCap ∧
    (∀ j, readTb t j = readTb s j) ∧ (∀ j, readBa t j = readBa s j) ∧ (∀ j, readDrs t.dr j = readDrs s.dr j) ∧
    (∀ j, t.res.obLen.toNat ≤ j → memGet t.ob j = memGet s.ob j)

/-- R29, R30: after a matcher command RES_MATCH = 1 exactly when STATUS = OK, RES_USED is 0 after a failure and not 0
after a success; after a pulse command RES_MATCH is the comparison's result. -/
def Obligations.ResMatchTellsSuccess : Prop :=
  ∀ (i : Instr) (s t : State), exec i s = .next t →
    ((i = .matchMark ∨ i = .matchSpace ∨ i = .matchAtLeast ∨ i = .matchData ∨ i = .matchBytes ∨
      i = .matchGenericBits ∨ i = .matchGenericBytes ∨ i = .matchCbt) →
      (t.res.matched = 1 ↔ t.status = 0) ∧ (t.res.matched = 0 ↔ t.status ≠ 0)) ∧
    ((i = .matchData ∨ i = .matchBytes ∨ i = .matchGenericBits ∨ i = .matchGenericBytes ∨ i = .matchCbt) →
      (t.res.used = 0 ↔ t.status ≠ 0))

/-- R230, R231: the codes each command can end with; no command ends with ILLEGAL_COMMAND or a reserved code. -/
def Obligations.StatusCodesPerCommand : Prop :=
  ∀ (i : Instr) (s t : State), exec i s = .next t →
    t.status ∈ (match i with
      | .window => [0, 7]
      | .matchMark | .matchSpace | .matchAtLeast => [0, 2, 7]
      | .matchData | .matchBytes | .matchGenericBits | .matchGenericBytes | .matchCbt => [0, 1, 2, 7]
      | .encodeGenericBits | .encodeGenericBytes | .encodeCbt => [0, 7, 8]
      | .decode => [0, 5]
      | .encodeProtoInt => [0, 3, 4, 8]
      | .encodeProtoBytes => [0, 3, 4, 7, 8]
      | .resetResult => [0] : List Byte)

/-- R280: every command completes, in every state, in one step. -/
def Obligations.EveryCommandCompletes : Prop := ∀ (i : Instr) (s : State), ∃ t, exec i s = .next t

/-- R20, R200, R282: nothing changes what the unit was built with, the protocol table among it; no step but the host's
own write to TB, or a reset, changes a TB entry. -/
def Obligations.TableAndTbAreNotWritten : Prop :=
  ∀ s t : State, step s = .next t → t.build = s.build ∧
    ((∀ i, readTb t i = readTb s i) ∨ (∃ rest, s.script = .platformReset :: rest) ∨
      ∃ a w rest, s.script = .write a w :: rest ∧ 0x10000 ≤ a.offset ∧ a.offset < 0x20000)
end

