-- ==== Sys2Proof/Laws/State.lean ====
section
/-! SUPPORT. One lemma per field per update of State, true by definition, so that no proof unfolds a record update. -/

namespace Sys2Proof.Machine

/-! `setCmd` -/

@[simp] theorem setCmd_cmd (s : State) (w : Word) : (setCmd s w).cmd = w := rfl
@[simp] theorem setCmd_status (s : State) (w : Word) : (setCmd s w).status = s.status := rfl
@[simp] theorem setCmd_regs (s : State) (w : Word) : (setCmd s w).regs = s.regs := rfl
@[simp] theorem setCmd_res (s : State) (w : Word) : (setCmd s w).res = s.res := rfl
@[simp] theorem setCmd_dr (s : State) (w : Word) : (setCmd s w).dr = s.dr := rfl
@[simp] theorem setCmd_tb (s : State) (w : Word) : (setCmd s w).tb = s.tb := rfl
@[simp] theorem setCmd_ob (s : State) (w : Word) : (setCmd s w).ob = s.ob := rfl
@[simp] theorem setCmd_ba (s : State) (w : Word) : (setCmd s w).ba = s.ba := rfl
@[simp] theorem setCmd_build (s : State) (w : Word) : (setCmd s w).build = s.build := rfl
@[simp] theorem setCmd_script (s : State) (w : Word) : (setCmd s w).script = s.script := rfl
@[simp] theorem setCmd_reads (s : State) (w : Word) : (setCmd s w).reads = s.reads := rfl
@[simp] theorem setCmd_freeSeq (s : State) (w : Word) : (setCmd s w).freeSeq = s.freeSeq := rfl
@[simp] theorem setCmd_resetEpoch (s : State) (w : Word) : (setCmd s w).resetEpoch = s.resetEpoch := rfl

/-! `setStatus` -/

@[simp] theorem setStatus_cmd (s : State) (c : Status) : (setStatus s c).cmd = s.cmd := rfl
@[simp] theorem setStatus_status (s : State) (c : Status) : (setStatus s c).status = statusCode c := rfl
@[simp] theorem setStatus_regs (s : State) (c : Status) : (setStatus s c).regs = s.regs := rfl
@[simp] theorem setStatus_res (s : State) (c : Status) : (setStatus s c).res = s.res := rfl
@[simp] theorem setStatus_dr (s : State) (c : Status) : (setStatus s c).dr = s.dr := rfl
@[simp] theorem setStatus_tb (s : State) (c : Status) : (setStatus s c).tb = s.tb := rfl
@[simp] theorem setStatus_ob (s : State) (c : Status) : (setStatus s c).ob = s.ob := rfl
@[simp] theorem setStatus_ba (s : State) (c : Status) : (setStatus s c).ba = s.ba := rfl
@[simp] theorem setStatus_build (s : State) (c : Status) : (setStatus s c).build = s.build := rfl
@[simp] theorem setStatus_script (s : State) (c : Status) : (setStatus s c).script = s.script := rfl
@[simp] theorem setStatus_reads (s : State) (c : Status) : (setStatus s c).reads = s.reads := rfl
@[simp] theorem setStatus_freeSeq (s : State) (c : Status) : (setStatus s c).freeSeq = s.freeSeq := rfl
@[simp] theorem setStatus_resetEpoch (s : State) (c : Status) : (setStatus s c).resetEpoch = s.resetEpoch := rfl

/-! `setRegs` -/

@[simp] theorem setRegs_cmd (s : State) (r : OperandRegs) : (setRegs s r).cmd = s.cmd := rfl
@[simp] theorem setRegs_status (s : State) (r : OperandRegs) : (setRegs s r).status = s.status := rfl
@[simp] theorem setRegs_regs (s : State) (r : OperandRegs) : (setRegs s r).regs = r := rfl
@[simp] theorem setRegs_res (s : State) (r : OperandRegs) : (setRegs s r).res = s.res := rfl
@[simp] theorem setRegs_dr (s : State) (r : OperandRegs) : (setRegs s r).dr = s.dr := rfl
@[simp] theorem setRegs_tb (s : State) (r : OperandRegs) : (setRegs s r).tb = s.tb := rfl
@[simp] theorem setRegs_ob (s : State) (r : OperandRegs) : (setRegs s r).ob = s.ob := rfl
@[simp] theorem setRegs_ba (s : State) (r : OperandRegs) : (setRegs s r).ba = s.ba := rfl
@[simp] theorem setRegs_build (s : State) (r : OperandRegs) : (setRegs s r).build = s.build := rfl
@[simp] theorem setRegs_script (s : State) (r : OperandRegs) : (setRegs s r).script = s.script := rfl
@[simp] theorem setRegs_reads (s : State) (r : OperandRegs) : (setRegs s r).reads = s.reads := rfl
@[simp] theorem setRegs_freeSeq (s : State) (r : OperandRegs) : (setRegs s r).freeSeq = s.freeSeq := rfl
@[simp] theorem setRegs_resetEpoch (s : State) (r : OperandRegs) : (setRegs s r).resetEpoch = s.resetEpoch := rfl

/-! `setRes` -/

@[simp] theorem setRes_cmd (s : State) (r : ResultRegs) : (setRes s r).cmd = s.cmd := rfl
@[simp] theorem setRes_status (s : State) (r : ResultRegs) : (setRes s r).status = s.status := rfl
@[simp] theorem setRes_regs (s : State) (r : ResultRegs) : (setRes s r).regs = s.regs := rfl
@[simp] theorem setRes_res (s : State) (r : ResultRegs) : (setRes s r).res = r := rfl
@[simp] theorem setRes_dr (s : State) (r : ResultRegs) : (setRes s r).dr = s.dr := rfl
@[simp] theorem setRes_tb (s : State) (r : ResultRegs) : (setRes s r).tb = s.tb := rfl
@[simp] theorem setRes_ob (s : State) (r : ResultRegs) : (setRes s r).ob = s.ob := rfl
@[simp] theorem setRes_ba (s : State) (r : ResultRegs) : (setRes s r).ba = s.ba := rfl
@[simp] theorem setRes_build (s : State) (r : ResultRegs) : (setRes s r).build = s.build := rfl
@[simp] theorem setRes_script (s : State) (r : ResultRegs) : (setRes s r).script = s.script := rfl
@[simp] theorem setRes_reads (s : State) (r : ResultRegs) : (setRes s r).reads = s.reads := rfl
@[simp] theorem setRes_freeSeq (s : State) (r : ResultRegs) : (setRes s r).freeSeq = s.freeSeq := rfl
@[simp] theorem setRes_resetEpoch (s : State) (r : ResultRegs) : (setRes s r).resetEpoch = s.resetEpoch := rfl

/-! `setDr` -/

@[simp] theorem setDr_cmd (s : State) (d : DecodeResult) : (setDr s d).cmd = s.cmd := rfl
@[simp] theorem setDr_status (s : State) (d : DecodeResult) : (setDr s d).status = s.status := rfl
@[simp] theorem setDr_regs (s : State) (d : DecodeResult) : (setDr s d).regs = s.regs := rfl
@[simp] theorem setDr_res (s : State) (d : DecodeResult) : (setDr s d).res = s.res := rfl
@[simp] theorem setDr_dr (s : State) (d : DecodeResult) : (setDr s d).dr = d := rfl
@[simp] theorem setDr_tb (s : State) (d : DecodeResult) : (setDr s d).tb = s.tb := rfl
@[simp] theorem setDr_ob (s : State) (d : DecodeResult) : (setDr s d).ob = s.ob := rfl
@[simp] theorem setDr_ba (s : State) (d : DecodeResult) : (setDr s d).ba = s.ba := rfl
@[simp] theorem setDr_build (s : State) (d : DecodeResult) : (setDr s d).build = s.build := rfl
@[simp] theorem setDr_script (s : State) (d : DecodeResult) : (setDr s d).script = s.script := rfl
@[simp] theorem setDr_reads (s : State) (d : DecodeResult) : (setDr s d).reads = s.reads := rfl
@[simp] theorem setDr_freeSeq (s : State) (d : DecodeResult) : (setDr s d).freeSeq = s.freeSeq := rfl
@[simp] theorem setDr_resetEpoch (s : State) (d : DecodeResult) : (setDr s d).resetEpoch = s.resetEpoch := rfl

/-! `setTb` -/

@[simp] theorem setTb_cmd (s : State) (m : List (Nat × Word)) : (setTb s m).cmd = s.cmd := rfl
@[simp] theorem setTb_status (s : State) (m : List (Nat × Word)) : (setTb s m).status = s.status := rfl
@[simp] theorem setTb_regs (s : State) (m : List (Nat × Word)) : (setTb s m).regs = s.regs := rfl
@[simp] theorem setTb_res (s : State) (m : List (Nat × Word)) : (setTb s m).res = s.res := rfl
@[simp] theorem setTb_dr (s : State) (m : List (Nat × Word)) : (setTb s m).dr = s.dr := rfl
@[simp] theorem setTb_tb (s : State) (m : List (Nat × Word)) : (setTb s m).tb = m := rfl
@[simp] theorem setTb_ob (s : State) (m : List (Nat × Word)) : (setTb s m).ob = s.ob := rfl
@[simp] theorem setTb_ba (s : State) (m : List (Nat × Word)) : (setTb s m).ba = s.ba := rfl
@[simp] theorem setTb_build (s : State) (m : List (Nat × Word)) : (setTb s m).build = s.build := rfl
@[simp] theorem setTb_script (s : State) (m : List (Nat × Word)) : (setTb s m).script = s.script := rfl
@[simp] theorem setTb_reads (s : State) (m : List (Nat × Word)) : (setTb s m).reads = s.reads := rfl
@[simp] theorem setTb_freeSeq (s : State) (m : List (Nat × Word)) : (setTb s m).freeSeq = s.freeSeq := rfl
@[simp] theorem setTb_resetEpoch (s : State) (m : List (Nat × Word)) : (setTb s m).resetEpoch = s.resetEpoch := rfl

/-! `setOb` -/

@[simp] theorem setOb_cmd (s : State) (m : List (Nat × Word)) : (setOb s m).cmd = s.cmd := rfl
@[simp] theorem setOb_status (s : State) (m : List (Nat × Word)) : (setOb s m).status = s.status := rfl
@[simp] theorem setOb_regs (s : State) (m : List (Nat × Word)) : (setOb s m).regs = s.regs := rfl
@[simp] theorem setOb_res (s : State) (m : List (Nat × Word)) : (setOb s m).res = s.res := rfl
@[simp] theorem setOb_dr (s : State) (m : List (Nat × Word)) : (setOb s m).dr = s.dr := rfl
@[simp] theorem setOb_tb (s : State) (m : List (Nat × Word)) : (setOb s m).tb = s.tb := rfl
@[simp] theorem setOb_ob (s : State) (m : List (Nat × Word)) : (setOb s m).ob = m := rfl
@[simp] theorem setOb_ba (s : State) (m : List (Nat × Word)) : (setOb s m).ba = s.ba := rfl
@[simp] theorem setOb_build (s : State) (m : List (Nat × Word)) : (setOb s m).build = s.build := rfl
@[simp] theorem setOb_script (s : State) (m : List (Nat × Word)) : (setOb s m).script = s.script := rfl
@[simp] theorem setOb_reads (s : State) (m : List (Nat × Word)) : (setOb s m).reads = s.reads := rfl
@[simp] theorem setOb_freeSeq (s : State) (m : List (Nat × Word)) : (setOb s m).freeSeq = s.freeSeq := rfl
@[simp] theorem setOb_resetEpoch (s : State) (m : List (Nat × Word)) : (setOb s m).resetEpoch = s.resetEpoch := rfl

/-! `setBa` -/

@[simp] theorem setBa_cmd (s : State) (m : List Host.Cell) : (setBa s m).cmd = s.cmd := rfl
@[simp] theorem setBa_status (s : State) (m : List Host.Cell) : (setBa s m).status = s.status := rfl
@[simp] theorem setBa_regs (s : State) (m : List Host.Cell) : (setBa s m).regs = s.regs := rfl
@[simp] theorem setBa_res (s : State) (m : List Host.Cell) : (setBa s m).res = s.res := rfl
@[simp] theorem setBa_dr (s : State) (m : List Host.Cell) : (setBa s m).dr = s.dr := rfl
@[simp] theorem setBa_tb (s : State) (m : List Host.Cell) : (setBa s m).tb = s.tb := rfl
@[simp] theorem setBa_ob (s : State) (m : List Host.Cell) : (setBa s m).ob = s.ob := rfl
@[simp] theorem setBa_ba (s : State) (m : List Host.Cell) : (setBa s m).ba = m := rfl
@[simp] theorem setBa_build (s : State) (m : List Host.Cell) : (setBa s m).build = s.build := rfl
@[simp] theorem setBa_script (s : State) (m : List Host.Cell) : (setBa s m).script = s.script := rfl
@[simp] theorem setBa_reads (s : State) (m : List Host.Cell) : (setBa s m).reads = s.reads := rfl
@[simp] theorem setBa_freeSeq (s : State) (m : List Host.Cell) : (setBa s m).freeSeq = s.freeSeq := rfl
@[simp] theorem setBa_resetEpoch (s : State) (m : List Host.Cell) : (setBa s m).resetEpoch = s.resetEpoch := rfl

/-! `setScript` -/

@[simp] theorem setScript_cmd (s : State) (ops : List HostOp) : (setScript s ops).cmd = s.cmd := rfl
@[simp] theorem setScript_status (s : State) (ops : List HostOp) : (setScript s ops).status = s.status := rfl
@[simp] theorem setScript_regs (s : State) (ops : List HostOp) : (setScript s ops).regs = s.regs := rfl
@[simp] theorem setScript_res (s : State) (ops : List HostOp) : (setScript s ops).res = s.res := rfl
@[simp] theorem setScript_dr (s : State) (ops : List HostOp) : (setScript s ops).dr = s.dr := rfl
@[simp] theorem setScript_tb (s : State) (ops : List HostOp) : (setScript s ops).tb = s.tb := rfl
@[simp] theorem setScript_ob (s : State) (ops : List HostOp) : (setScript s ops).ob = s.ob := rfl
@[simp] theorem setScript_ba (s : State) (ops : List HostOp) : (setScript s ops).ba = s.ba := rfl
@[simp] theorem setScript_build (s : State) (ops : List HostOp) : (setScript s ops).build = s.build := rfl
@[simp] theorem setScript_script (s : State) (ops : List HostOp) : (setScript s ops).script = ops := rfl
@[simp] theorem setScript_reads (s : State) (ops : List HostOp) : (setScript s ops).reads = s.reads := rfl
@[simp] theorem setScript_freeSeq (s : State) (ops : List HostOp) : (setScript s ops).freeSeq = s.freeSeq := rfl
@[simp] theorem setScript_resetEpoch (s : State) (ops : List HostOp) : (setScript s ops).resetEpoch = s.resetEpoch := rfl

/-! `pushRead` -/

@[simp] theorem pushRead_cmd (s : State) (w : Word) : (pushRead s w).cmd = s.cmd := rfl
@[simp] theorem pushRead_status (s : State) (w : Word) : (pushRead s w).status = s.status := rfl
@[simp] theorem pushRead_regs (s : State) (w : Word) : (pushRead s w).regs = s.regs := rfl
@[simp] theorem pushRead_res (s : State) (w : Word) : (pushRead s w).res = s.res := rfl
@[simp] theorem pushRead_dr (s : State) (w : Word) : (pushRead s w).dr = s.dr := rfl
@[simp] theorem pushRead_tb (s : State) (w : Word) : (pushRead s w).tb = s.tb := rfl
@[simp] theorem pushRead_ob (s : State) (w : Word) : (pushRead s w).ob = s.ob := rfl
@[simp] theorem pushRead_ba (s : State) (w : Word) : (pushRead s w).ba = s.ba := rfl
@[simp] theorem pushRead_build (s : State) (w : Word) : (pushRead s w).build = s.build := rfl
@[simp] theorem pushRead_script (s : State) (w : Word) : (pushRead s w).script = s.script := rfl
@[simp] theorem pushRead_reads (s : State) (w : Word) : (pushRead s w).reads = w :: s.reads := rfl
@[simp] theorem pushRead_freeSeq (s : State) (w : Word) : (pushRead s w).freeSeq = s.freeSeq := rfl
@[simp] theorem pushRead_resetEpoch (s : State) (w : Word) : (pushRead s w).resetEpoch = s.resetEpoch := rfl

/-! `nextFree` -/

@[simp] theorem nextFree_cmd (s : State) : (nextFree s).cmd = s.cmd := rfl
@[simp] theorem nextFree_status (s : State) : (nextFree s).status = s.status := rfl
@[simp] theorem nextFree_regs (s : State) : (nextFree s).regs = s.regs := rfl
@[simp] theorem nextFree_res (s : State) : (nextFree s).res = s.res := rfl
@[simp] theorem nextFree_dr (s : State) : (nextFree s).dr = s.dr := rfl
@[simp] theorem nextFree_tb (s : State) : (nextFree s).tb = s.tb := rfl
@[simp] theorem nextFree_ob (s : State) : (nextFree s).ob = s.ob := rfl
@[simp] theorem nextFree_ba (s : State) : (nextFree s).ba = s.ba := rfl
@[simp] theorem nextFree_build (s : State) : (nextFree s).build = s.build := rfl
@[simp] theorem nextFree_script (s : State) : (nextFree s).script = s.script := rfl
@[simp] theorem nextFree_reads (s : State) : (nextFree s).reads = s.reads := rfl
@[simp] theorem nextFree_freeSeq (s : State) : (nextFree s).freeSeq = s.freeSeq + 1 := rfl
@[simp] theorem nextFree_resetEpoch (s : State) : (nextFree s).resetEpoch = s.resetEpoch := rfl

/-! `finishOk` -/

@[simp] theorem finishOk_cmd (s : State) : (finishOk s).cmd = s.cmd := rfl
@[simp] theorem finishOk_status (s : State) : (finishOk s).status = statusCode .ok := rfl
@[simp] theorem finishOk_regs (s : State) : (finishOk s).regs = s.regs := rfl
@[simp] theorem finishOk_res (s : State) : (finishOk s).res = s.res := rfl
@[simp] theorem finishOk_dr (s : State) : (finishOk s).dr = s.dr := rfl
@[simp] theorem finishOk_tb (s : State) : (finishOk s).tb = s.tb := rfl
@[simp] theorem finishOk_ob (s : State) : (finishOk s).ob = s.ob := rfl
@[simp] theorem finishOk_ba (s : State) : (finishOk s).ba = s.ba := rfl
@[simp] theorem finishOk_build (s : State) : (finishOk s).build = s.build := rfl
@[simp] theorem finishOk_script (s : State) : (finishOk s).script = s.script := rfl
@[simp] theorem finishOk_reads (s : State) : (finishOk s).reads = s.reads := rfl
@[simp] theorem finishOk_freeSeq (s : State) : (finishOk s).freeSeq = s.freeSeq := rfl
@[simp] theorem finishOk_resetEpoch (s : State) : (finishOk s).resetEpoch = s.resetEpoch := rfl

/-! `raise` -/

@[simp] theorem raise_cmd (c : Status) (s : State) : (raise c s).cmd = s.cmd := rfl
@[simp] theorem raise_status (c : Status) (s : State) : (raise c s).status = statusCode c := rfl
@[simp] theorem raise_regs (c : Status) (s : State) : (raise c s).regs = s.regs := rfl
@[simp] theorem raise_res (c : Status) (s : State) : (raise c s).res = s.res := rfl
@[simp] theorem raise_dr (c : Status) (s : State) : (raise c s).dr = s.dr := rfl
@[simp] theorem raise_tb (c : Status) (s : State) : (raise c s).tb = s.tb := rfl
@[simp] theorem raise_ob (c : Status) (s : State) : (raise c s).ob = s.ob := rfl
@[simp] theorem raise_ba (c : Status) (s : State) : (raise c s).ba = s.ba := rfl
@[simp] theorem raise_build (c : Status) (s : State) : (raise c s).build = s.build := rfl
@[simp] theorem raise_script (c : Status) (s : State) : (raise c s).script = s.script := rfl
@[simp] theorem raise_reads (c : Status) (s : State) : (raise c s).reads = s.reads := rfl
@[simp] theorem raise_freeSeq (c : Status) (s : State) : (raise c s).freeSeq = s.freeSeq := rfl
@[simp] theorem raise_resetEpoch (c : Status) (s : State) : (raise c s).resetEpoch = s.resetEpoch := rfl

/-! `withResult` -/

@[simp] theorem withResult_matched (r : ResultRegs) (v : Nat) : (withResult r v).matched = r.matched := rfl
@[simp] theorem withResult_used (r : ResultRegs) (v : Nat) : (withResult r v).used = r.used := rfl
@[simp] theorem withResult_lo (r : ResultRegs) (v : Nat) : (withResult r v).lo = BitVec.ofNat 32 v := rfl
@[simp] theorem withResult_hi (r : ResultRegs) (v : Nat) : (withResult r v).hi = BitVec.ofNat 32 (v / 2 ^ 32) := rfl
@[simp] theorem withResult_lo2 (r : ResultRegs) (v : Nat) : (withResult r v).lo2 = r.lo2 := rfl
@[simp] theorem withResult_hi2 (r : ResultRegs) (v : Nat) : (withResult r v).hi2 = r.hi2 := rfl
@[simp] theorem withResult_obLen (r : ResultRegs) (v : Nat) : (withResult r v).obLen = r.obLen := rfl

/-! `withResult2` -/

@[simp] theorem withResult2_matched (r : ResultRegs) (v : Nat) : (withResult2 r v).matched = r.matched := rfl
@[simp] theorem withResult2_used (r : ResultRegs) (v : Nat) : (withResult2 r v).used = r.used := rfl
@[simp] theorem withResult2_lo (r : ResultRegs) (v : Nat) : (withResult2 r v).lo = r.lo := rfl
@[simp] theorem withResult2_hi (r : ResultRegs) (v : Nat) : (withResult2 r v).hi = r.hi := rfl
@[simp] theorem withResult2_lo2 (r : ResultRegs) (v : Nat) : (withResult2 r v).lo2 = BitVec.ofNat 32 v := rfl
@[simp] theorem withResult2_hi2 (r : ResultRegs) (v : Nat) : (withResult2 r v).hi2 = BitVec.ofNat 32 (v / 2 ^ 32) := rfl
@[simp] theorem withResult2_obLen (r : ResultRegs) (v : Nat) : (withResult2 r v).obLen = r.obLen := rfl

/-! `withMatched` -/

@[simp] theorem withMatched_matched (r : ResultRegs) (v : Bool) : (withMatched r v).matched = flagBit v := rfl
@[simp] theorem withMatched_used (r : ResultRegs) (v : Bool) : (withMatched r v).used = r.used := rfl
@[simp] theorem withMatched_lo (r : ResultRegs) (v : Bool) : (withMatched r v).lo = r.lo := rfl
@[simp] theorem withMatched_hi (r : ResultRegs) (v : Bool) : (withMatched r v).hi = r.hi := rfl
@[simp] theorem withMatched_lo2 (r : ResultRegs) (v : Bool) : (withMatched r v).lo2 = r.lo2 := rfl
@[simp] theorem withMatched_hi2 (r : ResultRegs) (v : Bool) : (withMatched r v).hi2 = r.hi2 := rfl
@[simp] theorem withMatched_obLen (r : ResultRegs) (v : Bool) : (withMatched r v).obLen = r.obLen := rfl

/-! `withUsed` -/

@[simp] theorem withUsed_matched (r : ResultRegs) (v : Nat) : (withUsed r v).matched = r.matched := rfl
@[simp] theorem withUsed_used (r : ResultRegs) (v : Nat) : (withUsed r v).used = BitVec.ofNat 16 v := rfl
@[simp] theorem withUsed_lo (r : ResultRegs) (v : Nat) : (withUsed r v).lo = r.lo := rfl
@[simp] theorem withUsed_hi (r : ResultRegs) (v : Nat) : (withUsed r v).hi = r.hi := rfl
@[simp] theorem withUsed_lo2 (r : ResultRegs) (v : Nat) : (withUsed r v).lo2 = r.lo2 := rfl
@[simp] theorem withUsed_hi2 (r : ResultRegs) (v : Nat) : (withUsed r v).hi2 = r.hi2 := rfl
@[simp] theorem withUsed_obLen (r : ResultRegs) (v : Nat) : (withUsed r v).obLen = r.obLen := rfl

/-! `withObLen` -/

@[simp] theorem withObLen_matched (r : ResultRegs) (v : Nat) : (withObLen r v).matched = r.matched := rfl
@[simp] theorem withObLen_used (r : ResultRegs) (v : Nat) : (withObLen r v).used = r.used := rfl
@[simp] theorem withObLen_lo (r : ResultRegs) (v : Nat) : (withObLen r v).lo = r.lo := rfl
@[simp] theorem withObLen_hi (r : ResultRegs) (v : Nat) : (withObLen r v).hi = r.hi := rfl
@[simp] theorem withObLen_lo2 (r : ResultRegs) (v : Nat) : (withObLen r v).lo2 = r.lo2 := rfl
@[simp] theorem withObLen_hi2 (r : ResultRegs) (v : Nat) : (withObLen r v).hi2 = r.hi2 := rfl
@[simp] theorem withObLen_obLen (r : ResultRegs) (v : Nat) : (withObLen r v).obLen = BitVec.ofNat 16 v := rfl

end Sys2Proof.Machine
end

