-- ==== Sys2Proof/Laws/Memory.lean ====
section
/-! SUPPORT. The memory laws: a read after a write to the same place, a write leaves every other place alone, and every
memory operation keeps the canonical form and the bound. -/

namespace Sys2Proof.Machine

variable {w : Nat}

@[simp] theorem memGet_nil (a : Nat) : memGet ([] : List (Nat × BitVec w)) a = none := rfl

theorem memGet_cons (c : Nat × BitVec w) (m : List (Nat × BitVec w)) (a : Nat) :
    memGet (c :: m) a = if c.1 = a then some c.2 else memGet m a := rfl

/-- Without a default, a read after a write to the same place gives the value written. -/
theorem memGet_memPut_same (m : List (Nat × BitVec w)) (a : Nat) (v : BitVec w) :
    memGet (memPut none m a v) a = some v := by
  induction m with
  | nil => simp [memPut, memGet]
  | cons c m ih =>
    simp only [memPut, reduceCtorEq, if_false]
    split
    · simp [memGet]
    · split
      · simp [memGet]
      · have : c.1 ≠ a := by omega
        simp [memGet, this, ih]

/-- A write leaves every other place alone, whatever the default. -/
theorem memGet_memPut_ne (dflt : Option (BitVec w)) (m : List (Nat × BitVec w)) (a b : Nat) (v : BitVec w)
    (h : b ≠ a) : memGet (memPut dflt m a v) b = memGet m b := by
  have h' : ¬a = b := fun e => h e.symm
  induction m with
  | nil => simp only [memPut]; split <;> simp [memGet, h']
  | cons c m ih =>
    simp only [memPut]
    split
    · split
      · rfl
      · simp [memGet, h']
    · split
      · rename_i hac
        have : ¬c.1 = b := by omega
        split <;> simp [memGet, h', this]
      · simp only [memGet_cons, ih]

theorem memGet_none_of_lt (m : List (Nat × BitVec w)) (a : Nat) (h : ∀ d ∈ m, a < d.1) : memGet m a = none := by
  induction m with
  | nil => rfl
  | cons c m ih =>
    have := h c (by simp)
    have : ¬c.1 = a := by omega
    simp [memGet_cons, this, ih (fun d hd => h d (by simp [hd]))]

theorem memWf_cons (dflt : Option (BitVec w)) (c : Nat × BitVec w) (m : List (Nat × BitVec w)) :
    memWf dflt (c :: m) = true ↔ (∀ d ∈ m, c.1 < d.1) ∧ dflt ≠ some c.2 ∧ memWf dflt m = true := by
  simp only [memWf, Bool.and_eq_true, List.all_eq_true, decide_eq_true_eq]
  tauto

/-- With a default, a read after a write to the same place of a canonical memory gives the value written. -/
theorem memGet_memPut_dflt (d : BitVec w) (m : List (Nat × BitVec w)) (a : Nat) (v : BitVec w)
    (h : memWf (some d) m = true) : (memGet (memPut (some d) m a v) a).getD d = v := by
  induction m with
  | nil => simp only [memPut]; split <;> simp_all [memGet]
  | cons c m ih =>
    rw [memWf_cons] at h
    simp only [memPut]
    split
    · rename_i hlt
      split
      · rename_i hv
        have := memGet_none_of_lt (c :: m) a (by
          intro e he
          rcases List.mem_cons.1 he with rfl | he
          · exact hlt
          · have := h.1 e he; omega)
        simp_all
      · simp [memGet]
    · split
      · rename_i hac
        split
        · rename_i hv
          have := memGet_none_of_lt m a (fun e he => by have := h.1 e he; omega)
          simp_all
        · simp [memGet]
      · have : ¬c.1 = a := by omega
        simp [memGet_cons, this, ih h.2.2]

/-- A written memory's cells are the new one and old ones. -/
theorem mem_memPut (dflt : Option (BitVec w)) (m : List (Nat × BitVec w)) (a : Nat) (v : BitVec w) :
    ∀ c ∈ memPut dflt m a v, (c = (a, v) ∧ dflt ≠ some v) ∨ c ∈ m := by
  induction m with
  | nil => simp only [memPut]; split <;> simp_all
  | cons c m ih =>
    intro e he
    simp only [memPut] at he
    split at he
    · split at he
      · exact .inr he
      · rcases List.mem_cons.1 he with rfl | he
        · exact .inl ⟨rfl, ‹_›⟩
        · exact .inr he
    · split at he
      · split at he
        · exact .inr (by simp [he])
        · rcases List.mem_cons.1 he with rfl | he
          · exact .inl ⟨rfl, ‹_›⟩
          · exact .inr (by simp [he])
      · rcases List.mem_cons.1 he with rfl | he
        · exact .inr (by simp)
        · rcases ih e he with h | h
          · exact .inl h
          · exact .inr (by simp [h])

/-- Every write keeps the canonical form. -/
theorem memWf_memPut (dflt : Option (BitVec w)) (m : List (Nat × BitVec w)) (a : Nat) (v : BitVec w)
    (h : memWf dflt m = true) : memWf dflt (memPut dflt m a v) = true := by
  induction m with
  | nil => simp only [memPut]; split <;> simp_all [memWf]
  | cons c m ih =>
    have h0 := h
    rw [memWf_cons] at h
    simp only [memPut]
    split
    · split
      · exact h0
      · rw [memWf_cons]
        refine ⟨fun e he => ?_, by assumption, h0⟩
        rcases List.mem_cons.1 he with rfl | he
        · assumption
        · have := h.1 e he; simp only; omega
    · split
      · split
        · exact h.2.2
        · rw [memWf_cons]
          exact ⟨fun e he => by have := h.1 e he; simp only; omega, by assumption, h.2.2⟩
      · rw [memWf_cons]
        refine ⟨fun e he => ?_, h.2.1, ih h.2.2⟩
        rcases mem_memPut dflt m a v e he with ⟨rfl, -⟩ | he
        · simp only; omega
        · exact h.1 e he

/-- A write leaves the places it does not cover alone. -/
theorem memGet_memPutAll_outside (dflt : Option (BitVec w)) (vs : List (BitVec w)) :
    ∀ (m : List (Nat × BitVec w)) (a b : Nat), (b < a ∨ a + vs.length ≤ b) →
      memGet (memPutAll dflt m a vs) b = memGet m b := by
  induction vs with
  | nil => intros; rfl
  | cons v vs ih =>
    intro m a b h
    simp only [List.length_cons] at h
    simp only [memPutAll]
    rw [ih _ _ _ (by omega), memGet_memPut_ne _ _ _ _ _ (by omega)]

/-- Without a default, a place a write covers holds the value written there. -/
theorem memGet_memPutAll_inside (vs : List (BitVec w)) :
    ∀ (m : List (Nat × BitVec w)) (a i : Nat) (h : i < vs.length),
      memGet (memPutAll none m a vs) (a + i) = some vs[i] := by
  induction vs with
  | nil => intro m a i h; simp at h
  | cons v vs ih =>
    intro m a i h
    simp only [memPutAll]
    cases i with
    | zero =>
      rw [memGet_memPutAll_outside _ _ _ _ _ (by omega)]
      simp [memGet_memPut_same]
    | succ i =>
      have := ih (memPut none m a v) (a + 1) i (by simpa using h)
      rw [show a + (i + 1) = a + 1 + i by omega, this]
      simp

/-- With a default, a place a write to a canonical memory covers reads as the value written there. -/
theorem memGet_memPutAll_dflt (d : BitVec w) (vs : List (BitVec w)) :
    ∀ (m : List (Nat × BitVec w)) (a i : Nat) (_ : memWf (some d) m = true) (h : i < vs.length),
      (memGet (memPutAll (some d) m a vs) (a + i)).getD d = vs[i] := by
  induction vs with
  | nil => intro m a i _ h; simp at h
  | cons v vs ih =>
    intro m a i hm h
    simp only [memPutAll]
    cases i with
    | zero =>
      rw [memGet_memPutAll_outside _ _ _ _ _ (by omega)]
      simpa using memGet_memPut_dflt d m a v hm
    | succ i =>
      have := ih (memPut (some d) m a v) (a + 1) i (memWf_memPut _ _ _ _ hm) (by simpa using h)
      rw [show a + (i + 1) = a + 1 + i by omega, this]
      simp

/-- Every write of a sequence keeps the canonical form. -/
theorem memWf_memPutAll (dflt : Option (BitVec w)) (vs : List (BitVec w)) :
    ∀ (m : List (Nat × BitVec w)) (a : Nat), memWf dflt m = true → memWf dflt (memPutAll dflt m a vs) = true := by
  induction vs with
  | nil => intro m a h; exact h
  | cons v vs ih => intro m a h; exact ih _ _ (memWf_memPut _ _ _ _ h)

/-- A written sequence's cells are new ones, in the range, and old ones. -/
theorem mem_memPutAll (dflt : Option (BitVec w)) (vs : List (BitVec w)) :
    ∀ (m : List (Nat × BitVec w)) (a : Nat), ∀ c ∈ memPutAll dflt m a vs, c.1 < a + vs.length ∨ c ∈ m := by
  induction vs with
  | nil => intro m a c hc; exact .inr hc
  | cons v vs ih =>
    intro m a c hc
    rcases ih _ _ c hc with h | h
    · left; simp only [List.length_cons]; omega
    · rcases mem_memPut dflt m a v c h with ⟨rfl, -⟩ | h
      · left; simp
      · exact .inr h

/-! ### The memories of the unit -/

theorem readBa_writeBytes_inside (s : State) (off : Nat) (bs : List Byte) (i : Nat) (h : i < bs.length) :
    readBa (writeBytes s off bs) (off + i) = bs[i] := by
  simp only [readBa, writeBytes, setBa_ba, unlistedBuffer]
  rw [memGet_memPutAll_inside bs s.ba off i h]
  rfl

theorem readBa_writeBytes_outside (s : State) (off : Nat) (bs : List Byte) (j : Nat)
    (h : j < off ∨ off + bs.length ≤ j) : readBa (writeBytes s off bs) j = readBa s j := by
  simp only [readBa, writeBytes, setBa_ba, setBa_resetEpoch]
  rw [memGet_memPutAll_outside _ _ _ _ _ h]

theorem readTb_writeTb_same (s : State) (i : Nat) (v : Word) : readTb (writeTb s i v) i = v := by
  simp [readTb, writeTb, unlistedBuffer, memGet_memPut_same]

theorem readTb_writeTb_ne (s : State) (i j : Nat) (v : Word) (h : j ≠ i) :
    readTb (writeTb s i v) j = readTb s j := by
  simp [readTb, writeTb, memGet_memPut_ne _ _ _ _ _ h]

theorem readBa_writeBa_same (s : State) (j : Nat) (b : Byte) : readBa (writeBa s j b) j = b := by
  simp [readBa, writeBa, unlistedBuffer, memGet_memPut_same]

theorem readBa_writeBa_ne (s : State) (j k : Nat) (b : Byte) (h : k ≠ j) :
    readBa (writeBa s j b) k = readBa s k := by
  simp [readBa, writeBa, memGet_memPut_ne _ _ _ _ _ h]

theorem readBa_anyBytes_outside (s : State) (off len j : Nat) (h : j < off ∨ off + len ≤ j) :
    readBa (anyBytes s off len) j = readBa s j := by
  have := readBa_writeBytes_outside s off
    ((List.range len).map (fun j => Config.freeByte s.freeSeq (off + j))) j (by simpa using h)
  simpa [anyBytes, readBa] using this

/-- Equal memory and equal resets give equal BA bytes. -/
theorem readBa_congr {s t : State} (h : t.ba = s.ba) (e : t.resetEpoch = s.resetEpoch) (j : Nat) :
    readBa t j = readBa s j := by simp [readBa, h, e]

/-- Equal memory and equal resets give equal TB entries. -/
theorem readTb_congr {s t : State} (h : t.tb = s.tb) (e : t.resetEpoch = s.resetEpoch) (i : Nat) :
    readTb t i = readTb s i := by simp [readTb, h, e]

@[simp] theorem tbEntries_length (s : State) : (tbEntries s).length = s.regs.tbLen.toNat := by simp [tbEntries]

theorem tbEntries_getElem (s : State) (i : Nat) (h : i < (tbEntries s).length) :
    (tbEntries s)[i] = readTb s i := by simp [tbEntries]

@[simp] theorem baBytes_length (s : State) (off len : Nat) : (baBytes s off len).length = len := by simp [baBytes]

theorem baBytes_getElem (s : State) (off len i : Nat) (h : i < (baBytes s off len).length) :
    (baBytes s off len)[i] = readBa s (off + i) := by simp [baBytes]

end Sys2Proof.Machine
end

