-- ==== Sys2Proof/Laws/Matcher.lean ====
section
/-! SUPPORT. What each core matcher can do: the entries it consumes, the range of its value, how it fails. -/

namespace Sys2Proof.Machine

theorem revBits_lt (n : Nat) : ∀ v, revBits n v < 2 ^ n := by
  induction n with
  | zero => intro v; simp [revBits]
  | succ n ih =>
    intro v
    have := ih (v / 2)
    have h2 : v % 2 < 2 := Nat.mod_lt _ (by omega)
    simp only [revBits]
    rw [Nat.pow_succ]
    have : v % 2 * 2 ^ n ≤ 1 * 2 ^ n := Nat.mul_le_mul_right _ (by omega)
    omega

/-- R11: bit i of `rev_n(v)` is bit n − 1 − i of `v`. -/
theorem revBits_testBit (n : Nat) : ∀ v i, i < n → (revBits n v).testBit i = v.testBit (n - 1 - i) := by
  induction n with
  | zero => intro v i h; omega
  | succ n ih =>
    intro v i h
    have hlt := revBits_lt n (v / 2)
    simp only [revBits]
    rw [Nat.mul_comm, Nat.testBit_two_pow_mul_add _ hlt]
    split
    · rename_i hi
      rw [ih _ _ hi, show n + 1 - 1 - i = (n - 1 - i) + 1 by omega, Nat.testBit_succ]
    · rw [show i - n = 0 by omega, show n + 1 - 1 - i = 0 by omega]
      simp [Nat.testBit_zero]

theorem orderBits_lt (msb : Bool) (n v : Nat) (h : v < 2 ^ n) : orderBits msb n v < 2 ^ n := by
  simp only [orderBits]; split
  · exact h
  · exact revBits_lt n v

theorem matchMap_ok {α β : Type} {f : α → β} {m : Match α} {y : β} {u : Nat} :
    matchMap f m = .ok y u ↔ ∃ x, m = .ok x u ∧ f x = y := by
  cases m <;> simp [matchMap, and_comm]

theorem matchMap_fail {α β : Type} {f : α → β} {m : Match α} {c : Miss} :
    matchMap f m = .fail c ↔ m = .fail c := by
  cases m <;> simp [matchMap]

/-- The bit loop never runs out of entries: its only failure is a mismatch. -/
theorem bitLoop_fail {tb : List Word} {start : Nat} {c : BitCoding} {els : Bool} {why : Miss} (k : Nat) :
    ∀ o v, bitLoop tb start c els k o v = .fail why → why = .timingMismatch := by
  induction k with
  | zero => intro o v h; simp [bitLoop] at h
  | succ k ih =>
    intro o v h
    simp only [bitLoop] at h
    split at h
    · exact ih _ _ h
    · split at h
      · exact ih _ _ h
      · simpa using h.symm

/-- The bit loop consumes exactly the entries of its bits and appends that many bits to the value. -/
theorem bitLoop_ok {tb : List Word} {start : Nat} {c : BitCoding} {els : Bool} (k : Nat) :
    ∀ o v x u, bitLoop tb start c els k o v = .ok x u →
      u = o + entriesOf k els ∧ v * 2 ^ k ≤ x ∧ x < (v + 1) * 2 ^ k := by
  induction k with
  | zero => intro o v x u h; simp [bitLoop] at h; simp [entriesOf, h]
  | succ k ih =>
    intro o v x u h
    have hstep : ∀ o', o' = o + 1 + (decide (0 < k) || els).toNat →
        o' + entriesOf k els = o + entriesOf (k + 1) els := by
      intro o' ho
      cases els <;> cases k <;> simp_all [entriesOf] <;> omega
    have hp : (2 : Nat) ^ (k + 1) = 2 * 2 ^ k := by rw [Nat.pow_succ, Nat.mul_comm]
    simp only [bitLoop] at h
    split at h
    · obtain ⟨hu, h1, h2⟩ := ih _ _ _ _ h
      refine ⟨by rw [hu, hstep _ rfl], ?_, ?_⟩ <;> rw [hp] <;> nlinarith
    · split at h
      · obtain ⟨hu, h1, h2⟩ := ih _ _ _ _ h
        refine ⟨by rw [hu, hstep _ rfl], ?_, ?_⟩ <;> rw [hp] <;> nlinarith
      · cases h

/-- When every pair decides its bit, the loop gives the bits in wire order, first bit most significant. -/
theorem bitLoop_value {tb : List Word} {start : Nat} {c : BitCoding} {els : Bool} (k : Nat) :
    ∀ (o v : Nat) (bits : Nat → Bool),
      (∀ j, j < k → if bits j then matchPair tb (start + o + 2 * j) c.om c.os c (decide (j + 1 < k) || els) = true
        else matchPair tb (start + o + 2 * j) c.om c.os c (decide (j + 1 < k) || els) = false ∧
          matchPair tb (start + o + 2 * j) c.zm c.zs c (decide (j + 1 < k) || els) = true) →
      bitLoop tb start c els k o v =
        .ok (v * 2 ^ k + ∑ j ∈ Finset.range k, if bits j then 2 ^ (k - 1 - j) else 0) (o + entriesOf k els) := by
  induction k with
  | zero => intro o v bits _; simp [bitLoop, entriesOf]
  | succ k ih =>
    intro o v bits h
    have h0 := h 0 (by omega)
    simp only [Nat.mul_zero, Nat.add_zero, Nat.zero_add, Nat.succ_lt_succ_iff] at h0
    have hrest : ∀ (v' : Nat), bitLoop tb start c els k (o + 1 + (decide (0 < k) || els).toNat) v' =
        .ok (v' * 2 ^ k + ∑ j ∈ Finset.range k, if bits (j + 1) then 2 ^ (k - 1 - j) else 0)
          (o + entriesOf (k + 1) els) := by
      intro v'
      rcases Nat.eq_zero_or_pos k with rfl | hk
      · cases els <;> simp [bitLoop, entriesOf]
      · have ho : o + 1 + (decide (0 < k) || els).toNat = o + 2 := by simp [hk]
        rw [ho, ih (o + 2) v' (fun j => bits (j + 1))]
        · congr 1
          cases els <;> simp [entriesOf] <;> omega
        · intro j hj
          have := h (j + 1) (by omega)
          rw [show start + o + 2 * (j + 1) = start + (o + 2) + 2 * j by omega,
            show decide (j + 1 + 1 < k + 1) = decide (j + 1 < k) by simp] at this
          exact this
    rw [Finset.sum_range_succ']
    have hsum : ∑ j ∈ Finset.range k, (if bits (j + 1) then 2 ^ (k + 1 - 1 - (j + 1)) else 0) =
        ∑ j ∈ Finset.range k, if bits (j + 1) then 2 ^ (k - 1 - j) else 0 := by
      refine Finset.sum_congr rfl fun j _ => ?_
      rw [show k + 1 - 1 - (j + 1) = k - 1 - j by omega]
    rw [hsum]
    simp only [bitLoop]
    by_cases hb : bits 0 = true
    · rw [if_pos hb] at h0
      rw [if_pos h0, hrest, if_pos hb]
      congr 1
      rw [show k + 1 - 1 - 0 = k by omega, Nat.pow_succ]
      ring
    · rw [if_neg hb] at h0
      rw [if_neg (by simp [h0.1]), if_pos h0.2, hrest, if_neg hb]
      congr 1
      rw [Nat.pow_succ]
      ring

/-- When the bits before `j` are decided and bit `j` matches neither pair, the loop is a mismatch. -/
theorem bitLoop_mismatch {tb : List Word} {start : Nat} {c : BitCoding} {els : Bool} (k : Nat) :
    ∀ (o v j : Nat) (bits : Nat → Bool), j < k →
      (∀ i, i < j → if bits i then matchPair tb (start + o + 2 * i) c.om c.os c (decide (i + 1 < k) || els) = true
        else matchPair tb (start + o + 2 * i) c.om c.os c (decide (i + 1 < k) || els) = false ∧
          matchPair tb (start + o + 2 * i) c.zm c.zs c (decide (i + 1 < k) || els) = true) →
      matchPair tb (start + o + 2 * j) c.om c.os c (decide (j + 1 < k) || els) = false →
      matchPair tb (start + o + 2 * j) c.zm c.zs c (decide (j + 1 < k) || els) = false →
      bitLoop tb start c els k o v = .fail .timingMismatch := by
  induction k with
  | zero => intro o v j bits h; omega
  | succ k ih =>
    intro o v j bits hj hb h1 h0
    simp only [bitLoop]
    cases j with
    | zero =>
      simp only [Nat.mul_zero, Nat.add_zero, Nat.zero_add, Nat.succ_lt_succ_iff] at h1 h0
      rw [if_neg (by simp [h1]), if_neg (by simp [h0])]
    | succ j =>
      have hk : 0 < k := by omega
      have hfirst := hb 0 (by omega)
      have hrest : ∀ v', bitLoop tb start c els k (o + 2) v' = .fail .timingMismatch := by
        intro v'
        refine ih (o + 2) v' j (fun i => bits (i + 1)) (by omega) (fun i hi => ?_) ?_ ?_
        · have := hb (i + 1) (by omega)
          rw [show start + o + 2 * (i + 1) = start + (o + 2) + 2 * i by omega,
            show decide (i + 1 + 1 < k + 1) = decide (i + 1 < k) by simp] at this
          exact this
        · rw [show start + (o + 2) + 2 * j = start + o + 2 * (j + 1) by omega,
            show decide (j + 1 < k) = decide (j + 1 + 1 < k + 1) by simp]
          exact h1
        · rw [show start + (o + 2) + 2 * j = start + o + 2 * (j + 1) by omega,
            show decide (j + 1 < k) = decide (j + 1 + 1 < k + 1) by simp]
          exact h0
      have ho : o + 1 + (decide (0 < k) || els).toNat = o + 2 := by simp [hk]
      simp only [Nat.mul_zero, Nat.add_zero, Nat.zero_add, Nat.succ_lt_succ_iff] at hfirst
      rw [ho, hrest, hrest]
      by_cases b : bits 0 = true
      · rw [if_pos b] at hfirst; rw [if_pos hfirst]
      · rw [if_neg b] at hfirst; rw [if_neg (by simp [hfirst.1]), if_pos hfirst.2]

/-- A valid TB entry as the core matchers see it (R64). -/
theorem entry_tbEntries (s : State) (i : Nat) (h : i < s.regs.tbLen.toNat) :
    entry (tbEntries s) i = (readTb s i).toNat := by
  simp [entry, tbEntries, List.getD_eq_getElem?_getD, h]

/-- matchData: it consumes the entries of its bits, which are there, and its value fits them (R123 item 1). -/
theorem matchData_ok {tb : List Word} {start n : Nat} {c : BitCoding} {msb els : Bool} {v u : Nat}
    (h : matchData tb start n c msb els = .ok v u) :
    v < 2 ^ n ∧ u = entriesOf n els ∧ entriesOf n els ≤ tb.length - start := by
  simp only [matchData] at h
  split at h
  · cases h
  · obtain ⟨x, hx, rfl⟩ := matchMap_ok.1 h
    obtain ⟨hu, -, hlt⟩ := bitLoop_ok _ _ _ _ _ hx
    exact ⟨orderBits_lt _ _ _ (by simpa using hlt), by simpa using hu, by omega⟩

/-- matchData fails for want of entries exactly when they are not there. -/
theorem matchData_insufficient {tb : List Word} {start n : Nat} {c : BitCoding} {msb els : Bool} :
    matchData tb start n c msb els = .fail .insufficientBuffer ↔ tb.length - start < entriesOf n els := by
  simp only [matchData]
  split
  · simp [*]
  · simp only [matchMap_fail]
    constructor
    · intro h; exact absurd (bitLoop_fail _ _ _ h) (by simp)
    · intro h; omega

/-- The byte loop: one byte per turn, and exactly the entries of its bytes. -/
theorem byteLoop_ok {tb : List Word} {start : Nat} {c : BitCoding} {msb els : Bool} (k : Nat) :
    ∀ o bs u, byteLoop tb start c msb els k o = .ok bs u →
      bs.length = k ∧ u = o + entriesOf (8 * k) els := by
  induction k with
  | zero => intro o bs u h; simp [byteLoop] at h; simp [h, entriesOf]
  | succ k ih =>
    intro o bs u h
    simp only [byteLoop] at h
    split at h
    · cases h
    · rename_i b u' hb
      obtain ⟨bs', hr, rfl⟩ := matchMap_ok.1 h
      obtain ⟨-, rfl, -⟩ := matchData_ok hb
      obtain ⟨hl, rfl⟩ := ih _ _ _ hr
      refine ⟨by simp [hl], ?_⟩
      cases els <;> cases k <;> simp [entriesOf] <;> omega

/-- After matchBytes' pre-check no byte lacks entries (R124). -/
theorem byteLoop_fail {tb : List Word} {start : Nat} {c : BitCoding} {msb els : Bool} {why : Miss} (k : Nat) :
    ∀ o, o + entriesOf (8 * k) els ≤ tb.length - start → byteLoop tb start c msb els k o = .fail why →
      why = .timingMismatch := by
  induction k with
  | zero => intro o _ h; simp [byteLoop] at h
  | succ k ih =>
    intro o hlen h
    simp only [byteLoop] at h
    split at h
    · rename_i w hw
      cases h
      by_contra hne
      have hi : why = .insufficientBuffer := by cases why <;> simp_all
      rw [hi, matchData_insufficient] at hw
      cases els <;> cases k <;> simp [entriesOf] at hw hlen <;> omega
    · rename_i b u' hb
      obtain ⟨-, rfl, -⟩ := matchData_ok hb
      refine ih _ ?_ (matchMap_fail.1 h)
      cases els <;> cases k <;> simp [entriesOf] at hlen ⊢ <;> omega

/-- matchBytes: nb bytes, from the entries of its bytes, which are there. -/
theorem matchBytes_ok {tb : List Word} {start nb : Nat} {c : BitCoding} {msb els : Bool} {bs : List Byte} {u : Nat}
    (h : matchBytes tb start nb c msb els = .ok bs u) :
    bs.length = nb ∧ u = entriesOf (8 * nb) els ∧ entriesOf (8 * nb) els ≤ tb.length - start := by
  simp only [matchBytes] at h
  split at h
  · cases h
  · obtain ⟨hl, hu⟩ := byteLoop_ok _ _ _ _ h
    exact ⟨hl, by simpa using hu, by omega⟩

/-- matchBytes fails for want of entries exactly when they are not there. -/
theorem matchBytes_insufficient {tb : List Word} {start nb : Nat} {c : BitCoding} {msb els : Bool} :
    matchBytes tb start nb c msb els = .fail .insufficientBuffer ↔ tb.length - start < entriesOf (8 * nb) els := by
  simp only [matchBytes]
  split
  · simp [*]
  · constructor
    · intro h; exact absurd (byteLoop_fail nb 0 (by omega) h) (by simp)
    · intro h; omega

theorem optMark_some {tb : List Word} {start d o o' : Nat} {c : BitCoding} (h : optMark tb start d c o = some o') :
    o' = o + present d ∧ (d ≠ 0 → matchMark (entry tb (start + o)) d c.t c.x = true) := by
  simp only [optMark] at h
  split at h
  · simp_all [present]
  · split at h <;> simp_all [present]

theorem optSpace_some {tb : List Word} {start d o o' : Nat} {c : BitCoding} (h : optSpace tb start d c o = some o') :
    o' = o + present d ∧ (d ≠ 0 → matchSpace (entry tb (start + o)) d c.t c.x = true) := by
  simp only [optSpace] at h
  split at h
  · simp_all [present]
  · split at h <;> simp_all [present]

/-- The footer space consumes one entry exactly when it is there and an entry is left. -/
theorem footerSpace_some {tb : List Word} {start o o' : Nat} {a : FrameArgs}
    (h : footerSpace tb start a o = some o') :
    o' = o + (if a.fs ≠ 0 ∧ o < tb.length - start then 1 else 0) ∧ (o ≤ tb.length - start → o' ≤ tb.length - start) := by
  unfold footerSpace at h
  split at h
  · rename_i hc
    rw [if_pos hc]
    have := Option.ite_none_right_eq_some.1 h
    have : o + 1 = o' := by simpa using this.2
    omega
  · rename_i hc
    rw [if_neg hc]
    injection h with h
    omega

/-- A matched section: its parts in order, and the entries it consumes (R147 item 2). -/
theorem matchFrame_ok {α : Type} {tb : List Word} {start n : Nat} {a : FrameArgs} {body : Nat → Match α} {b : α}
    {o' : Nat} (h : matchFrame tb start n a body = .ok b o') :
    ∃ u, body (start + (present a.hm + present a.hs)) = .ok b u ∧
      o' = present a.hm + present a.hs + u + present a.fm +
        (if a.fs ≠ 0 ∧ present a.hm + present a.hs + u + present a.fm < tb.length - start then 1 else 0) ∧
      frameMin a n ≤ tb.length - start ∧ (u = 2 * n → o' ≤ tb.length - start) := by
  simp only [matchFrame] at h
  split at h
  · cases h
  rename_i hmin
  split at h
  · cases h
  rename_i o ho
  obtain ⟨o1, h1, h2⟩ := Option.bind_eq_some_iff.1 ho
  obtain ⟨rfl, -⟩ := optMark_some h1
  obtain ⟨rfl, -⟩ := optSpace_some h2
  split at h
  · cases h
  rename_i b' u hb
  split at h
  · cases h
  rename_i o2 ho2
  obtain ⟨o3, h3, h4⟩ := Option.bind_eq_some_iff.1 ho2
  obtain ⟨rfl, -⟩ := optMark_some h3
  obtain ⟨rfl, hle⟩ := footerSpace_some h4
  cases h
  refine ⟨u, by simpa using hb, by simp, by omega, ?_⟩
  rintro rfl
  exact hle (by simp [frameMin] at hmin; omega)

/-- A section fails for want of entries exactly when fewer than its minimum are left, given that its body has its
entries whenever the minimum is there. -/
theorem matchFrame_insufficient {α : Type} {tb : List Word} {start n : Nat} {a : FrameArgs} {body : Nat → Match α}
    (hbody : ∀ i, 2 * n ≤ tb.length - i → body i ≠ .fail .insufficientBuffer) :
    matchFrame tb start n a body = .fail .insufficientBuffer ↔ tb.length - start < frameMin a n := by
  simp only [matchFrame]
  split
  · simp [*]
  rename_i hmin
  constructor
  · intro h
    split at h
    · cases h
    rename_i o ho
    obtain ⟨o1, h1, h2⟩ := Option.bind_eq_some_iff.1 ho
    obtain ⟨rfl, -⟩ := optMark_some h1
    obtain ⟨rfl, -⟩ := optSpace_some h2
    split at h
    · rename_i w hw
      cases h
      exact absurd hw (hbody _ (by simp [frameMin] at hmin; omega))
    · split at h <;> cases h
  · intro h; exact absurd h hmin

theorem matchGenericBits_insufficient {tb : List Word} {start n : Nat} {a : FrameArgs} :
    matchGenericBits tb start n a = .fail .insufficientBuffer ↔ tb.length - start < frameMin a n :=
  matchFrame_insufficient fun i hi h => by
    rw [matchData_insufficient] at h; simp [entriesOf] at h; omega

theorem matchGenericBytes_insufficient {tb : List Word} {start n : Nat} {a : FrameArgs} (hn : n % 8 = 0) :
    matchGenericBytes tb start n a = .fail .insufficientBuffer ↔ tb.length - start < frameMin a n :=
  matchFrame_insufficient fun i hi h => by
    rw [matchBytes_insufficient] at h; simp [entriesOf] at h; omega

/-- A matched section of bits: the value's range and the entries consumed (R147 items 1 and 2). -/
theorem matchGenericBits_ok {tb : List Word} {start n : Nat} {a : FrameArgs} {v u : Nat}
    (h : matchGenericBits tb start n a = .ok v u) :
    v < 2 ^ n ∧ u = frameMin a n + (if a.fs ≠ 0 ∧ frameMin a n < tb.length - start then 1 else 0) ∧
      u ≤ tb.length - start := by
  obtain ⟨u', hb, rfl, hmin, hle⟩ := matchFrame_ok h
  obtain ⟨hv, rfl, -⟩ := matchData_ok hb
  simp only [entriesOf, Bool.toNat_true, Nat.sub_self, Nat.sub_zero, forall_const] at hle ⊢
  refine ⟨hv, ?_, hle⟩
  rw [show present a.hm + present a.hs + 2 * n + present a.fm = frameMin a n by simp [frameMin]; omega]

/-- A matched section of bytes. -/
theorem matchGenericBytes_ok {tb : List Word} {start n : Nat} {a : FrameArgs} {bs : List Byte} {u : Nat}
    (hn : n % 8 = 0) (h : matchGenericBytes tb start n a = .ok bs u) :
    bs.length = n / 8 ∧ u = frameMin a n + (if a.fs ≠ 0 ∧ frameMin a n < tb.length - start then 1 else 0) ∧
      u ≤ tb.length - start := by
  obtain ⟨u', hb, rfl, hmin, hle⟩ := matchFrame_ok h
  obtain ⟨hl, rfl, -⟩ := matchBytes_ok hb
  have h8 : 8 * (n / 8) = n := by omega
  simp only [entriesOf, Bool.toNat_true, Nat.sub_self, Nat.sub_zero, h8, forall_const] at hle ⊢
  refine ⟨hl, ?_, hle⟩
  rw [show present a.hm + present a.hs + 2 * n + present a.fm = frameMin a n by simp [frameMin]; omega]

theorem cbtTrailing_ok {tb : List Word} {start d o v x u : Nat} {c : BitCoding}
    (h : cbtTrailing tb start d c o v = .ok x u) :
    x = v ∧ u = o + (if o < tb.length - start then 1 else 0) := by
  simp only [cbtTrailing] at h
  split at h
  · split at h <;> simp_all
  · simp_all

theorem cbtFinalBit_ok {tb : List Word} {start o v x u : Nat} {c : BitCoding}
    (h : cbtFinalBit tb start c o v = .ok x u) :
    (x = 2 * v + 1 ∨ x = 2 * v) ∧ u = o + 1 + (if o + 1 < tb.length - start then 1 else 0) := by
  simp only [cbtFinalBit] at h
  split at h
  · have := cbtTrailing_ok h; exact ⟨.inl this.1, this.2⟩
  · split at h
    · have := cbtTrailing_ok h; exact ⟨.inr this.1, this.2⟩
    · cases h

theorem cbtFinalBit_fail {tb : List Word} {start o v : Nat} {c : BitCoding} {why : Miss}
    (h : cbtFinalBit tb start c o v = .fail why) : why = .timingMismatch := by
  have ht : ∀ d x, cbtTrailing tb start d c (o + 1) x = .fail why → why = .timingMismatch := by
    intro d x h
    simp only [cbtTrailing] at h
    split at h
    · split at h <;> simp_all
    · simp_all
  simp only [cbtFinalBit] at h
  split at h
  · exact ht _ _ h
  · split at h
    · exact ht _ _ h
    · simpa using h.symm

theorem cbtOrdinary_ok {tb : List Word} {start n v u : Nat} {c : BitCoding} (hn : 1 ≤ n)
    (h : cbtOrdinary tb start n c = .ok v u) : v < 2 ^ (n - 1) ∧ u = 2 * (n - 1) := by
  simp only [cbtOrdinary] at h
  split at h
  · obtain ⟨hv, rfl, -⟩ := matchData_ok h
    exact ⟨hv, by simp [entriesOf]⟩
  · obtain rfl : n = 1 := by omega
    injection h with h1 h2
    omega

/-- A matched constant-bit-time frame without a footer: RES_USED is the minimum, or one more (R162). -/
theorem cbtInferred_ok {tb : List Word} {start n : Nat} {a : FrameArgs} {v u : Nat} (hn : 1 ≤ n)
    (h : cbtInferred tb start n a = .ok v u) :
    v < 2 ^ n ∧ u = cbtMin a n + (if cbtMin a n < tb.length - start then 1 else 0) ∧ u ≤ tb.length - start := by
  simp only [cbtInferred] at h
  split at h
  · cases h
  rename_i hmin
  split at h
  · cases h
  rename_i o ho
  obtain ⟨o1, h1, h2⟩ := Option.bind_eq_some_iff.1 ho
  obtain ⟨rfl, -⟩ := optMark_some h1
  obtain ⟨rfl, -⟩ := optSpace_some h2
  split at h
  · cases h
  rename_i v' u' hv'
  obtain ⟨hlt, rfl⟩ := cbtOrdinary_ok hn hv'
  obtain ⟨x, hx, rfl⟩ := matchMap_ok.1 h
  obtain ⟨hx2, rfl⟩ := cbtFinalBit_ok hx
  have hp : (2 : Nat) ^ n = 2 * 2 ^ (n - 1) := by
    rw [← Nat.pow_succ', show (n - 1).succ = n by omega]
  have hxlt : x < 2 ^ n := by rcases hx2 with rfl | rfl <;> omega
  have he : 0 + present a.hm + present a.hs + 2 * (n - 1) + 1 = cbtMin a n := by simp [cbtMin]
  refine ⟨orderBits_lt _ _ _ hxlt, by rw [he], ?_⟩
  rw [he]
  split <;> omega

/-- matchCBT fails for want of entries exactly when fewer than its minimum are left (R161). -/
theorem cbtInferred_insufficient {tb : List Word} {start n : Nat} {a : FrameArgs} :
    cbtInferred tb start n a = .fail .insufficientBuffer ↔ tb.length - start < cbtMin a n := by
  simp only [cbtInferred]
  split
  · simp [*]
  rename_i hmin
  constructor
  · intro h
    split at h
    · cases h
    rename_i o ho
    obtain ⟨o1, h1, h2⟩ := Option.bind_eq_some_iff.1 ho
    obtain ⟨rfl, -⟩ := optMark_some h1
    obtain ⟨rfl, -⟩ := optSpace_some h2
    split at h
    · rename_i w hw
      cases h
      simp only [cbtOrdinary] at hw
      split at hw
      · rw [matchData_insufficient] at hw
        simp [entriesOf] at hw
        simp [cbtMin] at hmin
        omega
      · cases hw
    · have := cbtFinalBit_fail (matchMap_fail.1 h)
      cases this
  · intro h; exact absurd h hmin

/-- A matched constant-bit-time frame, with or without a footer. -/
theorem matchCbt_ok {tb : List Word} {start n : Nat} {a : FrameArgs} {v u : Nat} (hn : 1 ≤ n)
    (h : matchCbt tb start n a = .ok v u) : v < 2 ^ n ∧ 1 ≤ u ∧ u ≤ tb.length - start := by
  simp only [matchCbt] at h
  split at h
  · obtain ⟨hv, rfl, hle⟩ := matchGenericBits_ok h
    refine ⟨hv, ?_, hle⟩
    simp [frameMin]; omega
  · obtain ⟨hv, rfl, hle⟩ := cbtInferred_ok hn h
    refine ⟨hv, ?_, hle⟩
    simp [cbtMin]; omega

end Sys2Proof.Machine
end

