-- ==== Sys2Proof/Laws/Outcome.lean ====
section
/-! SUPPORT. What the ways a command ends can do to the state: which parts they change, and that they change no
other. -/

namespace Sys2Proof.Machine

/-- Codes that commands of the table write (R230): all but the reserved ones. -/
theorem statusCode_le (c : Status) : (statusCode c).toNat ≤ 8 := by cases c <;> decide

/-- `t` differs from `s` in STATUS and in the result registers at most. -/
def OnlyResults (s t : State) : Prop := ∃ (c : Status) (r : ResultRegs), t = setStatus (setRes s r) c

/-- A pulse command changes STATUS and RES_MATCH at most (R105, R107, R109). -/
theorem pulseCommand_only (b : Bool) (s : State) :
    ∃ (c : Status) (m : Bool), pulseCommand b s = setStatus (setRes s (withMatched s.res m)) c := by
  unfold pulseCommand
  split
  · split
    · exact ⟨.ok, true, rfl⟩
    · exact ⟨.timingMismatch, false, rfl⟩
  · exact ⟨.illegalOperand, false, rfl⟩

/-- An integer matcher changes STATUS, RES_MATCH, RES_USED and RES at most (R122, R144, R162). -/
theorem finishInt_only (m : Match Nat) (s : State) :
    ∃ (c : Status) (b : Bool) (u v : Nat),
      finishInt m s = setStatus (setRes s (withResult (withUsed (withMatched s.res b) u) v)) c := by
  cases m with
  | ok v u => exact ⟨.ok, true, u, v, rfl⟩
  | fail w => exact ⟨missStatus w, false, 0, 0, rfl⟩

/-- The three ways a byte matcher ends (R125, R146). -/
theorem finishBytes_cases (off len : Nat) (m : Match (List Byte)) (s : State) :
    (m = .fail .insufficientBuffer ∧ finishBytes off len m s = raiseBytes .insufficientBuffer s) ∨
    (m = .fail .timingMismatch ∧ finishBytes off len m s = raiseBytes .timingMismatch (anyBytes s off len)) ∨
    ∃ bs u, m = .ok bs u ∧
      finishBytes off len m s = finishOk (setRes (writeBytes s off bs) (withUsed (withMatched s.res true) u)) := by
  cases m with
  | ok bs u => exact .inr (.inr ⟨bs, u, rfl, rfl⟩)
  | fail w =>
    cases w
    · exact .inl ⟨rfl, rfl⟩
    · exact .inr (.inl ⟨rfl, rfl⟩)

/-- The two ways an encoder's output ends (R184). -/
theorem writeOutput_cases (seq : List Word) (s : State) :
    (s.build.obCap < seq.length ∧ writeOutput seq s = raiseEncode .encodeOverflow s) ∨
    (seq.length ≤ s.build.obCap ∧ writeOutput seq s =
      finishOk (nextFree (setRes (setOb s (memPutAll unlistedBuffer s.ob 0 seq))
        (withObLen s.res seq.length)))) := by
  unfold writeOutput
  split
  · exact .inl ⟨‹_›, rfl⟩
  · exact .inr ⟨by omega, rfl⟩

/-- An encoder's sequence either ends as in R184 or fails with OB_LEN 0 and OB as it was. -/
def EncodeEnds (s t : State) : Prop :=
  (∃ c, t = raiseEncode c s) ∨
  ∃ seq : List Word, seq.length ≤ s.build.obCap ∧ t =
    finishOk (nextFree (setRes (setOb s (memPutAll unlistedBuffer s.ob 0 seq)) (withObLen s.res seq.length)))

theorem writeOutput_ends (seq : List Word) (s : State) : EncodeEnds s (writeOutput seq s) := by
  rcases writeOutput_cases seq s with ⟨-, h⟩ | ⟨h, h'⟩
  · exact .inl ⟨_, h⟩
  · exact .inr ⟨seq, h, h'⟩

theorem encodeProto_ends (p : Payload) (s : State) : EncodeEnds s (encodeProto p s) := by
  unfold encodeProto
  split
  · exact .inl ⟨_, rfl⟩
  · split
    · exact .inl ⟨_, rfl⟩
    · exact writeOutput_ends _ _

/-- A length within a capacity fits OB_LEN's 16 bits. -/
theorem obLen_toNat (b : Build) (r : ResultRegs) (n : Nat) (h : n ≤ b.obCap) : (withObLen r n).obLen.toNat = n := by
  have := b.obCap_range
  simp [Nat.mod_eq_of_lt (show n < 65536 by omega)]

/-- What the host reads of OB after an encoder's success: the sequence (R65). -/
theorem readOb_writeOutput (seq : List Word) (s : State) (h : seq.length ≤ s.build.obCap) (i : Nat)
    (hi : i < seq.length) : readOb (writeOutput seq s) i = seq[i] := by
  rcases writeOutput_cases seq s with ⟨h', -⟩ | ⟨-, e⟩
  · omega
  · have hl := obLen_toNat s.build s.res _ h
    rw [e]
    simp only [readOb, finishOk_res, nextFree_res, setRes_res, hl, if_pos hi]
    have := memGet_memPutAll_inside seq s.ob 0 i hi
    simp only [Nat.zero_add] at this
    simp [unlistedBuffer, this]

/-! ### The dispatcher -/

/-- A dispatch's first success (R204): the offset, the entry, and that nothing before them accepts. -/
theorem dispatch_some {b : Build} {tb : List Word} {K : Nat} {strict : Bool} {id : Half} {rec : Record}
    (h : dispatch b tb K strict = some (id, rec)) :
    ∃ off ≤ K, ∃ p ∈ b.table.entries, p.id = id ∧ entryDec b p tb off strict = some rec ∧
      ∀ off' < off, ∀ q ∈ b.table.entries, entryDec b q tb off' strict = none := by
  simp only [dispatch] at h
  obtain ⟨l1, off, l2, hl, hoff, hbefore⟩ := List.findSome?_eq_some_iff.1 h
  have hmem : off ∈ List.range (K + 1) := by rw [hl]; simp
  simp only [firstAt] at hoff
  obtain ⟨q1, p, q2, hq, hp, hfirst⟩ := List.findSome?_eq_some_iff.1 hoff
  obtain ⟨rec', hrec, he⟩ := Option.map_eq_some_iff.1 hp
  cases he
  refine ⟨off, by have := List.mem_range.1 hmem; omega, p, by rw [hq]; simp, rfl, hrec, ?_⟩
  intro off' hlt q hqm
  have hin : off' ∈ l1 := by
    have hpw : (List.range (K + 1)).Pairwise (· < ·) := List.pairwise_lt_range
    have hm' : off' ∈ List.range (K + 1) := by
      have := List.mem_range.1 hmem; exact List.mem_range.2 (by omega)
    rw [hl, List.pairwise_append, List.pairwise_cons] at hpw
    rw [hl] at hm'
    rcases List.mem_append.1 hm' with h | h
    · exact h
    · rcases List.mem_cons.1 h with rfl | h
      · omega
      · have := hpw.2.1.1 off' h; omega
  have := hbefore off' hin
  simp only [firstAt, List.findSome?_eq_none_iff, Option.map_eq_none_iff] at this
  exact this q hqm

/-- A dispatch fails exactly when no entry accepts at any offset tried (R204). -/
theorem dispatch_none {b : Build} {tb : List Word} {K : Nat} {strict : Bool} :
    dispatch b tb K strict = none ↔
      ∀ off ≤ K, ∀ p ∈ b.table.entries, entryDec b p tb off strict = none := by
  simp only [dispatch, firstAt, List.findSome?_eq_none_iff, List.mem_range, Option.map_eq_none_iff]
  constructor
  · intro h off hoff p hp; exact h off (by omega) p hp
  · intro h off hoff p hp; exact h off (by omega) p hp

/-- Every record an entry gives keeps R200's bound. -/
theorem entryDec_legal {b : Build} {p : ProtoEntry} {tb : List Word} {off : Nat} {strict : Bool} {rec : Record}
    (h : entryDec b p tb off strict = some rec) : recordLegal b rec = true := by
  cases p with
  | desc i d =>
    simp only [entryDec, descDec] at h
    split at h
    · cases h; rfl
    · cases h
  | bytesDesc i d =>
    simp only [entryDec] at h
    exact (Option.filter_eq_some_iff.1 h).2
  | external i k =>
    simp only [entryDec] at h
    exact (Option.filter_eq_some_iff.1 h).2

/-- The entries of an admissible table are legal (R200). -/
theorem tableLegal_mem {es : List ProtoEntry} (h : tableLegal es = true) : ∀ p ∈ es, p.legal = true := by
  induction es with
  | nil => simp
  | cons e es ih =>
    simp only [tableLegal, Bool.and_eq_true] at h
    intro p hp
    rcases List.mem_cons.1 hp with rfl | hp
    · exact h.1.1
    · exact ih h.2 p hp

/-- No two entries of an admissible table share an id (R200). -/
theorem tableLegal_unique {es : List ProtoEntry} (h : tableLegal es = true) :
    ∀ p ∈ es, ∀ q ∈ es, p.id = q.id → p = q := by
  induction es with
  | nil => simp
  | cons e es ih =>
    simp only [tableLegal, Bool.and_eq_true, List.all_eq_true, bne_iff_ne, ne_eq] at h
    intro p hp q hq hid
    rcases List.mem_cons.1 hp with hp' | hp' <;> rcases List.mem_cons.1 hq with hq' | hq'
    · rw [hp', hq']
    · subst hp'; exact absurd hid.symm (h.1.2 q hq')
    · subst hq'; exact absurd hid (h.1.2 p hp')
    · exact ih h.2 p hp' q hq' hid

/-- UNKNOWN is no entry's id (R200, R208). -/
theorem entry_id_ne_unknown {b : Build} {p : ProtoEntry} (h : p ∈ b.table.entries) : p.id ≠ 0xFFFF#16 := by
  have := tableLegal_mem b.table.legal p h
  cases p <;> simp_all [ProtoEntry.legal, ProtoEntry.id]

/-- `lookup` finds the entry with the id, the only one (R208). -/
theorem lookup_eq_some {b : Build} {p : ProtoEntry} {id : Half} :
    lookup b id = some p ↔ p ∈ b.table.entries ∧ p.id = id := by
  constructor
  · intro h
    exact ⟨List.mem_of_find?_eq_some h, by simpa using List.find?_some h⟩
  · rintro ⟨hm, rfl⟩
    cases hl : lookup b p.id with
    | none =>
      simp only [lookup, List.find?_eq_none, beq_iff_eq] at hl
      exact absurd rfl (hl p hm)
    | some q =>
      have hq : q ∈ b.table.entries ∧ q.id = p.id :=
        ⟨List.mem_of_find?_eq_some hl, by simpa using List.find?_some hl⟩
      rw [tableLegal_unique b.table.legal q hq.1 p hm hq.2]

theorem lookup_eq_none {b : Build} {id : Half} : lookup b id = none ↔ ∀ p ∈ b.table.entries, p.id ≠ id := by
  simp [lookup, List.find?_eq_none]

/-- The integer operand in its two forms (R84). -/
theorem valBits_toNat (r : OperandRegs) : (valBits r).toNat = valOperand r := by
  have h := r.valLo.isLt
  rw [valBits, BitVec.toNat_append, ← Nat.shiftLeft_add_eq_or_of_lt h, Nat.shiftLeft_eq]
  rfl

end Sys2Proof.Machine
end

