-- ==== Sys2Proof/Laws/Bus.lean ====
section
/-! SUPPORT. The address map, one host operation and the step: everything they can do. -/

namespace Sys2Proof.Machine

/-- R23: register numbers name registers. -/
@[simp] theorem regOfNumber_regno (r : Reg) : regOfNumber (regno r) = some r := by cases r <;> decide

theorem regno_lt (r : Reg) : regno r < 0x40 := by cases r <;> decide

/-- R62: register n stands at offset 4·n. -/
@[simp] theorem busTarget_reg (b : Build) (r : Reg) : busTarget b (4 * regno r) = .reg r := by
  have := regno_lt r
  rw [busTarget, if_pos (by omega), show 4 * regno r / 4 = regno r by omega, regOfNumber_regno]

@[simp] theorem busTarget_cmd (b : Build) : busTarget b cmdOffset = .reg .cmd := busTarget_reg b .cmd

/-- R62: TB entry i stands at 0x10000 + 4·i, below the capacity. -/
theorem busTarget_tb (b : Build) (i : Nat) (h : i < b.tbCap) : busTarget b (0x10000 + 4 * i) = .tb i := by
  have := b.tbCap_range
  rw [busTarget, if_neg (by omega), if_pos (by omega), show (0x10000 + 4 * i - 0x10000) / 4 = i by omega,
    windowTarget, if_pos h]

/-- R62: OB entry i stands at 0x20000 + 4·i, below the capacity. -/
theorem busTarget_ob (b : Build) (i : Nat) (h : i < b.obCap) : busTarget b (0x20000 + 4 * i) = .ob i := by
  have := b.obCap_range
  rw [busTarget, if_neg (by omega), if_neg (by omega), if_pos (by omega),
    show (0x20000 + 4 * i - 0x20000) / 4 = i by omega, windowTarget, if_pos h]

/-- R62: BA byte j stands at 0x30000 + 4·j, below the capacity. -/
theorem busTarget_ba (b : Build) (j : Nat) (h : j < b.baCap) : busTarget b (0x30000 + 4 * j) = .ba j := by
  have := b.baCap_range
  rw [busTarget, if_neg (by omega), if_neg (by omega), if_neg (by omega), if_pos (by omega),
    show (0x30000 + 4 * j - 0x30000) / 4 = j by omega, windowTarget, if_pos h]

/-- R62: DRS byte j stands at 0x40000 + 4·j, below the capacity. -/
theorem busTarget_drs (b : Build) (j : Nat) (h : j < b.baCap) : busTarget b (0x40000 + 4 * j) = .drs j := by
  have := b.baCap_range
  rw [busTarget, if_neg (by omega), if_neg (by omega), if_neg (by omega), if_neg (by omega), if_pos (by omega),
    show (0x40000 + 4 * j - 0x40000) / 4 = j by omega, windowTarget, if_pos h]

/-- A target's index lies below its window's capacity (R62). -/
theorem busTarget_bound (b : Build) (off : Nat) :
    match busTarget b off with
    | .tb i => i < b.tbCap
    | .ob i => i < b.obCap
    | .ba j => j < b.baCap
    | .drs j => j < b.baCap
    | _ => True := by
  unfold busTarget windowTarget
  by_cases h0 : off < 0x100
  · rw [if_pos h0]; cases regOfNumber (off / 4) <;> trivial
  rw [if_neg h0]
  by_cases h1 : 0x10000 ≤ off ∧ off < 0x20000
  · rw [if_pos h1]
    by_cases h : (off - 0x10000) / 4 < b.tbCap
    · rw [if_pos h]; exact h
    · rw [if_neg h]; trivial
  rw [if_neg h1]
  by_cases h2 : 0x20000 ≤ off ∧ off < 0x30000
  · rw [if_pos h2]
    by_cases h : (off - 0x20000) / 4 < b.obCap
    · rw [if_pos h]; exact h
    · rw [if_neg h]; trivial
  rw [if_neg h2]
  by_cases h3 : 0x30000 ≤ off ∧ off < 0x34000
  · rw [if_pos h3]
    by_cases h : (off - 0x30000) / 4 < b.baCap
    · rw [if_pos h]; exact h
    · rw [if_neg h]; trivial
  rw [if_neg h3]
  by_cases h4 : 0x40000 ≤ off ∧ off < 0x44000
  · rw [if_pos h4]
    by_cases h : (off - 0x40000) / 4 < b.baCap
    · rw [if_pos h]; exact h
    · rw [if_neg h]; trivial
  rw [if_neg h4]
  trivial

@[simp] theorem accessLegal_word32 (n : Nat) : accessLegal (word32 (4 * n)) = true := by
  simp [accessLegal, word32]

@[simp] theorem accessLegal_cmd : accessLegal (word32 cmdOffset) = true := by decide

/-- A host read: the host gets the word, nothing else changes (R67). -/
theorem busAccess_read (a : Access) (s : State) (h : accessLegal a = true) :
    busAccess (.read a) s = .done (pushRead s (busRead (busTarget s.build a.offset) s)) := by
  simp [busAccess, h]

/-- A host write to anything but CMD (R67). -/
theorem busAccess_write (a : Access) (w : Word) (s : State) (h : accessLegal a = true)
    (hc : busTarget s.build a.offset ≠ .reg .cmd) :
    busAccess (.write a w) s = .done (busWrite (busTarget s.build a.offset) w s) := by
  simp only [busAccess, h, if_true]

/-- A host write to CMD (R81). -/
theorem busAccess_cmd (a : Access) (w : Word) (s : State) (h : accessLegal a = true)
    (hc : busTarget s.build a.offset = .reg .cmd) :
    busAccess (.write a w) s = .command w (setCmd s w) := by
  simp only [busAccess, h, if_true, hc]

theorem step_idle (s : State) (h : s.script = []) : step s = .next s := by simp [step, h]

/-- A step whose next operation is a legal read: the word at its offset goes to the host, nothing else changes (R67). -/
theorem step_read (s : State) (a : Access) (rest : List HostOp) (h : s.script = .read a :: rest)
    (ha : accessLegal a = true) :
    step s = .next (pushRead (setScript s rest) (busRead (busTarget s.build a.offset) (setScript s rest))) := by
  rw [step, h]
  dsimp only
  rw [busAccess_read _ _ ha, setScript_build]

/-- A step whose next operation is a legal write to anything but CMD (R67). -/
theorem step_write (s : State) (a : Access) (w : Word) (rest : List HostOp) (h : s.script = .write a w :: rest)
    (ha : accessLegal a = true) (hc : busTarget s.build a.offset ≠ .reg .cmd) :
    step s = .next (busWrite (busTarget s.build a.offset) w (setScript s rest)) := by
  rw [step, h]
  dsimp only
  rw [busAccess_write _ _ _ ha (by rwa [setScript_build]), setScript_build]

/-- A step whose next operation is a write of a command's word to CMD runs the command. -/
theorem step_command (s : State) (a : Access) (w : Word) (rest : List HostOp)
    (h : s.script = .write a w :: rest) (ha : accessLegal a = true)
    (hc : busTarget s.build a.offset = .reg .cmd) :
    step s = runWord w (setCmd (setScript s rest) w) := by
  rw [step, h]
  simp only
  rw [busAccess_cmd a w _ ha (by simpa using hc)]

/-- Everything a step that answers a next state can be. -/
theorem step_cases {s t : State} (h : step s = .next t) :
    (s.script = [] ∧ t = s) ∨
    (∃ rest, s.script = .platformReset :: rest ∧ t = platformReset (setScript s rest)) ∨
    (∃ a rest, s.script = .read a :: rest ∧ accessLegal a = true ∧
      t = pushRead (setScript s rest) (busRead (busTarget s.build a.offset) (setScript s rest))) ∨
    (∃ a w rest, s.script = .write a w :: rest ∧ accessLegal a = true ∧
      busTarget s.build a.offset ≠ .reg .cmd ∧
      t = busWrite (busTarget s.build a.offset) w (setScript s rest)) ∨
    (∃ a w rest, s.script = .write a w :: rest ∧ accessLegal a = true ∧
      busTarget s.build a.offset = .reg .cmd ∧ runWord w (setCmd (setScript s rest) w) = .next t) := by
  rw [step] at h
  split at h
  · rename_i hs; cases h; exact .inl ⟨hs, rfl⟩
  · rename_i op rest hs
    cases op with
    | platformReset => simp only [busAccess] at h; cases h; exact .inr (.inl ⟨rest, hs, rfl⟩)
    | read a =>
      by_cases ha : accessLegal a = true
      · rw [busAccess_read a _ ha] at h
        cases h
        exact .inr (.inr (.inl ⟨a, rest, hs, ha, rfl⟩))
      · simp [busAccess, ha] at h
    | write a w =>
      by_cases ha : accessLegal a = true
      · by_cases hc : busTarget s.build a.offset = .reg .cmd
        · rw [busAccess_cmd a w _ ha (by simpa using hc)] at h
          exact .inr (.inr (.inr (.inr ⟨a, w, rest, hs, ha, hc, h⟩)))
        · rw [busAccess_write a w _ ha (by simpa using hc)] at h
          cases h
          exact .inr (.inr (.inr (.inl ⟨a, w, rest, hs, ha, hc, rfl⟩)))
      · simp [busAccess, ha] at h

end Sys2Proof.Machine
end

