-- ==== Sys2Proof/Laws/Decode.lean ====
section
/-! SUPPORT. The decoder and the encoder. -/

namespace Sys2Proof

/-- Decoding an encoded command gives it back. -/
@[simp] theorem decode_encode (i : Instr) : decode (encode i) = .ok i := by cases i <;> decide

/-- No two rows of the opcode map have one pattern, and every row looks at all 32 bits. -/
theorem opRows_disjoint : opRows.Pairwise (fun r r' => r.pattern ≠ r'.pattern) ∧
    ∀ r ∈ opRows, r.mask = 0xFFFFFFFF#32 := by decide

/-- A row's pattern is the encoding of its command. -/
theorem opRows_encode : ∀ r ∈ opRows, r.pattern = encode r.instr := by decide

/-- Every word the decoder takes is the encoding of the command it gives. -/
theorem decode_ok_encode {w : Word} {i : Instr} (h : decode w = .ok i) : w = encode i := by
  unfold decode at h
  split at h
  · cases h
  · split at h
    · rename_i r hr
      cases h
      have hm := List.mem_of_find?_eq_some hr
      have hp := List.find?_some hr
      simp only [beq_iff_eq] at hp
      rw [opRows_disjoint.2 r hm] at hp
      rw [← opRows_encode r hm, ← hp, show 0xFFFFFFFF#32 = BitVec.allOnes 32 by decide, BitVec.and_allOnes]
    · cases h

/-- The table word of a 32-bit row decodes as the word does. -/
theorem decodeTableWord_32 (w : Nat) (h : w < 2 ^ 32) :
    decodeTableWord 32 w = match decode (BitVec.ofNat 32 w) with
      | .ok i => some i
      | .error _ => none := by
  unfold decodeTableWord
  dsimp only
  rw [Nat.mod_eq_of_lt h, if_pos h]
  all_goals cases decode (BitVec.ofNat 32 w) <;> rfl

end Sys2Proof
end

