-- ==== Sys2Proof/Laws/PerInstr.lean ====
section
/-! SUPPORT. Per instruction: it is well formed, its word has zero reserved bits (R80), and the word decodes to it. -/

namespace Sys2Proof.Laws.Encoding

/-- What holds of every command as syntax (R80 to R82). -/
def Statement (i : Instr) : Prop :=
  i.wf = true ∧ (encode i).extractLsb' 8 24 = 0#24 ∧ (encode i).extractLsb' 0 8 = opcode i ∧
    decode (encode i) = .ok i

theorem window : Statement .window := ⟨by decide, by decide, by decide, by decide⟩
theorem matchMark : Statement .matchMark := ⟨by decide, by decide, by decide, by decide⟩
theorem matchSpace : Statement .matchSpace := ⟨by decide, by decide, by decide, by decide⟩
theorem matchAtLeast : Statement .matchAtLeast := ⟨by decide, by decide, by decide, by decide⟩
theorem matchData : Statement .matchData := ⟨by decide, by decide, by decide, by decide⟩
theorem matchBytes : Statement .matchBytes := ⟨by decide, by decide, by decide, by decide⟩
theorem matchGenericBits : Statement .matchGenericBits := ⟨by decide, by decide, by decide, by decide⟩
theorem matchGenericBytes : Statement .matchGenericBytes := ⟨by decide, by decide, by decide, by decide⟩
theorem matchCbt : Statement .matchCbt := ⟨by decide, by decide, by decide, by decide⟩
theorem encodeGenericBits : Statement .encodeGenericBits := ⟨by decide, by decide, by decide, by decide⟩
theorem encodeGenericBytes : Statement .encodeGenericBytes := ⟨by decide, by decide, by decide, by decide⟩
theorem encodeCbt : Statement .encodeCbt := ⟨by decide, by decide, by decide, by decide⟩
theorem decode : Statement .decode := ⟨by decide, by decide, by decide, by decide⟩
theorem encodeProtoInt : Statement .encodeProtoInt := ⟨by decide, by decide, by decide, by decide⟩
theorem encodeProtoBytes : Statement .encodeProtoBytes := ⟨by decide, by decide, by decide, by decide⟩
theorem resetResult : Statement .resetResult := ⟨by decide, by decide, by decide, by decide⟩

end Sys2Proof.Laws.Encoding
end

