-- ==== Sys2Proof/Laws/Sections.lean ====
section
/-! SUPPORT. The core matchers on the valid part of TB, in the terms of Safety.lean: one pair, the value of the decoded
bits, one section, one constant-bit-time frame. -/

namespace Sys2Proof.Machine

/-- One pair on the valid part of TB (R120). -/
theorem matchPair_tbEntries (s : State) (o : Nat) (m p : Word) (sp : Bool) (h : o + 1 + sp.toNat ≤ remaining s) :
    matchPair (tbEntries s) (s.regs.cursor.toNat + o) m.toNat p.toNat (codingOf s.regs) sp = pairFits s o m p sp := by
  unfold remaining at h
  simp only [matchPair, pairFits, atCursor, codingOf]
  rw [entry_tbEntries _ _ (by omega)]
  cases sp
  · simp
  · simp at h
    rw [entry_tbEntries _ _ (by omega)]
    rfl

/-- The bits in wire order, ordered by CFG.MSB_FIRST, are the value of R123 item 3. -/
theorem orderBits_wireValue (msb : Bool) (n : Nat) (bits : Nat → Bool) :
    orderBits msb n (∑ j ∈ Finset.range n, if bits j then 2 ^ (n - 1 - j) else 0) = wireValue msb n bits := by
  cases msb
  · simp only [orderBits, wireValue, Bool.false_eq_true, if_false]
    induction n generalizing bits with
    | zero => simp [revBits]
    | succ n ih =>
      have h1 : (∑ j ∈ Finset.range (n + 1), if bits j then 2 ^ (n + 1 - 1 - j) else 0) =
          2 * (∑ j ∈ Finset.range n, if bits j then 2 ^ (n - 1 - j) else 0) + if bits n then 1 else 0 := by
        rw [Finset.sum_range_succ, Finset.mul_sum]
        congr 1
        · refine Finset.sum_congr rfl fun j hj => ?_
          have := Finset.mem_range.1 hj
          split
          · rw [show n + 1 - 1 - j = (n - 1 - j) + 1 by omega, pow_succ, mul_comm]
          · rfl
        · simp
      rw [revBits, h1, Finset.sum_range_succ, ← ih bits,
        show (2 * (∑ j ∈ Finset.range n, if bits j then 2 ^ (n - 1 - j) else 0) +
          if bits n = true then 1 else 0) / 2 = ∑ j ∈ Finset.range n, if bits j then 2 ^ (n - 1 - j) else 0 by
          split <;> omega]
      split <;> simp
      omega
  · simp [orderBits, wireValue]

theorem word_toNat_ne_zero {w : Word} : w.toNat ≠ 0 ↔ w ≠ 0 := by
  constructor
  · rintro h rfl; exact h rfl
  · intro h e; exact h (BitVec.eq_of_toNat_eq e)

/-- An optional mark on the valid part of TB: it gives the next offset exactly when it is absent or matches. -/
theorem optMark_tbEntries (s : State) (d : Word) (o o' : Nat) (c : BitCoding) (ht : c.t = s.regs.tol.toNat)
    (hx : c.x = s.regs.excess.toNat) (h : o + present d.toNat ≤ remaining s) :
    optMark (tbEntries s) s.regs.cursor.toNat d.toNat c o = some o' ↔
      o' = o + present d.toNat ∧
        (d ≠ 0 → matchMark (atCursor s o) d.toNat s.regs.tol.toNat s.regs.excess.toNat = true) := by
  unfold remaining at h
  by_cases hd : d.toNat = 0
  · have h0 : ¬d ≠ 0 := fun e => word_toNat_ne_zero.2 e hd
    simp only [optMark, present, hd, if_true, Option.some.injEq, h0, false_imp_iff, and_true, Nat.add_zero]
    exact eq_comm
  · simp only [present, hd, if_false] at h
    simp only [optMark, present, hd, if_false, ne_eq, word_toNat_ne_zero.1 hd, not_false_eq_true, forall_const, ht, hx,
      entry_tbEntries _ _ (show s.regs.cursor.toNat + o < s.regs.tbLen.toNat by omega), atCursor]
    split
    · simp only [Option.some.injEq] at *
      simp_all only [and_true]
      exact eq_comm
    · simp_all

/-- An optional space on the valid part of TB. -/
theorem optSpace_tbEntries (s : State) (d : Word) (o o' : Nat) (c : BitCoding) (ht : c.t = s.regs.tol.toNat)
    (hx : c.x = s.regs.excess.toNat) (h : o + present d.toNat ≤ remaining s) :
    optSpace (tbEntries s) s.regs.cursor.toNat d.toNat c o = some o' ↔
      o' = o + present d.toNat ∧
        (d ≠ 0 → matchSpace (atCursor s o) d.toNat s.regs.tol.toNat s.regs.excess.toNat = true) := by
  unfold remaining at h
  by_cases hd : d.toNat = 0
  · have h0 : ¬d ≠ 0 := fun e => word_toNat_ne_zero.2 e hd
    simp only [optSpace, present, hd, if_true, Option.some.injEq, h0, false_imp_iff, and_true, Nat.add_zero]
    exact eq_comm
  · simp only [present, hd, if_false] at h
    simp only [optSpace, present, hd, if_false, ne_eq, word_toNat_ne_zero.1 hd, not_false_eq_true, forall_const, ht, hx,
      entry_tbEntries _ _ (show s.regs.cursor.toNat + o < s.regs.tbLen.toNat by omega), atCursor]
    split
    · simp only [Option.some.injEq] at *
      simp_all only [and_true]
      exact eq_comm
    · simp_all

/-- The header on the valid part of TB. -/
theorem header_tbEntries (s : State) (o : Nat) (c : BitCoding) (ht : c.t = s.regs.tol.toNat)
    (hx : c.x = s.regs.excess.toNat) (h : headerEntries s.regs ≤ remaining s) :
    (optMark (tbEntries s) s.regs.cursor.toNat s.regs.hdrMark.toNat c 0).bind
        (optSpace (tbEntries s) s.regs.cursor.toNat s.regs.hdrSpace.toNat c) = some o ↔
      o = headerEntries s.regs ∧ headerFits s := by
  unfold headerEntries at h
  rw [Option.bind_eq_some_iff]
  constructor
  · rintro ⟨o1, h1, h2⟩
    rw [optMark_tbEntries s _ _ _ _ ht hx (by omega)] at h1
    obtain ⟨rfl, h1⟩ := h1
    rw [optSpace_tbEntries s _ _ _ _ ht hx (by omega)] at h2
    obtain ⟨rfl, h2⟩ := h2
    simp only [Nat.zero_add] at *
    exact ⟨rfl, h1, h2⟩
  · rintro ⟨rfl, h1, h2⟩
    refine ⟨present s.regs.hdrMark.toNat, ?_, ?_⟩
    · rw [optMark_tbEntries s _ _ _ _ ht hx (by omega)]; simpa using h1
    · rw [optSpace_tbEntries s _ _ _ _ ht hx (by omega)]; exact ⟨rfl, h2⟩

/-- The footer on the valid part of TB, after `o` entries of header and body. -/
theorem footer_tbEntries (s : State) (o o' : Nat) (a : FrameArgs) (hfm : a.fm = s.regs.ftrMark.toNat)
    (hfs : a.fs = s.regs.ftrSpace.toNat) (hat : a.atleast = cfgAtLeast s.regs)
    (hax : a.ax = s.build.atLeastAppliesExcess) (ht : a.coding.t = s.regs.tol.toNat)
    (hx : a.coding.x = s.regs.excess.toNat) (h : o + present s.regs.ftrMark.toNat ≤ remaining s) :
    (optMark (tbEntries s) s.regs.cursor.toNat a.fm a.coding o).bind
        (footerSpace (tbEntries s) s.regs.cursor.toNat a) = some o' ↔
      o' = o + present s.regs.ftrMark.toNat +
          (if s.regs.ftrSpace ≠ 0 ∧ o + present s.regs.ftrMark.toNat < remaining s then 1 else 0) ∧
        footerFits s o := by
  have key : ∀ q, q = o + present s.regs.ftrMark.toNat →
      (footerSpace (tbEntries s) s.regs.cursor.toNat a q = some o' ↔
        o' = q + (if s.regs.ftrSpace ≠ 0 ∧ q < remaining s then 1 else 0) ∧
          (s.regs.ftrSpace ≠ 0 → q < remaining s →
            (if cfgAtLeast s.regs then
              matchAtLeast s.build.atLeastAppliesExcess (atCursor s q) s.regs.ftrSpace.toNat s.regs.tol.toNat
                s.regs.excess.toNat
            else
              matchSpace (atCursor s q) s.regs.ftrSpace.toNat s.regs.tol.toNat s.regs.excess.toNat) = true)) := by
    intro q hq
    by_cases hc : s.regs.ftrSpace ≠ 0 ∧ q < remaining s
    · have hlt : s.regs.cursor.toNat + q < s.regs.tbLen.toNat := by have := hc.2; unfold remaining at this; omega
      have hc' : s.regs.ftrSpace.toNat ≠ 0 ∧ q < s.regs.tbLen.toNat - s.regs.cursor.toNat :=
        ⟨word_toNat_ne_zero.2 hc.1, hc.2⟩
      simp only [footerSpace, hfs, hat, hax, ht, hx, tbEntries_length, hc', and_self, if_true, hc, forall_const, ne_eq,
        not_false_eq_true, entry_tbEntries _ _ hlt, atCursor, Option.ite_none_right_eq_some, Option.some.injEq]
      tauto
    · have hc' : ¬(s.regs.ftrSpace.toNat ≠ 0 ∧ q < s.regs.tbLen.toNat - s.regs.cursor.toNat) := by
        rw [word_toNat_ne_zero]; exact hc
      simp only [footerSpace, hfs, tbEntries_length, hc', if_false, hc, Option.some.injEq]
      constructor
      · rintro rfl; exact ⟨rfl, fun h1 h2 => absurd ⟨h1, h2⟩ hc⟩
      · rintro ⟨rfl, -⟩; rfl
  rw [Option.bind_eq_some_iff, hfm]
  constructor
  · rintro ⟨o1, h1, h2⟩
    rw [optMark_tbEntries s _ _ _ _ ht hx h] at h1
    obtain ⟨h1, h1'⟩ := h1
    rw [key _ h1] at h2
    subst h1
    exact ⟨h2.1, h1', h2.2⟩
  · rintro ⟨rfl, h1, h2⟩
    refine ⟨_, (optMark_tbEntries s _ _ _ _ ht hx h).2 ⟨rfl, h1⟩, (key _ rfl).2 ⟨rfl, h2⟩⟩

/-- One section on the valid part of TB that has its minimum of entries: it matches exactly when R140's parts do, and
consumes what R147 item 2 says. -/
theorem matchFrame_tbEntries {α : Type} (s : State) (a : FrameArgs) (body : Nat → Match α) (x : α) (u : Nat)
    (hhm : a.hm = s.regs.hdrMark.toNat) (hhs : a.hs = s.regs.hdrSpace.toNat) (hfm : a.fm = s.regs.ftrMark.toNat)
    (hfs : a.fs = s.regs.ftrSpace.toNat) (hat : a.atleast = cfgAtLeast s.regs)
    (hax : a.ax = s.build.atLeastAppliesExcess) (ht : a.coding.t = s.regs.tol.toNat)
    (hx : a.coding.x = s.regs.excess.toNat)
    (hbody : ∀ i y k, body i = .ok y k → k = 2 * s.regs.nbits.toNat)
    (hmin : sectionMinimum s.regs ≤ remaining s) :
    matchFrame (tbEntries s) s.regs.cursor.toNat s.regs.nbits.toNat a body = .ok x u ↔
      sectionFits s body x ∧ u = sectionUsed s := by
  have hm : frameMin a s.regs.nbits.toNat = sectionMinimum s.regs := by
    simp [frameMin, sectionMinimum, headerEntries, hhm, hhs, hfm]; omega
  have hml := hmin
  simp only [sectionMinimum] at hml
  have hadd : headerEntries s.regs + 2 * s.regs.nbits.toNat + present s.regs.ftrMark.toNat = sectionMinimum s.regs := by
    simp [sectionMinimum]; omega
  have hhead := fun o => header_tbEntries s o a.coding ht hx (by omega)
  simp only [matchFrame, hm, tbEntries_length]
  rw [if_neg (show ¬s.regs.tbLen.toNat - s.regs.cursor.toNat < sectionMinimum s.regs by unfold remaining at hmin; omega)]
  rw [hhm, hhs]
  constructor
  · intro h
    split at h
    · cases h
    rename_i o ho
    obtain ⟨rfl, hf⟩ := (hhead o).1 ho
    split at h
    · cases h
    rename_i y k hb
    obtain rfl := hbody _ _ _ hb
    split at h
    · cases h
    rename_i o2 ho2
    obtain ⟨rfl, hf2⟩ :=
      (footer_tbEntries s _ _ a hfm hfs hat hax ht hx (by omega)).1 ho2
    cases h
    exact ⟨⟨hf, hb, hf2⟩, by rw [sectionUsed, hadd]⟩
  · rintro ⟨⟨hf, hb, hf2⟩, rfl⟩
    rw [(hhead _).2 ⟨rfl, hf⟩]
    simp only [hb]
    rw [(footer_tbEntries s _ _ a hfm hfs hat hax ht hx (by omega)).2 ⟨rfl, hf2⟩, sectionUsed, hadd]

/-- The three outcomes of MATCH_GENERIC_BITS' core on the valid part of TB. -/
theorem matchGenericBits_tbEntries (s : State) (v u : Nat) (hmin : sectionMinimum s.regs ≤ remaining s) :
    matchGenericBits (tbEntries s) s.regs.cursor.toNat s.regs.nbits.toNat (frameArgsOf s) = .ok v u ↔
      sectionFits s (bitsBody s) v ∧ u = sectionUsed s :=
  matchFrame_tbEntries s (frameArgsOf s) (bitsBody s) v u rfl rfl rfl rfl rfl rfl rfl rfl
    (fun _ _ _ h => by have := (matchData_ok h).2.1; simpa [entriesOf] using this) hmin

/-- The three outcomes of MATCH_GENERIC_BYTES' core on the valid part of TB. -/
theorem matchGenericBytes_tbEntries (s : State) (bs : List Byte) (u : Nat) (h8 : s.regs.nbits.toNat % 8 = 0)
    (hmin : sectionMinimum s.regs ≤ remaining s) :
    matchGenericBytes (tbEntries s) s.regs.cursor.toNat s.regs.nbits.toNat (frameArgsOf s) = .ok bs u ↔
      sectionFits s (bytesBody s) bs ∧ u = sectionUsed s :=
  matchFrame_tbEntries s (frameArgsOf s) (bytesBody s) bs u rfl rfl rfl rfl rfl rfl rfl rfl
    (fun _ _ _ h => by have := (matchBytes_ok h).2.1; simp [entriesOf] at this; omega) hmin

/-- The final bit of a constant-bit-time frame on the valid part of TB, `o` entries after the cursor. -/
theorem cbtFinalBit_tbEntries (s : State) (o v x u : Nat) (h : o + 1 ≤ remaining s) :
    cbtFinalBit (tbEntries s) s.regs.cursor.toNat (cbtCoding (codingOf s.regs)) o v = .ok x u ↔
      ∃ b, cbtFinalFits s o b ∧ x = 2 * v + b.toNat ∧ u = o + 1 + (if o + 1 < remaining s then 1 else 0) := by
  have h0 : entry (tbEntries s) (s.regs.cursor.toNat + o) = atCursor s o := by
    unfold remaining at h; exact entry_tbEntries s _ (by omega)
  have ht : (cbtCoding (codingOf s.regs)).t = s.regs.tol.toNat := rfl
  have hx : (cbtCoding (codingOf s.regs)).x = s.regs.excess.toNat := rfl
  have htr : ∀ (d : Word) (y : Nat),
      cbtTrailing (tbEntries s) s.regs.cursor.toNat d.toNat (cbtCoding (codingOf s.regs)) (o + 1) y = .ok x u ↔
        (o + 1 < remaining s →
          matchSpace (atCursor s (o + 1)) d.toNat s.regs.tol.toNat s.regs.excess.toNat = true) ∧
        x = y ∧ u = o + 1 + (if o + 1 < remaining s then 1 else 0) := by
    intro d y
    simp only [cbtTrailing, tbEntries_length]
    by_cases hl : o + 1 < remaining s
    · have hlt : s.regs.cursor.toNat + (o + 1) < s.regs.tbLen.toNat := by unfold remaining at hl; omega
      have hl' : o + 1 < s.regs.tbLen.toNat - s.regs.cursor.toNat := hl
      rw [if_pos hl', entry_tbEntries s _ hlt, ht, hx]
      simp only [hl, forall_const, if_true]
      rw [show (readTb s (s.regs.cursor.toNat + (o + 1))).toNat = atCursor s (o + 1) from rfl]
      by_cases hm :
          matchSpace (atCursor s (o + 1)) d.toNat s.regs.tol.toNat s.regs.excess.toNat = true
      · rw [if_pos hm]
        simp only [hm, Match.ok.injEq, true_and]
        constructor <;> rintro ⟨rfl, rfl⟩ <;> exact ⟨rfl, rfl⟩
      · rw [if_neg hm]
        simp [hm]
    · have hl' : ¬o + 1 < s.regs.tbLen.toNat - s.regs.cursor.toNat := hl
      rw [if_neg hl']
      simp only [hl, Match.ok.injEq, false_imp_iff, true_and, if_false, Nat.add_zero]
      constructor <;> rintro ⟨rfl, rfl⟩ <;> exact ⟨rfl, rfl⟩
  simp only [cbtFinalBit, h0]
  have hone : (cbtCoding (codingOf s.regs)).om = s.regs.oneMark.toNat := rfl
  have hzero : (cbtCoding (codingOf s.regs)).zm = s.regs.zeroMark.toNat := rfl
  rw [hone, hzero, ht, hx]
  simp only [Bool.exists_bool, cbtFinalFits, if_true, Bool.false_eq_true, if_false, Bool.toNat_true, Bool.toNat_false,
    Nat.add_zero]
  split
  · rename_i h1
    rw [htr]
    simp [h1]
  · rename_i h1
    split
    · rename_i h2
      rw [htr]
      simp [h1, h2]
    · rename_i h2
      simp [h1, h2]

/-- A constant-bit-time frame without a footer mark on the valid part of TB that has its minimum of entries (R161). -/
theorem cbtInferred_tbEntries (s : State) (x u : Nat) (hn : 1 ≤ s.regs.nbits.toNat)
    (hmin : cbtMinimum s.regs ≤ remaining s) :
    cbtInferred (tbEntries s) s.regs.cursor.toNat s.regs.nbits.toNat (frameArgsOf s) = .ok x u ↔
      ∃ (w : Nat) (b : Bool), headerFits s ∧ cbtOrdinaryFits s w ∧
        cbtFinalFits s (headerEntries s.regs + 2 * (s.regs.nbits.toNat - 1)) b ∧
        x = orderBits (cfgMsbFirst s.regs) s.regs.nbits.toNat (2 * w + b.toNat) ∧
        u = cbtMinimum s.regs + (if cbtMinimum s.regs < remaining s then 1 else 0) := by
  have hm : cbtMin (frameArgsOf s) s.regs.nbits.toNat = cbtMinimum s.regs := by
    simp [cbtMin, cbtMinimum, headerEntries, frameArgsOf]
  have hml := hmin
  simp only [cbtMinimum] at hml
  have hord : ∀ w k,
      cbtOrdinary (tbEntries s) (s.regs.cursor.toNat + headerEntries s.regs) s.regs.nbits.toNat
          (cbtCoding (codingOf s.regs)) = .ok w k ↔ cbtOrdinaryFits s w ∧ k = 2 * (s.regs.nbits.toNat - 1) := by
    intro w k
    simp only [cbtOrdinary, cbtOrdinaryFits]
    by_cases h1 : s.regs.nbits.toNat = 1
    · simp only [h1, show ¬2 ≤ 1 by omega, if_false, if_true, Match.ok.injEq]
      constructor <;> rintro ⟨rfl, rfl⟩ <;> exact ⟨rfl, rfl⟩
    · rw [if_pos (by omega), if_neg h1]
      constructor
      · intro h
        have := (matchData_ok h).2.1
        simp only [entriesOf, Bool.toNat_true, Nat.sub_self, Nat.sub_zero] at this
        exact ⟨by rw [← this]; exact h, this⟩
      · rintro ⟨h, rfl⟩; exact h
  have hhead := fun o => header_tbEntries s o (cbtCoding (codingOf s.regs)) rfl rfl (by omega)
  simp only [cbtInferred, hm, tbEntries_length]
  rw [if_neg (show ¬s.regs.tbLen.toNat - s.regs.cursor.toNat < cbtMinimum s.regs by unfold remaining at hmin; omega)]
  simp only [show (frameArgsOf s).coding = codingOf s.regs from rfl,
    show (frameArgsOf s).hm = s.regs.hdrMark.toNat from rfl,
    show (frameArgsOf s).hs = s.regs.hdrSpace.toNat from rfl, show (frameArgsOf s).msb = cfgMsbFirst s.regs from rfl]
  have hlen : headerEntries s.regs + 2 * (s.regs.nbits.toNat - 1) + 1 = cbtMinimum s.regs := by simp [cbtMinimum]
  constructor
  · intro h
    split at h
    · cases h
    rename_i o ho
    obtain ⟨rfl, hf⟩ := (hhead o).1 ho
    split at h
    · cases h
    rename_i w k hb
    obtain ⟨hw, rfl⟩ := (hord _ _).1 hb
    obtain ⟨y, hy, rfl⟩ := matchMap_ok.1 h
    obtain ⟨b, hb, rfl, rfl⟩ := (cbtFinalBit_tbEntries s _ _ _ _ (by omega)).1 hy
    exact ⟨w, b, hf, hw, hb, rfl, by rw [hlen]⟩
  · rintro ⟨w, b, hf, hw, hb, rfl, rfl⟩
    rw [(hhead _).2 ⟨rfl, hf⟩]
    simp only [(hord _ _).2 ⟨hw, rfl⟩]
    rw [matchMap_ok]
    exact ⟨_, (cbtFinalBit_tbEntries s _ _ _ _ (by omega)).2 ⟨b, hb, rfl, by rw [hlen]⟩, rfl⟩

end Sys2Proof.Machine
end

