-- ==== Sys2Proof/Laws/RoundTrip.lean ====
section
/-! SUPPORT. The matchers on what the encoders emit: each duration in its own window (R110 item 5), one optional entry,
the bits and bytes of a body, one section, and the buffer of a round trip (R191). -/

namespace Sys2Proof.Machine

/-- R110 item 5: a duration matches itself as a mark exactly when the excess leaves the lower bound at or below it. -/
theorem matchMark_own {d t x : Nat} (h : ownMark d t x) : matchMark d d t x = true := by
  have h2 : d * 100 ≤ (d + x) * (100 + t) := Nat.mul_le_mul (by omega) (by omega)
  simp only [ownMark] at h
  rw [matchMark, Bool.and_eq_true, decide_eq_true_eq, decide_eq_true_eq]
  simp only [window]
  omega

/-- R110 item 5: every duration matches itself as a space. -/
theorem matchSpace_own (d t x : Nat) : matchSpace d d t x = true := by
  have h1 : (d + 0) * (100 - t) ≤ d * 100 := Nat.mul_le_mul (by omega) (by omega)
  exact matchMark_own (show (d + 0) * (100 - t) / 100 ≤ d by omega)

/-- R108: a duration matches itself as a gap, unless the excess counts and lifts the bound above it. -/
theorem matchAtLeast_own {ax : Bool} {d t x : Nat} (h : ax = false ∨ ownMark d t x) :
    matchAtLeast ax d d t x = true := by
  have h1 : (d + 0) * (100 - t) ≤ d * 100 := Nat.mul_le_mul (by omega) (by omega)
  cases ax
  · rw [matchAtLeast, decide_eq_true_eq]
    simp only [window, Bool.false_eq_true, if_false]
    omega
  · simpa [matchAtLeast, window, ownMark] using h

theorem entry_append_right (pre post : List Word) (i : Nat) : entry (pre ++ post) (pre.length + i) = entry post i := by
  simp [entry, List.getD_eq_getElem?_getD, List.getElem?_append_right]

theorem entry_append_left (pre post : List Word) (i : Nat) (h : i < pre.length) :
    entry (pre ++ post) i = entry pre i := by
  simp [entry, List.getD_eq_getElem?_getD, List.getElem?_append_left h]

/-- The entries of `n` bits, one pair each, bit 0 first (R180). -/
def pairWords (n : Nat) (b : Nat → Bool) (om os zm zs : Word) : List Word :=
  (List.range n).flatMap fun k => if b k then [om, os] else [zm, zs]

theorem pairWords_succ (n : Nat) (b : Nat → Bool) (om os zm zs : Word) :
    pairWords (n + 1) b om os zm zs = pairWords n b om os zm zs ++ if b n then [om, os] else [zm, zs] := by
  simp [pairWords, List.range_succ, List.flatMap_append]

@[simp] theorem pairWords_length (n : Nat) (b : Nat → Bool) (om os zm zs : Word) :
    (pairWords n b om os zm zs).length = 2 * n := by
  induction n with
  | zero => rfl
  | succ n ih => rw [pairWords_succ, List.length_append, ih]; split <;> simp <;> omega

/-- The two entries of bit `k`. -/
theorem entry_pairWords (b : Nat → Bool) (om os zm zs : Word) (n : Nat) :
    ∀ (post : List Word) (k : Nat), k < n →
      entry (pairWords n b om os zm zs ++ post) (2 * k) = (if b k then om else zm).toNat ∧
      entry (pairWords n b om os zm zs ++ post) (2 * k + 1) = (if b k then os else zs).toNat := by
  induction n with
  | zero => intro post k h; omega
  | succ n ih =>
    intro post k h
    rw [pairWords_succ, List.append_assoc]
    by_cases hk : k < n
    · exact ih _ k hk
    · obtain rfl : k = n := by omega
      have h0 := entry_append_right (pairWords k b om os zm zs) ((if b k then [om, os] else [zm, zs]) ++ post) 0
      have h1 := entry_append_right (pairWords k b om os zm zs) ((if b k then [om, os] else [zm, zs]) ++ post) 1
      rw [pairWords_length] at h0 h1
      rw [Nat.add_zero] at h0
      rw [h0, h1]
      cases b k <;> exact ⟨rfl, rfl⟩

/-- What a coding needs for its own pairs to be told apart: each pair that is used accepts itself, and the one pair does
not accept the zero pair (R191). -/
def CodingOwn (c : BitCoding) (n : Nat) (b : Nat → Bool) : Prop :=
  ((∃ k, k < n ∧ b k = true) → ownMark c.om c.t c.x) ∧ ((∃ k, k < n ∧ b k = false) → ownMark c.zm c.t c.x) ∧
    ¬(matchMark c.zm c.om c.t c.x = true ∧ matchSpace c.zs c.os c.t c.x = true)

/-- matchData on emitted bits gives them back (R180, R120). -/
theorem matchData_emitted (pre post : List Word) (n : Nat) (b : Nat → Bool) (om os zm zs : Word) (c : BitCoding)
    (msb : Bool) (hom : c.om = om.toNat) (hos : c.os = os.toNat) (hzm : c.zm = zm.toNat) (hzs : c.zs = zs.toNat)
    (ho : CodingOwn c n b) :
    matchData (pre ++ (pairWords n b om os zm zs ++ post)) pre.length n c msb true = .ok (wireValue msb n b) (2 * n) := by
  obtain ⟨h1, h0, hap⟩ := ho
  rw [matchData, if_neg (by simp [entriesOf]), bitLoop_value n 0 0 b]
  · simp only [matchMap, Nat.zero_mul, Nat.zero_add, orderBits_wireValue]
    simp [entriesOf]
  · intro j hj
    have he := entry_pairWords b om os zm zs n post j hj
    have e0 := entry_append_right pre (pairWords n b om os zm zs ++ post) (2 * j)
    have e1 := entry_append_right pre (pairWords n b om os zm zs ++ post) (2 * j + 1)
    rw [he.1] at e0
    rw [he.2] at e1
    simp only [matchPair, Nat.add_zero, Nat.add_assoc, e0, e1, Bool.or_true, Bool.not_true, Bool.false_or]
    by_cases hb : b j = true
    · simp only [hb, if_true, ← hom, ← hos]
      rw [matchMark_own (h1 ⟨j, hj, hb⟩), matchSpace_own]; rfl
    · have hb' : b j = false := by simpa using hb
      simp only [hb', Bool.false_eq_true, if_false, ← hzm, ← hzs]
      rw [matchMark_own (h0 ⟨j, hj, hb'⟩), matchSpace_own]
      refine ⟨?_, rfl⟩
      simp only [Bool.eq_false_iff, ne_eq, Bool.and_eq_true]
      exact hap

/-- The bits of a value in wire order have the value's low bits (R180, R123 item 3). -/
theorem wireValue_testBit (msb : Bool) (n v : Nat) :
    wireValue msb n (fun k => v.testBit (if msb then n - 1 - k else k)) = v % 2 ^ n := by
  have hsum : ∀ n, (∑ k ∈ Finset.range n, if v.testBit k then 2 ^ k else 0) = v % 2 ^ n := by
    intro n
    induction n with
    | zero => simp [Nat.mod_one]
    | succ n ih =>
      rw [Finset.sum_range_succ, ih, Nat.mod_pow_succ, ← Nat.toNat_testBit]
      cases v.testBit n <;> simp
  rw [← hsum n]
  cases msb
  · simp [wireValue]
  · simp only [wireValue, if_true]
    exact Finset.sum_range_reflect (fun k => if v.testBit k then 2 ^ k else 0) n

/-- What the emission functions write for a value (R180). -/
theorem emitBits_eq (v n : Nat) (a : EmitArgs) :
    emitBits v n a = pairWords n (fun k => v.testBit (if a.msb then n - 1 - k else k)) a.om a.os a.zm a.zs := rfl

@[simp] theorem emitBits_length (v n : Nat) (a : EmitArgs) : (emitBits v n a).length = 2 * n := by
  rw [emitBits_eq, pairWords_length]

theorem emitBytes_length (bs : List Byte) (a : EmitArgs) : (emitBytes bs a).length = 16 * bs.length := by
  induction bs with
  | nil => rfl
  | cons b bs ih => simp only [emitBytes, List.flatMap_cons, List.length_append, emitBits_length] at ih ⊢; rw [ih]; simp; omega

/-- The byte loop on emitted bytes gives them back (R181, R124). -/
theorem byteLoop_emitted (a : EmitArgs) (c : BitCoding) (start : Nat) (post : List Word) (hom : c.om = a.om.toNat)
    (hos : c.os = a.os.toNat) (hzm : c.zm = a.zm.toNat) (hzs : c.zs = a.zs.toNat) (bs : List Byte) :
    ∀ (pre : List Word) (o : Nat), start + o = pre.length →
      (∀ b ∈ bs, CodingOwn c 8 fun k => b.toNat.testBit (if a.msb then 8 - 1 - k else k)) →
      byteLoop (pre ++ (emitBytes bs a ++ post)) start c a.msb true bs.length o = .ok bs (o + 16 * bs.length) := by
  induction bs with
  | nil => intro pre o _ _; rfl
  | cons b bs ih =>
    intro pre o hp hb
    have hsplit : emitBytes (b :: bs) a ++ post = emitBits b.toNat 8 a ++ (emitBytes bs a ++ post) := by
      simp [emitBytes]
    have hd := matchData_emitted pre (emitBytes bs a ++ post) 8
      (fun k => b.toNat.testBit (if a.msb then 8 - 1 - k else k)) a.om a.os a.zm a.zs c a.msb hom hos hzm hzs
      (hb b (by simp))
    rw [wireValue_testBit, Nat.mod_eq_of_lt b.isLt] at hd
    simp only [List.length_cons, byteLoop, hsplit, emitBits_eq, hp, Bool.or_true, hd]
    have := ih (pre ++ emitBits b.toNat 8 a) (o + 2 * 8) (by simp; omega) (fun b' hb' => hb b' (by simp [hb']))
    rw [List.append_assoc, emitBits_eq] at this
    rw [this]
    simp [matchMap]
    omega

/-- matchBytes on emitted bytes gives them back. -/
theorem matchBytes_emitted (a : EmitArgs) (c : BitCoding) (pre post : List Word) (hom : c.om = a.om.toNat)
    (hos : c.os = a.os.toNat) (hzm : c.zm = a.zm.toNat) (hzs : c.zs = a.zs.toNat) (bs : List Byte)
    (hb : ∀ b ∈ bs, CodingOwn c 8 fun k => b.toNat.testBit (if a.msb then 8 - 1 - k else k)) :
    matchBytes (pre ++ (emitBytes bs a ++ post)) pre.length bs.length c a.msb true = .ok bs (16 * bs.length) := by
  rw [matchBytes, if_neg (by simp [entriesOf, emitBytes_length]; omega),
    byteLoop_emitted a c pre.length post hom hos hzm hzs bs pre 0 rfl hb, Nat.zero_add]

theorem optEntry_of_ne {d : Word} (h : d ≠ 0) : optEntry d = [d] := if_neg h

@[simp] theorem optEntry_length (d : Word) : (optEntry d).length = present d.toNat := by
  by_cases h : d = 0
  · simp [optEntry, present, h]
  · simp [optEntry_of_ne h, present, word_toNat_ne_zero.2 h]

/-- An emitted optional mark is found. -/
theorem optMark_emitted (pre post : List Word) (start o : Nat) (d : Word) (c : BitCoding) (hp : start + o = pre.length)
    (h : d ≠ 0 → ownMark d.toNat c.t c.x) :
    optMark (pre ++ (optEntry d ++ post)) start d.toNat c o = some (o + present d.toNat) := by
  by_cases hd : d = 0
  · simp [optMark, present, hd]
  · have hd' := word_toNat_ne_zero.2 hd
    have e := entry_append_right pre (optEntry d ++ post) 0
    rw [Nat.add_zero, show entry (optEntry d ++ post) 0 = d.toNat by simp [optEntry_of_ne hd, entry]] at e
    simp [optMark, present, hd', hp, e, matchMark_own (h hd)]

/-- An emitted optional space is found. -/
theorem optSpace_emitted (pre post : List Word) (start o : Nat) (d : Word) (c : BitCoding) (hp : start + o = pre.length) :
    optSpace (pre ++ (optEntry d ++ post)) start d.toNat c o = some (o + present d.toNat) := by
  by_cases hd : d = 0
  · simp [optSpace, present, hd]
  · have hd' := word_toNat_ne_zero.2 hd
    have e := entry_append_right pre (optEntry d ++ post) 0
    rw [Nat.add_zero, show entry (optEntry d ++ post) 0 = d.toNat by simp [optEntry_of_ne hd, entry]] at e
    simp [optSpace, present, hd', hp, e, matchSpace_own]

/-- An emitted gap is found, whatever follows it. -/
theorem footerSpace_emitted (pre post : List Word) (start o : Nat) (d : Word) (a : FrameArgs)
    (hp : start + o = pre.length) (hfs : a.fs = d.toNat)
    (h : d ≠ 0 → a.ax = false ∨ a.atleast = false ∨ ownMark d.toNat a.coding.t a.coding.x) :
    footerSpace (pre ++ (optEntry d ++ post)) start a o = some (o + present d.toNat) := by
  by_cases hd : d = 0
  · simp [footerSpace, present, hfs, hd]
  · have hd' := word_toNat_ne_zero.2 hd
    have e := entry_append_right pre (optEntry d ++ post) 0
    rw [Nat.add_zero, show entry (optEntry d ++ post) 0 = d.toNat by simp [optEntry_of_ne hd, entry]] at e
    have hlt : o < (pre ++ (optEntry d ++ post)).length - start := by simp [optEntry_of_ne hd]; omega
    have hm : (if a.atleast then matchAtLeast a.ax d.toNat d.toNat a.coding.t a.coding.x
        else matchSpace d.toNat d.toNat a.coding.t a.coding.x) = true := by
      cases hat : a.atleast
      · simp [matchSpace_own]
      · simp only [if_true]
        refine matchAtLeast_own ?_
        rcases h hd with h | h | h
        · exact .inl h
        · rw [hat] at h; cases h
        · exact .inr h
    simp only [footerSpace, hfs, hp, e, present, hd', ne_eq, not_false_eq_true, hlt, and_self, if_true, if_false, hm]

/-- R140 on an emitted section, whatever follows it: the body's result, and the section's entries. -/
theorem matchFrame_emitted {α : Type} (ea : EmitArgs) (a : FrameArgs) (n : Nat) (B post : List Word)
    (body : Nat → Match α) (x : α) (hB : B.length = 2 * n)
    (hbody : body (present ea.hm.toNat + present ea.hs.toNat) = .ok x (2 * n))
    (hhm : a.hm = ea.hm.toNat) (hhs : a.hs = ea.hs.toNat) (hfm : a.fm = ea.fm.toNat) (hfs : a.fs = ea.gap.toNat)
    (mh : ea.hm ≠ 0 → ownMark ea.hm.toNat a.coding.t a.coding.x)
    (mf : ea.fm ≠ 0 → ownMark ea.fm.toNat a.coding.t a.coding.x)
    (mg : ea.gap ≠ 0 → a.ax = false ∨ a.atleast = false ∨ ownMark ea.gap.toNat a.coding.t a.coding.x) :
    matchFrame (encodeFrame B ea ++ post) 0 n a body =
      .ok x (present ea.hm.toNat + present ea.hs.toNat + 2 * n + present ea.fm.toNat + present ea.gap.toNat) := by
  have hsplit1 : encodeFrame B ea ++ post =
      [] ++ (optEntry ea.hm ++ (optEntry ea.hs ++ (B ++ (optEntry ea.fm ++ (optEntry ea.gap ++ post))))) := by
    simp [encodeFrame]
  have hsplit2 : encodeFrame B ea ++ post =
      optEntry ea.hm ++ (optEntry ea.hs ++ (B ++ (optEntry ea.fm ++ (optEntry ea.gap ++ post)))) := by
    simp [encodeFrame]
  have hsplit3 : encodeFrame B ea ++ post =
      (optEntry ea.hm ++ optEntry ea.hs ++ B) ++ (optEntry ea.fm ++ (optEntry ea.gap ++ post)) := by
    simp [encodeFrame]
  have hsplit4 : encodeFrame B ea ++ post =
      (optEntry ea.hm ++ optEntry ea.hs ++ B ++ optEntry ea.fm) ++ (optEntry ea.gap ++ post) := by
    simp [encodeFrame]
  have hlen : ¬(encodeFrame B ea ++ post).length - 0 < frameMin a n := by
    rw [hsplit2]; simp [frameMin, hhm, hhs, hfm, hB]; omega
  rw [matchFrame, if_neg hlen, hhm, hhs, hfm]
  have e1 : optMark (encodeFrame B ea ++ post) 0 ea.hm.toNat a.coding 0 = some (0 + present ea.hm.toNat) := by
    rw [hsplit1]; exact optMark_emitted _ _ _ _ _ _ rfl mh
  have e2 : optSpace (encodeFrame B ea ++ post) 0 ea.hs.toNat a.coding (0 + present ea.hm.toNat) =
      some (0 + present ea.hm.toNat + present ea.hs.toNat) := by
    rw [hsplit2]; exact optSpace_emitted _ _ _ _ _ _ (by simp)
  have e3 : optMark (encodeFrame B ea ++ post) 0 ea.fm.toNat a.coding
      (present ea.hm.toNat + present ea.hs.toNat + 2 * n) =
      some (present ea.hm.toNat + present ea.hs.toNat + 2 * n + present ea.fm.toNat) := by
    rw [hsplit3]; exact optMark_emitted _ _ _ _ _ _ (by simp [hB]; omega) mf
  have e4 : footerSpace (encodeFrame B ea ++ post) 0 a
      (present ea.hm.toNat + present ea.hs.toNat + 2 * n + present ea.fm.toNat) =
      some (present ea.hm.toNat + present ea.hs.toNat + 2 * n + present ea.fm.toNat + present ea.gap.toNat) := by
    rw [hsplit4]; exact footerSpace_emitted _ _ _ _ _ _ (by simp [hB]; omega) hfs mg
  rw [e1, Option.bind_some, e2]
  simp only [Nat.zero_add, hbody]
  rw [e3, Option.bind_some, e4]

/-- The buffer of a round trip: the valid part of TB is the sequence the encoder wrote (R191). -/
theorem tbEntries_copied {s t s' : State} {seq : List Word} (ht : t = writeOutput seq s) (h0 : t.status = 0)
    (hc : CopiedBack t s') : tbEntries s' = seq := by
  subst ht
  rcases writeOutput_cases seq s with ⟨hl, e⟩ | ⟨hl, e⟩
  · rw [e] at h0; exact absurd h0 (by simp [raiseEncode, raise, statusCode])
  · have hob : (writeOutput seq s).res.obLen.toNat = seq.length := by rw [e]; exact obLen_toNat s.build s.res _ hl
    obtain ⟨-, hr, hread⟩ := hc
    have hlen : s'.regs.tbLen.toNat = seq.length := by rw [hr]; exact hob
    apply List.ext_getElem
    · rw [tbEntries_length, hlen]
    · intro i h1 h2
      rw [tbEntries_getElem, hread i (by omega)]
      exact readOb_writeOutput seq s hl i h2

end Sys2Proof.Machine
end

