-- ==== Sys2Proof/Machine/Script.lean ====
section
/-! DEFINITION. The host script notation (R86 to R88): its operations, the pseudo-operations' expansions, and the
reading of a line of text. A script's encoding is its list of bus operations in order. -/

namespace Sys2Proof.Machine

/-- A host-script line: the operations of R86 and the pseudo-operations of R87. -/
inductive ScriptOp where
  | wr (r : Reg) (v : Word)
  | rd (r : Reg)
  | wtb (i : Nat) (v : Word)
  | rtb (i : Nat)
  | rob (i : Nat)
  | wba (j : Nat) (b : Word)
  | rba (j : Nat)
  | rdrs (j : Nat)
  | command (i : Instr)
  | tb (vs : List Word)
  | desc (hm hs om os zm zs fm fs : Word)
  | val (v : BitVec 64)
  | cfg (msb atleast lastspace strict : Bool)
  | ba (j : Nat) (bs : List Word)
  | tol (t x : Word)
  deriving DecidableEq, Repr

/-- `wr REG, v` (R86). -/
def busWr (r : Reg) (v : Word) : HostOp := .write (word32 (4 * regno r)) v

/-- `rd REG` (R86). -/
def busRd (r : Reg) : HostOp := .read (word32 (4 * regno r))

/-- `wtb i, v` (R86). -/
def busWtb (i : Nat) (v : Word) : HostOp := .write (word32 (0x10000 + 4 * i)) v

/-- `wba j, b` (R86). -/
def busWba (j : Nat) (b : Word) : HostOp := .write (word32 (0x30000 + 4 * j)) b

/-- Consecutive element writes from `i` on (R87 `tb`, `ba`). -/
def busSeq (f : Nat → Word → HostOp) : Nat → List Word → List HostOp
  | _, [] => []
  | i, v :: vs => f i v :: busSeq f (i + 1) vs

/-- The value `a + 2·b + 4·c + 8·d` of R87's `cfg`. -/
def cfgWord (msb atleast lastspace strict : Bool) : Word :=
  BitVec.ofNat 32 (msb.toNat + 2 * atleast.toNat + 4 * lastspace.toNat + 8 * strict.toNat)

/-- The bus operations of a script line (R86, R87). -/
def expandOp : ScriptOp → List HostOp
  | .wr r v => [busWr r v]
  | .rd r => [busRd r]
  | .wtb i v => [busWtb i v]
  | .rtb i => [.read (word32 (0x10000 + 4 * i))]
  | .rob i => [.read (word32 (0x20000 + 4 * i))]
  | .wba j b => [busWba j b]
  | .rba j => [.read (word32 (0x30000 + 4 * j))]
  | .rdrs j => [.read (word32 (0x40000 + 4 * j))]
  | .command i => [busWr .cmd (encode i)]
  | .tb vs => busSeq busWtb 0 vs ++ [busWr .tbLen (BitVec.ofNat 32 vs.length)]
  | .desc hm hs om os zm zs fm fs =>
    [busWr .hdrMark hm, busWr .hdrSpace hs, busWr .oneMark om, busWr .oneSpace os,
     busWr .zeroMark zm, busWr .zeroSpace zs, busWr .ftrMark fm, busWr .ftrSpace fs]
  | .val v => [busWr .valLo (v.extractLsb' 0 32), busWr .valHi (v.extractLsb' 32 32)]
  | .cfg a b c d => [busWr .cfg (cfgWord a b c d)]
  | .ba j bs => busSeq busWba j bs
  | .tol t x => [busWr .tol t, busWr .excess x]

/-- A script's bus operations in order (R88). -/
def expandScript (ops : List ScriptOp) : List HostOp := ops.flatMap expandOp

/-! ### Reading the text of a line (R86, R87). Log 19 says what the notation leaves open. -/

/-- R23's name of a register. -/
def regName : Reg → String
  | .cmd => "CMD"
  | .status => "STATUS"
  | .tbLen => "TB_LEN"
  | .cursor => "CURSOR"
  | .meas => "MEAS"
  | .expect => "EXPECT"
  | .tol => "TOL"
  | .excess => "EXCESS"
  | .hdrMark => "HDR_MARK"
  | .hdrSpace => "HDR_SPACE"
  | .oneMark => "ONE_MARK"
  | .oneSpace => "ONE_SPACE"
  | .zeroMark => "ZERO_MARK"
  | .zeroSpace => "ZERO_SPACE"
  | .ftrMark => "FTR_MARK"
  | .ftrSpace => "FTR_SPACE"
  | .nbits => "NBITS"
  | .cfg => "CFG"
  | .nbytes => "NBYTES"
  | .baOff => "BA_OFF"
  | .valLo => "VAL_LO"
  | .valHi => "VAL_HI"
  | .repeatCount => "REPEAT"
  | .protoId => "PROTO_ID"
  | .maxSkip => "MAX_SKIP"
  | .resMatch => "RES_MATCH"
  | .resUsed => "RES_USED"
  | .resLo => "RES_LO"
  | .resHi => "RES_HI"
  | .res2Lo => "RES2_LO"
  | .res2Hi => "RES2_HI"
  | .obLen => "OB_LEN"
  | .drSuccess => "DR_SUCCESS"
  | .drProto => "DR_PROTO"
  | .drBits => "DR_BITS"
  | .drKind => "DR_KIND"
  | .drValLo => "DR_VAL_LO"
  | .drValHi => "DR_VAL_HI"
  | .drNbytes => "DR_NBYTES"

/-- R82's mnemonic of a command. -/
def mnemonic : Instr → String
  | .window => "WINDOW"
  | .matchMark => "MATCH_MARK"
  | .matchSpace => "MATCH_SPACE"
  | .matchAtLeast => "MATCH_AT_LEAST"
  | .matchData => "MATCH_DATA"
  | .matchBytes => "MATCH_BYTES"
  | .matchGenericBits => "MATCH_GENERIC_BITS"
  | .matchGenericBytes => "MATCH_GENERIC_BYTES"
  | .matchCbt => "MATCH_CBT"
  | .encodeGenericBits => "ENCODE_GENERIC_BITS"
  | .encodeGenericBytes => "ENCODE_GENERIC_BYTES"
  | .encodeCbt => "ENCODE_CBT"
  | .decode => "DECODE"
  | .encodeProtoInt => "ENCODE_PROTO_INT"
  | .encodeProtoBytes => "ENCODE_PROTO_BYTES"
  | .resetResult => "RESET_RESULT"

/-- The characters between two tokens. -/
def isSeparator (c : Char) : Bool := c == ' ' || c == ',' || c == '\t' || c == '\r'

/-- The tokens of a line, in capitals (R86: names are case-insensitive); `cur` is the token being read, backwards. -/
def tokensOf : List Char → List Char → List (List Char)
  | [], cur => if cur.isEmpty then [] else [cur.reverse]
  | c :: cs, cur =>
    if isSeparator c then (if cur.isEmpty then tokensOf cs [] else cur.reverse :: tokensOf cs [])
    else tokensOf cs (c.toUpper :: cur)

/-- The value of a digit character in capitals. -/
def digitOf (c : Char) : Option Nat :=
  if '0' ≤ c ∧ c ≤ '9' then some (c.toNat - '0'.toNat)
  else if 'A' ≤ c ∧ c ≤ 'F' then some (c.toNat - 'A'.toNat + 10)
  else none

/-- The digits' value in base `base`, after the value `acc` of the digits before them. -/
def digitsOf (base : Nat) : List Char → Nat → Option Nat
  | [], acc => some acc
  | c :: cs, acc =>
    match digitOf c with
    | some d => if d < base then digitsOf base cs (base * acc + d) else none
    | none => none

/-- A number: decimal, or hexadecimal with `0x` (R86). -/
def numberOf (t : List Char) : Option Nat :=
  match t with
  | [] => none
  | ['0', 'X'] => none
  | '0' :: 'X' :: ds => digitsOf 16 ds 0
  | ds => digitsOf 10 ds 0

/-- A number below 2^32, as a word. -/
def wordOf (t : List Char) : Option Word :=
  match numberOf t with
  | some n => if n < 2 ^ 32 then some (BitVec.ofNat 32 n) else none
  | none => none

/-- A list of words; `none` if one of the tokens is none. -/
def wordsOf : List (List Char) → Option (List Word)
  | [] => some []
  | t :: ts => (wordOf t).bind (fun w => (wordsOf ts).map (w :: ·))

/-- A list of words, at least one: R87's `tb` and `ba` list their values. -/
def someWordsOf (ts : List (List Char)) : Option (List Word) := if ts.isEmpty then none else wordsOf ts

/-- The register a token names. -/
def regOf (t : List Char) : Option Reg := regsInOrder.find? (fun r => (regName r).toList == t)

/-- The command a token names (R82). -/
def instrOf (t : List Char) : Option Instr :=
  (opRows.map OpRow.instr).find? (fun i => (mnemonic i).toList == t)

/-- A number, in any of R86's forms, that is the value of one bit: 0 or 1. THE MODEL'S CHOICE (log 19): R87 gives no
range for `cfg`'s values, and any other number refuses the line, because a CFG field is one bit (R25). -/
def bitOf (t : List Char) : Option Bool :=
  match numberOf t with
  | some 0 => some false
  | some 1 => some true
  | _ => none

/-- A `key=value` of R87's `cfg` put into the four flags. THE MODEL'S CHOICE (log 19): the value is 0 or 1, `bitOf`, and
no blank stands beside the `=`. -/
def cfgKey (t : List Char) (f : Bool × Bool × Bool × Bool) : Option (Bool × Bool × Bool × Bool) :=
  let key := t.takeWhile (· != '=')
  (bitOf ((t.dropWhile (· != '=')).drop 1)).bind fun b =>
    if key = "MSB".toList then some (b, f.2.1, f.2.2.1, f.2.2.2)
    else if key = "ATLEAST".toList then some (f.1, b, f.2.2.1, f.2.2.2)
    else if key = "LASTSPACE".toList then some (f.1, f.2.1, b, f.2.2.2)
    else if key = "STRICT".toList then some (f.1, f.2.1, f.2.2.1, b)
    else none

/-- The keys of R87's `cfg`, the omitted ones at their reset values 1, 0, 1, 1. THE MODEL'S CHOICE (log 19): the keys
stand in any order, and the last value of a repeated key counts. -/
def cfgKeys : List (List Char) → Bool × Bool × Bool × Bool → Option ScriptOp
  | [], f => some (.cfg f.1 f.2.1 f.2.2.1 f.2.2.2)
  | t :: ts, f => (cfgKey t f).bind (cfgKeys ts)

/-- The operation of a line's tokens (R86, R87). -/
def parseTokens (op : List Char) (args : List (List Char)) : Option ScriptOp :=
  if op = "WR".toList then
    match args with
    | [r, v] => (regOf r).bind fun r => (wordOf v).map (.wr r)
    | _ => none
  else if op = "RD".toList then
    match args with
    | [r] => (regOf r).map .rd
    | _ => none
  else if op = "WTB".toList then
    match args with
    | [i, v] => (numberOf i).bind fun i => (wordOf v).map (.wtb i)
    | _ => none
  else if op = "RTB".toList then
    match args with
    | [i] => (numberOf i).map .rtb
    | _ => none
  else if op = "ROB".toList then
    match args with
    | [i] => (numberOf i).map .rob
    | _ => none
  else if op = "WBA".toList then
    match args with
    | [j, b] => (numberOf j).bind fun j => (wordOf b).map (.wba j)
    | _ => none
  else if op = "RBA".toList then
    match args with
    | [j] => (numberOf j).map .rba
    | _ => none
  else if op = "RDRS".toList then
    match args with
    | [j] => (numberOf j).map .rdrs
    | _ => none
  else if op = "TB".toList then (someWordsOf args).map .tb
  else if op = "DESC".toList then
    match wordsOf args with
    | some [hm, hs, om, os, zm, zs, fm, fs] => some (.desc hm hs om os zm zs fm fs)
    | _ => none
  else if op = "VAL".toList then
    match args with
    | [v] => (numberOf v).bind fun v => if v < 2 ^ 64 then some (.val (BitVec.ofNat 64 v)) else none
    | _ => none
  else if op = "CFG".toList then cfgKeys args (true, false, true, true)
  else if op = "BA".toList then
    match args with
    | j :: bs => (numberOf j).bind fun j => (someWordsOf bs).map (.ba j)
    | [] => none
  else if op = "TOL".toList then
    match args with
    | [t, x] => (wordOf t).bind fun t => (wordOf x).map (.tol t)
    | _ => none
  else if args.isEmpty then (instrOf op).map .command
  else none

/-- The bus operations of one line of text: `;` starts a comment, an empty line is no operation, a line that is none
of R86's or R87's gives `none`. -/
def assembleLine (line : String) : Option (List HostOp) :=
  match tokensOf (line.toList.takeWhile (· != ';')) [] with
  | [] => some []
  | op :: args => (parseTokens op args).map expandOp

/-- The bus operations of a script's lines in order (R88). -/
def assemble : List String → Option (List HostOp)
  | [] => some []
  | l :: ls => (assembleLine l).bind fun ops => (assemble ls).map (ops ++ ·)

end Sys2Proof.Machine
end

