-- ==== Sys2Proof/Tests/Slice0.lean ====
section
/-! SUPPORT. Our own tests: what WellFormed refuses, every command word written out from R80 and R82, steps from the
spec's vectors (95_test_vectors.md), script lines of its programs, and for every obligation with hypotheses a witness
that meets them, clause by clause. -/

namespace Sys2Proof.Tests

open Sys2Proof Sys2Proof.Machine

/-! ### Small states -/

/-- The capacities of 95_test_vectors.md part 0, with a table. -/
def unitWith (t : ProtocolTable) : Build :=
  { tbCap := 1024, obCap := 1024, baCap := 64, atLeastAppliesExcess := false, table := t, derived0 := .first }

def unit0 : Build := unitWith ⟨[], by decide⟩

/-- The state after reset. -/
def s0 : State := State.resetOf unit0

def cells {w : Nat} : Nat → List (BitVec w) → List (Nat × BitVec w)
  | _, [] => []
  | i, v :: vs => (i, v) :: cells (i + 1) vs

/-- `s` with other operand registers. -/
def regs (r : OperandRegs) (s : State := s0) : State := { s with regs := r }

/-- The `tb` pseudo-operation (R87). -/
def tb (vs : List Word) (s : State) : State :=
  { s with regs := { s.regs with tbLen := BitVec.ofNat 16 vs.length }, tb := cells 0 vs }

/-- `s` with BA bytes from 0 on. -/
def ba (bs : List Byte) (s : State) : State := { s with ba := cells 0 bs }

/-- `s` with a host script. -/
def script (ops : List HostOp) (s : State := s0) : State := { s with script := ops }

/-- The `desc` pseudo-operation (R87) on the reset registers. -/
def desc (hm hs om os zm zs fm fs : Word) : OperandRegs :=
  { OperandRegs.reset with
    hdrMark := hm, hdrSpace := hs, oneMark := om, oneSpace := os, zeroMark := zm, zeroSpace := zs, ftrMark := fm
    ftrSpace := fs }

/-- The NEC pairs without header and footer. -/
def nec : OperandRegs := desc 0 0 560 1690 560 560 0 0

def necFrame : OperandRegs := desc 9000 4500 560 1690 560 560 560 40000

def t8 : List Word := [9000, 4500, 560, 1690, 560, 560, 560, 40000]

def c8 : List Word := [1200, 400, 400, 1200, 1200, 400, 400, 1200]

def cbt : OperandRegs := desc 0 0 1200 0 400 0 0 0

/-- What an outcome's next state must satisfy; a stop satisfies nothing. -/
def holds (o : Host.Outcome State Fault Refusal) (p : State → Bool) : Bool :=
  match o with
  | .next t => p t
  | _ => false

/-- OB from 0 on, OB_LEN entries, as the host reads it. -/
def obWords (s : State) : List Word := (List.range s.res.obLen.toNat).map (readOb s)

/-- The outputs of an integer matcher: STATUS, RES_MATCH, RES_USED, RES. -/
def intOut (t : State) (code : Byte) (m : BitVec 1) (used : Half) (lo : Word) : Bool :=
  t.status == code && t.res.matched == m && t.res.used == used && t.res.lo == lo && t.res.hi == 0

/-! ### WellFormed refuses (one ill-formed term per check) -/

def dA : Descriptor := ⟨.generic, 9000, 4500, 560, 1690, 560, 560, 560, 40000, 2, true, true, 25, 0⟩
def dB : Descriptor := { dA with fs := 0, atleast := false }
def dC : Descriptor := ⟨.generic, 0, 0, 560, 9000, 560, 560, 0, 0, 1, true, false, 25, 0⟩

theorem test_wf_misaligned_access : (HostOp.read ⟨2, 4⟩).wf = false := by decide
theorem test_wf_narrow_access : (HostOp.write ⟨4, 2⟩ 0).wf = false := by decide
theorem test_wf_script : scriptWf [.read (word32 4), .write ⟨1, 4⟩ 0] = false := by decide
theorem test_wf_duplicate_id : tableWf [.desc 1 dA, .desc 1 dB] = false := by decide
theorem test_wf_unknown_id : tableWf [.external 0xFFFF 0] = false := by decide
theorem test_wf_descriptor_bits : tableWf [.desc 1 { dA with n := 0 }] = false ∧ tableWf [.desc 1 { dA with n := 65 }] = false := by
  decide
theorem test_wf_descriptor_tolerance : tableWf [.desc 1 { dA with t := 101 }] = false := by decide
theorem test_wf_bytes_descriptor : tableWf [.bytesDesc 1 { dA with n := 12 }] = false ∧
    tableWf [.bytesDesc 1 { dA with n := 16, kind := .cbt }] = false ∧
    tableWf [.bytesDesc 1 { dA with n := 16 }] = true := by decide
theorem test_wf_accepts : tableWf [.desc 1 dA, .desc 2 dB, .external 3 0] = true ∧ Instr.window.wf = true ∧
    scriptWf [.read (word32 4), .platformReset] = true := by decide

/-! ### Every command word, bit by bit (R80, R82) -/

theorem test_decode_pulse :
    decode 0b00000000000000000000000000000001#32 = .ok .window ∧
    decode 0b00000000000000000000000000000010#32 = .ok .matchMark ∧
    decode 0b00000000000000000000000000000011#32 = .ok .matchSpace ∧
    decode 0b00000000000000000000000000000100#32 = .ok .matchAtLeast := by decide

theorem test_decode_bits_bytes :
    decode 0b00000000000000000000000000010000#32 = .ok .matchData ∧
    decode 0b00000000000000000000000000010001#32 = .ok .matchBytes := by decide

theorem test_decode_frames :
    decode 0b00000000000000000000000000100000#32 = .ok .matchGenericBits ∧
    decode 0b00000000000000000000000000100001#32 = .ok .matchGenericBytes ∧
    decode 0b00000000000000000000000000100010#32 = .ok .matchCbt := by decide

theorem test_decode_encoders :
    decode 0b00000000000000000000000000110000#32 = .ok .encodeGenericBits ∧
    decode 0b00000000000000000000000000110001#32 = .ok .encodeGenericBytes ∧
    decode 0b00000000000000000000000000110010#32 = .ok .encodeCbt := by decide

theorem test_decode_dispatcher :
    decode 0b00000000000000000000000001000000#32 = .ok .decode ∧
    decode 0b00000000000000000000000001000001#32 = .ok .encodeProtoInt ∧
    decode 0b00000000000000000000000001000010#32 = .ok .encodeProtoBytes ∧
    decode 0b00000000000000000000000001000011#32 = .ok .resetResult := by decide

/-- R83, V70 to V72: reserved opcodes at the ends of their ranges, and reserved bits. -/
theorem test_decode_reserved :
    decode 0#32 = .error .unknownOpcode ∧ decode 0x05#32 = .error .unknownOpcode ∧
    decode 0x0F#32 = .error .unknownOpcode ∧ decode 0x12#32 = .error .unknownOpcode ∧
    decode 0x23#32 = .error .unknownOpcode ∧ decode 0x33#32 = .error .unknownOpcode ∧
    decode 0x44#32 = .error .unknownOpcode ∧ decode 0xFF#32 = .error .unknownOpcode ∧
    decode 0x102#32 = .error .reservedBits ∧ decode 0x80000001#32 = .error .reservedBits := by decide

theorem test_table_word : decodeTableWord 32 0x22 = some .matchCbt ∧ decodeTableWord 32 0x122 = none := by decide

/-! ### Pulse matcher (V6, V13, V8, V4, V7, V9, V11) -/

/-- V6. -/
theorem test_window_excess : holds (exec .window (regs { OperandRegs.reset with expect := 1000, excess := 100 }))
    (fun t => t.status == 0 && t.res.lo == 825 && t.res.lo2 == 1375) = true := by decide

/-- V13. -/
theorem test_window_wide :
    holds (exec .window (regs { OperandRegs.reset with expect := 0xFFFFFFFF, excess := 0xFFFFFFFF, tol := 100 }))
      (fun t => t.res.lo == 0 && t.res.hi == 0 && t.res.hi2 == 3 && t.res.lo2 == 0xFFFFFFFC) = true := by decide

/-- V8. -/
theorem test_mark_takes_excess :
    holds (exec .matchMark (regs { OperandRegs.reset with meas := 1300, expect := 1000, excess := 100 }))
      (fun t => t.status == 0 && t.res.matched == 1) = true := by decide

/-- V4 (E1). -/
theorem test_mark_upper_bound :
    holds (exec .matchMark (regs { OperandRegs.reset with meas := 1251, expect := 1000 }))
      (fun t => t.status == 2 && t.res.matched == 0) = true := by decide

/-- V7. -/
theorem test_space_takes_no_excess :
    holds (exec .matchSpace (regs { OperandRegs.reset with meas := 1300, expect := 1000, excess := 100 }))
      (fun t => t.status == 2 && t.res.matched == 0) = true := by decide

/-- V9. -/
theorem test_at_least_below :
    holds (exec .matchAtLeast (regs { OperandRegs.reset with meas := 29999, expect := 40000 }))
      (fun t => t.status == 2 && t.res.matched == 0) = true := by decide

/-- V11. -/
theorem test_at_least_unbounded :
    holds (exec .matchAtLeast (regs { OperandRegs.reset with meas := 0xFFFFFFFF, expect := 40000 }))
      (fun t => t.status == 0 && t.res.matched == 1) = true := by decide

/-! ### Bit and byte decoder (V22, V23, V28, V29c) -/

/-- V22. -/
theorem test_data_lsb_first :
    holds (exec .matchData (tb [560, 1690, 560, 560] (regs { nec with nbits := 2, cfg := 0xC })))
      (fun t => intOut t 0 1 4 1) = true := by decide

/-- V23. -/
theorem test_data_last_bit_by_mark :
    holds (exec .matchData (tb [560, 1690, 560] (regs { nec with nbits := 2, cfg := 0x9 })))
      (fun t => intOut t 0 1 3 3) = true := by decide

def bytes1234 : List Word :=
  [560, 560, 560, 560, 560, 560, 560, 1690, 560, 560, 560, 560, 560, 1690, 560, 560] ++
  [560, 560, 560, 560, 560, 1690, 560, 1690, 560, 560, 560, 1690, 560, 560, 560, 560]

/-- V28. -/
theorem test_bytes_each_reversed :
    holds (exec .matchBytes (tb bytes1234 (regs { nec with nbytes := 2, cfg := 0xC })))
      (fun t => t.status == 0 && t.res.used == 32 && readBa t 0 == 0x48 && readBa t 1 == 0x2C) = true := by decide

def byteA5 : List Word :=
  [560, 1690, 560, 560, 560, 1690, 560, 560, 560, 560, 560, 1690, 560, 560, 560, 1690]

/-- V29c: BA[0] is a free value, BA[1] stays. -/
theorem test_bytes_mismatch :
    holds (exec .matchBytes (tb (byteA5.set 5 1200) (ba [0, 0x77] (regs { nec with nbytes := 1 }))))
      (fun t => t.status == 2 && t.res.used == 0 && t.res.matched == 0 && readBa t 1 == 0x77) = true := by decide

/-! ### Frame matchers (V31, V38, V32, V36, V41, V42) -/

/-- V31. -/
theorem test_generic_no_gap_left :
    holds (exec .matchGenericBits (tb (t8.take 7) (regs { necFrame with nbits := 2, cfg := 0xF })))
      (fun t => intOut t 0 1 7 2) = true := by decide

/-- V38. -/
theorem test_generic_gap_without_footer_mark :
    holds (exec .matchGenericBits
        (tb [560, 1690, 560, 560, 40000] (regs { nec with ftrSpace := 40000, nbits := 2, cfg := 0xF })))
      (fun t => intOut t 0 1 5 2) = true := by decide

def v32 : List Word :=
  [3000, 1500, 500, 500, 500, 500, 500, 500, 500, 1500, 500, 500, 500, 500, 500, 1500, 500, 500] ++
  [500, 500, 500, 500, 500, 1500, 500, 1500, 500, 500, 500, 1500, 500, 500, 500, 500]

def v32Regs : OperandRegs := { desc 3000 1500 500 1500 500 500 0 0 with nbits := 16 }

/-- V32. -/
theorem test_generic_bytes :
    holds (exec .matchGenericBytes (tb v32 (regs v32Regs)))
      (fun t => t.status == 0 && t.res.matched == 1 && t.res.used == 34 && readBa t 0 == 0x12 && readBa t 1 == 0x34) =
      true := by decide

/-- V36. -/
theorem test_generic_bytes_not_whole :
    holds (exec .matchGenericBytes (tb v32 (regs { v32Regs with nbits := 12 }))) (fun t => t.status == 7) = true := by
  decide

/-- V41. -/
theorem test_cbt_no_trailing_space :
    holds (exec .matchCbt (tb (c8.take 7) (regs { cbt with nbits := 4 }))) (fun t => intOut t 0 1 7 10) = true := by
  decide

/-- V42. -/
theorem test_cbt_wrong_trailing_space :
    holds (exec .matchCbt (tb (c8.set 7 400) (regs { cbt with nbits := 4 }))) (fun t => intOut t 2 0 0 0) = true := by
  decide

/-! ### Encoders (V53, V57, V54, V58, V59a, V59) -/

/-- V53. -/
theorem test_encode_lsb_first :
    holds (exec .encodeGenericBits (regs { necFrame with nbits := 2, valLo := 2, cfg := 0xC }))
      (fun t => t.status == 0 && obWords t == [9000, 4500, 560, 560, 560, 1690, 560, 40000]) = true := by decide

/-- V57. -/
theorem test_encode_no_bits :
    holds (exec .encodeGenericBits (regs { necFrame with nbits := 0, valLo := 2 }))
      (fun t => t.status == 7 && t.res.obLen == 0) = true := by decide

/-- V54. -/
theorem test_encode_bytes :
    holds (exec .encodeGenericBytes (ba [0x12, 0x34] (regs v32Regs)))
      (fun t => t.status == 0 && obWords t == v32) = true := by decide

/-- V58. -/
theorem test_encode_bytes_not_whole :
    holds (exec .encodeGenericBytes (regs { OperandRegs.reset with nbits := 12 }))
      (fun t => t.status == 7 && t.res.obLen == 0) = true := by decide

/-- V59a. -/
theorem test_encode_cbt_footer :
    holds (exec .encodeCbt (regs { desc 2000 1000 1200 0 400 0 400 5000 with nbits := 3, valLo := 3, cfg := 0xC }))
      (fun t => obWords t == [2000, 1000, 1200, 400, 1200, 400, 400, 1200, 400, 5000]) = true := by decide

/-- V59. -/
theorem test_encode_cbt_last_space :
    holds (exec .encodeCbt (regs { cbt with nbits := 1, valLo := 1 })) (fun t => obWords t == [1200, 400]) = true := by
  decide

/-! ### Dispatcher (V62, V64, V65, V66, V67, V67a, V68) -/

def unitA : Build := unitWith ⟨[.desc 1 dA], by decide⟩

/-- V62. -/
theorem test_decode_table_order :
    holds (exec .decode (tb t8 (State.resetOf (unitWith ⟨[.desc 2 dB, .desc 1 dA], by decide⟩))))
      (fun t => t.status == 0 && t.dr.success == 1 && t.dr.proto == 2 && t.dr.valLo == 2) = true := by decide

/-- V64. -/
theorem test_decode_offset_first :
    holds (exec .decode (tb (560 :: t8)
        (regs { OperandRegs.reset with maxSkip := 1 } (State.resetOf (unitWith ⟨[.desc 1 dA, .desc 3 dC], by decide⟩)))))
      (fun t => t.status == 0 && t.dr.proto == 3 && t.dr.bits == 1 && t.dr.valLo == 1) = true := by decide

/-- V65. -/
theorem test_proto_int :
    holds (exec .encodeProtoInt (regs { OperandRegs.reset with protoId := 1, valLo := 2 } (State.resetOf unitA)))
      (fun t => t.status == 0 && obWords t == t8) = true := by decide

/-- V66. -/
theorem test_proto_int_unknown :
    holds (exec .encodeProtoInt (regs { OperandRegs.reset with protoId := 7 } (State.resetOf unitA)))
      (fun t => t.status == 4 && t.res.obLen == 0) = true := by decide

/-- V67. -/
theorem test_proto_bytes_empty_output :
    holds (exec .encodeProtoBytes (regs { OperandRegs.reset with protoId := 1, nbytes := 1 } (State.resetOf unitA)))
      (fun t => t.status == 3 && t.res.obLen == 0) = true := by decide

/-- V67a. -/
theorem test_proto_bytes_range_first :
    holds (exec .encodeProtoBytes
        (regs { OperandRegs.reset with protoId := 7, nbytes := 1, baOff := 64 } (State.resetOf unitA)))
      (fun t => t.status == 7) = true := by decide

/-- V68. -/
theorem test_reset_result :
    holds (exec .decode (tb t8 (State.resetOf unitA)))
      (fun u => u.dr.success == 1 && holds (exec .resetResult u)
        (fun t => t.status == 0 && t.dr == DecodeResult.reset unitA.derived0)) = true := by decide

/-! ### Bus and script (V81, V83 to V85, R88, P1, P5) -/

/-- V81. -/
theorem test_tb_len_clamped :
    holds (step (script [.write (word32 0x8) 5000])) (fun t => t.regs.tbLen == 1024) = true := by decide

/-- V83. -/
theorem test_beyond_capacity_reads_zero :
    holds (step (script [.read (word32 0x11000)])) (fun t => t.reads == [0]) = true := by decide

/-- V84. -/
theorem test_ba_low_byte :
    holds (step (script [.write (word32 0x30000) 0x1FF])) (fun t => readBa t 0 == 0xFF) = true := by decide

/-- V71. -/
theorem test_illegal_command :
    holds (step (script [.write (word32 0) 0x102])) (fun t => t.status == 6 && t.cmd == 0x102 && t.res == s0.res) =
      true := by decide

/-- R88's two examples. -/
theorem test_script_encoding :
    assembleLine "MATCH_MARK" = some [.write (word32 0x000) 0x00000002] ∧
    assembleLine "wtb 3, 560 ; entry 3" = some [.write (word32 0x1000C) 0x00000230] := by decide

/-- P1 and P5: lines with the encodings printed there; R86's numerals as `cfg`'s values (R87), and log 19's choice. -/
theorem test_script_lines :
    assembleLine "wr EXPECT, 1000" = some [.write (word32 0x00014) 0x000003E8] ∧
    assembleLine "rd RES2_LO" = some [.read (word32 0x00090)] ∧
    assembleLine "val 0x13" = some [.write (word32 0x00050) 0x13, .write (word32 0x00054) 0] ∧
    assembleLine "cfg msb=0" = some [.write (word32 0x00044) 0x0000000C] ∧
    assembleLine "cfg msb=0x0, atleast=01" = some [.write (word32 0x00044) 0x0000000E] ∧
    assembleLine "cfg msb=2" = none ∧
    assembleLine "nonsense 1" = none := by decide

/-! ### Witnesses: the hypotheses of each obligation, met together, clause by clause -/

/-- Every command answers a next state somewhere, OK where the spec lets it be: the states of the witnesses below. -/
def okState : Instr → State
  | .window | .matchMark | .matchSpace | .matchAtLeast => s0
  | .matchData | .matchGenericBits => tb [560, 1690, 560, 560] (regs { nec with nbits := 2 })
  | .matchBytes => tb byteA5 (regs { nec with nbytes := 1, baOff := 63 })
  | .matchGenericBytes => tb v32 (regs v32Regs)
  | .matchCbt => tb c8 (regs { cbt with nbits := 4 })
  | .encodeGenericBits => regs { necFrame with nbits := 2, valLo := 2 }
  | .encodeGenericBytes => ba [0x12, 0x34] (regs v32Regs)
  | .encodeCbt => regs { cbt with nbits := 4, valLo := 10 }
  | .decode => tb t8 (State.resetOf unitA)
  | .encodeProtoInt => regs { OperandRegs.reset with protoId := 1, valLo := 2 } (State.resetOf unitA)
  | .encodeProtoBytes => s0
  | .resetResult => s0

theorem witness_commands_ok : ∀ i : Instr, i ≠ .encodeProtoBytes → ∃ t, exec i (okState i) = .next t ∧ t.status = 0 := by
  intro i h
  cases i <;> first | exact absurd rfl h | exact ⟨_, rfl, by decide⟩

theorem witness_StepKeepsMachineInvariant :
    UnitInv (script [.write (word32 0) 0x10] (tb [560] s0)) ∧
      ∃ t, step (script [.write (word32 0) 0x10] (tb [560] s0)) = .next t :=
  ⟨⟨by unfold MemOk; decide, by unfold MemOk; decide, by unfold MemOk; decide,
      ⟨by unfold MemOk; decide, fun h => absurd h (by decide)⟩, by decide, by decide, by decide, by decide, by decide⟩,
    ⟨_, rfl⟩⟩

/-- The first and the last row; RES_LO and RES_HI apart. -/
theorem witness_RegisterReadAtItsOffset :
    (script [.read (word32 0x000)]).script = .read (word32 0x000) :: [] ∧
    (script [.read (word32 0x0B8)]).script = .read (word32 0x0B8) :: [] ∧
    holds (step (setRes (script [.read (word32 0x088)]) { ResultRegs.reset with lo := 5, hi := 6 }))
      (fun t => t.reads == [5]) = true ∧
    holds (step (setRes (script [.read (word32 0x08C)]) { ResultRegs.reset with lo := 5, hi := 6 }))
      (fun t => t.reads == [6]) = true := by decide

theorem witness_WrittenRegisterReadsBack :
    (writableReg .tbLen = true ∧
      (script [.write (word32 (4 * regno .tbLen)) 0xFFFFFFFF, .read (word32 (4 * regno .tbLen))]).script =
        .write (word32 (4 * regno .tbLen)) 0xFFFFFFFF :: .read (word32 (4 * regno .tbLen)) :: []) ∧
    (writableReg .maxSkip = true ∧
      (script [.write (word32 (4 * regno .maxSkip)) 256, .read (word32 (4 * regno .maxSkip))]).script =
        .write (word32 (4 * regno .maxSkip)) 256 :: .read (word32 (4 * regno .maxSkip)) :: []) := by decide

/-- Each clause at its ends: a read-only register at either end of the file, the OB and DRS windows, TB_LEN. -/
theorem witness_IgnoredWritesAndTbLenClamp :
    (writableReg .status = false ∧ Reg.status ≠ .cmd ∧ (4 : Nat) = 4 * regno .status ∧ 4 % 4 = 0) ∧
    (writableReg .drNbytes = false ∧ Reg.drNbytes ≠ .cmd ∧ (0xB8 : Nat) = 4 * regno .drNbytes ∧ 0xB8 % 4 = 0) ∧
    ((0x20000 : Nat) ≤ 0x2FFFC ∧ (0x2FFFC : Nat) < 0x30000 ∧ 0x2FFFC % 4 = 0) ∧
    ((0x40000 : Nat) ≤ 0x43FFC ∧ (0x43FFC : Nat) < 0x44000 ∧ 0x43FFC % 4 = 0) ∧
    ((8 : Nat) = 4 * regno .tbLen ∧ (script [.write (word32 8) 1025]).script = .write (word32 8) 1025 :: []) := by decide

/-- Each range at an end. -/
theorem witness_ReservedSpaceReadsZero :
    ∀ off ∈ [0x64, 0x7C, 0x9C, 0xBC, 0xFFFC, 0x11000, 0x1FFFC, 0x21000, 0x2FFFC, 0x30100, 0x3FFFC, 0x40100, 0x44000],
      off % 4 = 0 ∧ reservedOffset unit0 off ∧ (script [.read (word32 off)]).script = .read (word32 off) :: [] ∧
      (script [.write (word32 off) 7]).script = .write (word32 off) 7 :: [] := by unfold reservedOffset; decide

theorem witness_BufferWriteReadsBack :
    (1023 < unit0.tbCap ∧
      (script [.write (word32 (0x10000 + 4 * 1023)) 9, .read (word32 (0x10000 + 4 * 1023))]).script =
        .write (word32 (0x10000 + 4 * 1023)) 9 :: .read (word32 (0x10000 + 4 * 1023)) :: []) ∧
    (63 < unit0.baCap ∧
      (script [.write (word32 (0x30000 + 4 * 63)) 0x1FF, .read (word32 (0x30000 + 4 * 63))]).script =
        .write (word32 (0x30000 + 4 * 63)) 0x1FF :: .read (word32 (0x30000 + 4 * 63)) :: []) := by decide

/-- A state whose windows all hold something: TB and BA written, OB of V59 (OB_LEN = 2), a byte payload in DRS. -/
def windows (off : Nat) : State :=
  { script [.read (word32 off)] with
    tb := [(1023, 7)], ba := [(63, 0xA5)], ob := [(0, 1200), (1, 400)]
    res := { ResultRegs.reset with obLen := 2 }, dr := { DecodeResult.reset .first with drs := [(63, 0x5A)] } }

/-- The last element of each window; the last entry below OB_LEN. -/
theorem witness_WindowReadReturnsTheElement :
    (1023 < unit0.tbCap ∧ holds (step (windows 0x10FFC)) (fun t => t.reads == [7]) = true) ∧
    (1 < unit0.obCap ∧ 1 < (windows 0x20004).res.obLen.toNat ∧ memGet (windows 0x20004).ob 1 = some 400 ∧
      holds (step (windows 0x20004)) (fun t => t.reads == [400]) = true) ∧
    (63 < unit0.baCap ∧ holds (step (windows 0x300FC)) (fun t => t.reads == [0xA5]) = true) ∧
    holds (step (windows 0x400FC)) (fun t => t.reads == [0x5A]) = true := by decide

theorem witness_ReadsHaveNoEffectAndRepeat :
    accessLegal (word32 0x20000) = true ∧
      (script [.read (word32 0x20000), .read (word32 0x20000)]).script =
        .read (word32 0x20000) :: .read (word32 0x20000) :: [] := by decide

theorem witness_MisalignedOrNarrowAccessIsStuck :
    ((script [.read ⟨2, 4⟩]).script = .read ⟨2, 4⟩ :: [] ∧ (2 : Nat) % 4 ≠ 0) ∧
    ((script [.write ⟨4, 2⟩ 0]).script = .write ⟨4, 2⟩ 0 :: [] ∧ (2 : Nat) ≠ 4) ∧
    ((script [.write ⟨4, 4⟩ 0]).script = .write ⟨4, 4⟩ 0 :: [] ∧ (4 : Nat) % 4 = 0) := by decide

theorem witness_AlignedScriptsNeverStop :
    scriptWf (script [.write (word32 0) 0x40, .read (word32 4), .platformReset]).script = true := by decide

theorem witness_PlatformResetAndIdle :
    (script [.platformReset]).script = .platformReset :: [] ∧ s0.script = [] := by decide

theorem witness_CmdWriteRunsOneCommandOrIsIllegal :
    (script [.write (word32 0) 0x43]).script = .write (word32 0) 0x43 :: [] ∧
    ((0x43, .resetResult) : Word × Instr) ∈ ([(0x42, .encodeProtoBytes), (0x43, .resetResult)] : List (Word × Instr)) ∧
    (∀ i, ((0x44, i) : Word × Instr) ∉
      ([(0x01, .window), (0x02, .matchMark), (0x03, .matchSpace), (0x04, .matchAtLeast), (0x10, .matchData),
       (0x11, .matchBytes), (0x20, .matchGenericBits), (0x21, .matchGenericBytes), (0x22, .matchCbt),
       (0x30, .encodeGenericBits), (0x31, .encodeGenericBytes), (0x32, .encodeCbt), (0x40, .decode),
       (0x41, .encodeProtoInt), (0x42, .encodeProtoBytes), (0x43, .resetResult)] : List (Word × Instr))) := by
  refine ⟨by decide, by decide, fun i => ?_⟩
  simp

theorem witness_StepRunsDecodedCommand :
    (script [.write (word32 cmdOffset) 0x22]).script = .write (word32 cmdOffset) 0x22 :: [] ∧
      decode 0x22 = .ok .matchCbt := by decide

theorem witness_DecodeOfEncodeIsTheCommand : Instr.resetResult.wf = true := by decide

theorem witness_OnlyItsEncodingDecodesToACommand : decode 0x43 = .ok .resetResult := by decide

/-- The two clauses of the four pulse commands meet between TOL = 100 and TOL = 101. -/
theorem witness_pulse_results :
    (regs { OperandRegs.reset with tol := 100 }).regs.tol.toNat ≤ 100 ∧
      100 < (regs { OperandRegs.reset with tol := 101 }).regs.tol.toNat := by decide

theorem witness_WindowArithmeticRange :
    (2 ^ 32 - 1 < 2 ^ 32 ∧ (100 : Nat) ≤ 100) ∧ ((0 : Nat) = 0 ∧ (0 : Nat) ≤ 100) := by decide

/-- Item 5's second half holds at V18's operands' complement and fails at them. -/
theorem witness_WindowProperties :
    (matchMark 750 1000 25 0 = true ∧ (25 : Nat) ≤ 26 ∧ (26 : Nat) ≤ 100) ∧ matchSpace 1250 1000 25 7 = true ∧
      (100 + 100) * (100 - 25) / 100 > 100 ∧ (100 + 0) * (100 - 25) / 100 ≤ 100 := by decide

/-- Illegal operands at each end; too few entries by one; every bit decided (V21); the last bit not (V25). -/
theorem witness_MatchDataOutcomes :
    (100 < (regs { nec with tol := 101 }).regs.tol.toNat ∧ s0.regs.nbits.toNat < 1 ∧
      64 < (regs { nec with nbits := 65 }).regs.nbits.toNat) ∧
    remaining (tb [560, 1690, 560] (regs { nec with nbits := 2 })) < 2 * 2 - 0 ∧
    (2 * 2 - 0 ≤ remaining (okState .matchData) ∧
      ∀ k, k < 2 → bitReads (okState .matchData) 2 k (decide (k = 0))) ∧
    (2 * 2 - 0 ≤ remaining (tb [560, 1690, 560, 1200] (regs { nec with nbits := 2 })) ∧
      (∀ j, j < 1 → bitReads (tb [560, 1690, 560, 1200] (regs { nec with nbits := 2 })) 2 j (decide (j = 0))) ∧
      ¬bitReads (tb [560, 1690, 560, 1200] (regs { nec with nbits := 2 })) 2 1 true ∧
      ¬bitReads (tb [560, 1690, 560, 1200] (regs { nec with nbits := 2 })) 2 1 false) := by
  unfold bitReads; decide

def necCoding : BitCoding := ⟨560, 1690, 560, 560, 25, 0⟩

theorem witness_MatchDataProperties :
    (1 : Nat) ≤ 2 ∧ necCoding.t ≤ 100 ∧
    matchData [560, 1690, 560, 560] 0 2 necCoding true true = .ok 2 4 ∧
    matchData [560, 1690, 560, 560] 0 2 necCoding false true = .ok 1 4 ∧
    matchData [560, 1690, 560, 1200] 0 2 necCoding true true = .fail .timingMismatch ∧
    (2 * 2 - 0 ≤ [560, 1690, 560, 560].length - 0 ∧ 2 * 2 - 0 ≤ [560, 1690, 560, 560, 7].length - 0 ∧
      ∀ i, i < 2 * 2 - 0 →
        ([560, 1690, 560, 560] : List Word)[0 + i]? = ([560, 1690, 560, 560, 7] : List Word)[0 + i]?) := by decide

/-- Illegal operands; one entry short; a byte that decodes at the last BA index (V20); a byte that does not (V29c). -/
theorem witness_MatchBytesOutcomes :
    (100 < (regs { nec with tol := 101 }).regs.tol.toNat ∧ s0.regs.nbytes.toNat < 1 ∧
      unit0.baCap < (regs { nec with baOff := 64, nbytes := 1 }).regs.baOff.toNat + 1) ∧
    remaining (tb (byteA5.take 15) (regs { nec with nbytes := 1 })) < 16 * 1 - 0 ∧
    (63 + 1 ≤ unit0.baCap ∧ 16 * 1 - 0 ≤ remaining (okState .matchBytes) ∧
      ∀ j, j < 1 → matchData (tbEntries (okState .matchBytes)) (0 + 16 * j) 8 (codingOf (okState .matchBytes).regs)
        true true = .ok (0xA5#8).toNat 16) ∧
    (16 * 1 - 0 ≤ remaining (tb (byteA5.set 5 1200) (okState .matchBytes)) ∧
      matchData (tbEntries (tb (byteA5.set 5 1200) (okState .matchBytes))) (0 + 16 * 0) 8
        (codingOf (okState .matchBytes).regs) true true = .fail .timingMismatch) := by decide

/-- The two byte matchers, each after a mismatch, after a short buffer and after an illegal operand. -/
theorem witness_FailedByteMatchTouchesItsRangeOnly :
    (∃ t, exec .matchBytes (tb (byteA5.set 5 1200) (okState .matchBytes)) = .next t ∧ t.status = 2) ∧
    (∃ t, exec .matchBytes (tb (byteA5.take 15) (okState .matchBytes)) = .next t ∧ t.status = 1) ∧
    (∃ t, exec .matchGenericBytes (tb (v32.set 0 0) (okState .matchGenericBytes)) = .next t ∧ t.status = 2) ∧
    (∃ t, exec .matchGenericBytes (tb v32 (regs { v32Regs with nbits := 12 })) = .next t ∧ t.status = 7) :=
  ⟨⟨_, rfl, by decide⟩, ⟨_, rfl, by decide⟩, ⟨_, rfl, by decide⟩, ⟨_, rfl, by decide⟩⟩

theorem witness_MatchBytesProperties :
    (1 : Nat) ≤ 2 ∧ (2 : Nat) ≤ 8 ∧ necCoding.t ≤ 100 ∧
    matchBytes bytes1234 0 2 necCoding true true = .ok [0x12, 0x34] 32 ∧
    matchBytes bytes1234 0 2 necCoding false true = .ok [0x48, 0x2C] 32 ∧
    matchBytes (bytes1234.set 31 1200) 0 2 necCoding true true = .fail .timingMismatch := by decide

/-- Illegal operands at each end; one entry below the minimum (V33); a section that matches, at the minimum (V31). -/
theorem witness_MatchGenericBitsOutcomes :
    (100 < (regs { nec with tol := 101 }).regs.tol.toNat ∧ s0.regs.nbits.toNat < 1 ∧
      64 < (regs { nec with nbits := 65 }).regs.nbits.toNat) ∧
    remaining (tb (t8.take 6) (regs { necFrame with nbits := 2 })) <
      sectionMinimum (regs { necFrame with nbits := 2 }).regs ∧
    (sectionMinimum (regs { necFrame with nbits := 2 }).regs ≤
        remaining (tb (t8.take 7) (regs { necFrame with nbits := 2 })) ∧
      sectionFits (tb (t8.take 7) (regs { necFrame with nbits := 2 }))
        (bitsBody (tb (t8.take 7) (regs { necFrame with nbits := 2 }))) 2) := by
  unfold sectionFits headerFits footerFits; decide

/-- A section that does not match: its header mark (V34). -/
theorem witness_MatchGenericBitsOutcomes_mismatch :
    ∀ v, ¬sectionFits (tb (t8.set 0 6000) (regs { necFrame with nbits := 2 }))
      (bitsBody (tb (t8.set 0 6000) (regs { necFrame with nbits := 2 }))) v := by
  intro v h
  exact absurd (h.1.1 (by decide)) (by decide)

theorem witness_MatchGenericBytesOutcomes :
    (unit0.baCap < (regs { v32Regs with baOff := 63 }).regs.baOff.toNat + 16 / 8 ∧ 12 % 8 ≠ 0) ∧
    remaining (tb (v32.take 33) (regs v32Regs)) < sectionMinimum (regs v32Regs).regs ∧
    (sectionMinimum (regs v32Regs).regs ≤ remaining (okState .matchGenericBytes) ∧
      sectionFits (okState .matchGenericBytes) (bytesBody (okState .matchGenericBytes)) [0x12, 0x34]) := by
  unfold sectionFits headerFits footerFits; decide

theorem witness_MatchGenericBytesOutcomes_mismatch :
    ∀ bs, ¬sectionFits (tb (v32.set 0 0) (regs v32Regs)) (bytesBody (tb (v32.set 0 0) (regs v32Regs))) bs := by
  intro bs h
  exact absurd (h.1.1 (by decide)) (by decide)

/-- The generic matchers and MATCH_CBT with a footer mark (V44), then MATCH_CBT without one (V40). -/
theorem witness_UsedEntriesOfAMatchedFrame :
    (∃ t, exec .matchCbt (tb (c8 ++ [1200]) (regs { cbt with nbits := 4, ftrMark := 1200 })) = .next t ∧
      t.status = 0) ∧
    (∃ t, exec .matchCbt (okState .matchCbt) = .next t ∧ t.status = 0 ∧ (okState .matchCbt).regs.ftrMark = 0) :=
  ⟨⟨_, rfl, by decide⟩, ⟨_, rfl, by decide, by decide⟩⟩

theorem witness_CbtWithFooterIsGeneric : (regs { cbt with ftrMark := 1200 }).regs.ftrMark ≠ 0 := by decide

/-- Illegal operands; one entry below the minimum (V48); a frame that matches, its trailing space there (V40) and not
(V41). -/
theorem witness_CbtWithoutFooterInfersFinalBit :
    (okState .matchCbt).regs.ftrMark = 0 ∧ s0.regs.nbits.toNat < 1 ∧
    remaining (tb (c8.take 6) (regs { cbt with nbits := 4 })) < cbtMinimum (regs { cbt with nbits := 4 }).regs ∧
    (cbtMinimum (okState .matchCbt).regs ≤ remaining (okState .matchCbt) ∧ headerFits (okState .matchCbt) ∧
      cbtOrdinaryFits (okState .matchCbt) 5 ∧ cbtFinalFits (okState .matchCbt) 6 false) ∧
    (headerFits (tb (c8.take 7) (okState .matchCbt)) ∧ cbtOrdinaryFits (tb (c8.take 7) (okState .matchCbt)) 5 ∧
      cbtFinalFits (tb (c8.take 7) (okState .matchCbt)) 6 false) := by
  unfold headerFits cbtOrdinaryFits cbtFinalFits; decide

/-- The wrong trailing space (V42). -/
theorem witness_CbtWithoutFooterInfersFinalBit_mismatch :
    ∀ (w : Nat) (b : Bool), ¬(headerFits (tb (c8.set 7 400) (okState .matchCbt)) ∧
      cbtOrdinaryFits (tb (c8.set 7 400) (okState .matchCbt)) w ∧
      cbtFinalFits (tb (c8.set 7 400) (okState .matchCbt)) 6 b) := by
  rintro w b ⟨-, -, h⟩
  cases b
  · exact absurd (h.2 (by decide)) (by decide)
  · exact absurd h.1 (by decide)

def cbtArgs : FrameArgs := ⟨2000, 1000, ⟨1200, 0, 400, 0, 25, 0⟩, 0, 0, false, true, false⟩

/-- With a header and without one; a body that decodes and one that does not (its last space, V42). -/
theorem witness_CbtAgreesWithPairDecoder :
    cbtArgs.coding.t ≤ 100 ∧ cbtArgs.fm = 0 ∧ 1 + 1 + 2 * 4 ≤ ([2000, 1000] ++ c8 : List Word).length - 0 ∧
    matchMark (entry ([2000, 1000] ++ c8) 0) cbtArgs.hm 25 0 = true ∧
    matchSpace (entry ([2000, 1000] ++ c8) (0 + 1)) cbtArgs.hs 25 0 = true ∧
    matchData ([2000, 1000] ++ c8) (0 + 2) 4 (cbtCoding cbtArgs.coding) true true = .ok 10 8 ∧
    matchData ([2000, 1000] ++ c8.set 7 400) (0 + 2) 4 (cbtCoding cbtArgs.coding) true true = .fail .timingMismatch ∧
    matchData c8 (0 + 0) 4 (cbtCoding { cbtArgs with hm := 0, hs := 0 }.coding) true true = .ok 10 8 ∧
    (∀ m, ¬(matchMark m cbtArgs.coding.om cbtArgs.coding.t cbtArgs.coding.x = true ∧
      matchMark m cbtArgs.coding.zm cbtArgs.coding.t cbtArgs.coding.x = true)) ∧
    (∀ m, ¬(matchSpace m cbtArgs.coding.om cbtArgs.coding.t cbtArgs.coding.x = true ∧
      matchSpace m cbtArgs.coding.zm cbtArgs.coding.t cbtArgs.coding.x = true)) := by
  refine ⟨by decide, by decide, by decide, by decide, by decide, by decide, by decide, by decide, fun m => ?_,
    fun m => ?_⟩
  · simp [matchMark, window, cbtArgs]; omega
  · simp [matchSpace, matchMark, window, cbtArgs]; omega

/-- The clauses of the two integer encoders meet at NBITS = 0, 1, 64, 65. -/
theorem witness_EncodeBits_and_Cbt_Outcomes :
    s0.regs.nbits.toNat < 1 ∧ 64 < (regs { nec with nbits := 65 }).regs.nbits.toNat ∧
    (1 ≤ (regs { nec with nbits := 1 }).regs.nbits.toNat ∧ (regs { nec with nbits := 1 }).regs.nbits.toNat ≤ 64) ∧
    (1 ≤ (regs { nec with nbits := 64 }).regs.nbits.toNat ∧ (regs { nec with nbits := 64 }).regs.nbits.toNat ≤ 64) := by
  decide

theorem witness_EncodeGenericBytesOutcomes :
    (s0.regs.nbits.toNat = 0 ∧ 12 % 8 ≠ 0 ∧ unit0.baCap < 63 + 16 / 8) ∧
    ((regs { v32Regs with baOff := 62 }).regs.nbits.toNat % 8 = 0 ∧ 62 + 16 / 8 ≤ unit0.baCap) := by decide

/-- The state after an encoder and the state a round trip matches in (R191). -/
def copied (t : State) : State :=
  { t with regs := { t.regs with tbLen := t.res.obLen, cursor := 0 }, tb := cells 0 (obWords t) }

def after (i : Instr) (s : State) : State :=
  match exec i s with
  | .next t => t
  | _ => s

theorem witness_EncodedLength :
    ∀ i, i = .encodeGenericBits ∨ i = .encodeGenericBytes ∨ i = .encodeCbt →
      ∃ t, exec i (okState i) = .next t ∧ t.status = 0 := by
  rintro i (rfl | rfl | rfl) <;> exact ⟨_, rfl, by decide⟩

theorem witness_GenericBitsRoundTrip :
    exec .encodeGenericBits (okState .encodeGenericBits) =
      .next (after .encodeGenericBits (okState .encodeGenericBits)) ∧
    (after .encodeGenericBits (okState .encodeGenericBits)).status = 0 ∧
    CopiedBack (after .encodeGenericBits (okState .encodeGenericBits))
      (copied (after .encodeGenericBits (okState .encodeGenericBits))) ∧
    (okState .encodeGenericBits).regs.tol.toNat ≤ 100 ∧ PairsApart (okState .encodeGenericBits).regs ∧
    GapOwn unit0 (okState .encodeGenericBits).regs ∧
    MarksOwn (okState .encodeGenericBits).regs 2
      (fun k => ((okState .encodeGenericBits).regs.valHi ++ (okState .encodeGenericBits).regs.valLo).getLsbD k) := by
  refine ⟨rfl, by decide, ⟨rfl, rfl, by decide⟩, by decide, ?_, fun _ => .inl rfl, ?_⟩
  · unfold PairsApart; decide
  · unfold MarksOwn ownMark; decide

theorem witness_GenericBytesRoundTrip :
    exec .encodeGenericBytes (okState .encodeGenericBytes) =
      .next (after .encodeGenericBytes (okState .encodeGenericBytes)) ∧
    (after .encodeGenericBytes (okState .encodeGenericBytes)).status = 0 ∧
    CopiedBack (after .encodeGenericBytes (okState .encodeGenericBytes))
      (copied (after .encodeGenericBytes (okState .encodeGenericBytes))) ∧
    (okState .encodeGenericBytes).regs.tol.toNat ≤ 100 ∧ PairsApart (okState .encodeGenericBytes).regs ∧
    GapOwn unit0 (okState .encodeGenericBytes).regs ∧
    MarksOwn (okState .encodeGenericBytes).regs 16
      (fun k => (readBa (okState .encodeGenericBytes) (0 + k / 8)).getLsbD (k % 8)) := by
  refine ⟨rfl, by decide, ⟨rfl, rfl, by decide⟩, by decide, ?_, fun _ => .inl rfl, ?_⟩
  · unfold PairsApart; decide
  · unfold MarksOwn ownMark; decide

/-- The premises of CbtRoundTrip, with the encoder run on `s` and its OB copied back. -/
def CbtRoundTripPremises (s : State) : Prop :=
  exec .encodeCbt s = .next (after .encodeCbt s) ∧ (after .encodeCbt s).status = 0 ∧
    CopiedBack (after .encodeCbt s) (copied (after .encodeCbt s)) ∧ s.regs.tol.toNat ≤ 100 ∧
    (s.regs.ftrMark ≠ 0 → GapOwn s.build s.regs) ∧
    matchMark s.regs.zeroMark.toNat s.regs.oneMark.toNat s.regs.tol.toNat s.regs.excess.toNat = false ∧
    MarksOwn s.regs s.regs.nbits.toNat (fun k => (s.regs.valHi ++ s.regs.valLo).getLsbD k)

/-- No footer at all; a footer space without a footer mark, whose gap MATCH_CBT ignores (log 20); a footer mark and a
gap, after a header. -/
def cbtGapState : State := regs { cbt with nbits := 4, valLo := 10, ftrSpace := 5000 }

def cbtFooterState : State :=
  regs { desc 2000 1000 1200 0 400 0 400 5000 with nbits := 3, valLo := 3, cfg := 0xC, repeatCount := 1 }

theorem witness_CbtRoundTrip : CbtRoundTripPremises (okState .encodeCbt) := by
  refine ⟨rfl, by decide, ⟨rfl, rfl, by decide⟩, by decide, fun _ _ => .inl rfl, by decide, ?_⟩
  unfold MarksOwn ownMark; decide

theorem witness_CbtRoundTrip_gap_ignored :
    CbtRoundTripPremises cbtGapState ∧ cbtGapState.regs.ftrMark = 0 ∧ cbtGapState.regs.ftrSpace ≠ 0 ∧
    sectionEntries cbtGapState.regs 4 = 9 ∧
    holds (exec .matchCbt (copied (after .encodeCbt cbtGapState))) (fun t => intOut t 0 1 8 10) = true := by
  refine ⟨⟨rfl, by decide, ⟨rfl, rfl, by decide⟩, by decide, fun _ _ => .inl rfl, by decide, ?_⟩, by decide, by decide,
    by decide, by decide⟩
  unfold MarksOwn ownMark; decide

theorem witness_CbtRoundTrip_footer :
    CbtRoundTripPremises cbtFooterState ∧ cbtFooterState.regs.ftrMark ≠ 0 ∧
    sectionEntries cbtFooterState.regs 3 = 10 ∧
    holds (exec .matchCbt (copied (after .encodeCbt cbtFooterState))) (fun t => intOut t 0 1 10 3) = true := by
  refine ⟨⟨rfl, by decide, ⟨rfl, rfl, by decide⟩, by decide, fun _ _ => .inl rfl, by decide, ?_⟩, by decide, by decide,
    by decide⟩
  unfold MarksOwn ownMark; decide

/-- A one-byte frame in byte mode (R201) for the byte-payload clauses. -/
def dBytes : Descriptor := ⟨.generic, 0, 0, 560, 1690, 560, 560, 0, 0, 8, true, false, 25, 0⟩

def unitBytes : Build := unitWith ⟨[.desc 1 dA, .bytesDesc 2 dBytes], by decide⟩

def dCbt : Descriptor := ⟨.cbt, 0, 0, 1200, 0, 400, 0, 0, 0, 4, true, false, 25, 0⟩

/-- A generic and a constant-bit-time descriptor, each in the registers, where the matcher succeeds. -/
theorem witness_ReferenceProtocolIsItsDescriptor :
    (dA.legal = true ∧ DescriptorLoaded { necFrame with nbits := 2, cfg := 0xF } dA ∧
      ∃ t, exec .matchGenericBits (tb t8 (regs { necFrame with nbits := 2, cfg := 0xF })) = .next t ∧ t.status = 0) ∧
    (dCbt.legal = true ∧ DescriptorLoaded { cbt with nbits := 4 } dCbt ∧
      ∃ t, exec .matchCbt (okState .matchCbt) = .next t ∧ t.status = 0) := by
  unfold DescriptorLoaded
  exact ⟨⟨by decide, by decide, _, rfl, by decide⟩, by decide, by decide, _, rfl, by decide⟩

/-- A success with an integer payload at offset 0 (V60) and at the last offset, 1, after a failure at 0 (V64a). -/
theorem witness_DecodeIsAPrioritySearch_int :
    (entryDec unitA (.desc 1 dA) t8 0 true = some ⟨2, .int 2, .first⟩ ∧ unitA.table.entries = [] ++ .desc 1 dA :: []) ∧
    (entryDec unitA (.desc 1 dA) (560 :: t8) 1 true = some ⟨2, .int 2, .first⟩ ∧ 1 ≤ (1#8).toNat ∧
      ∀ q ∈ unitA.table.entries, entryDec unitA q (560 :: t8) 0 true = none) := by decide

/-- A success with a byte payload by the second entry; no success at any offset (V63). -/
theorem witness_DecodeIsAPrioritySearch_bytes :
    (entryDec unitBytes (.bytesDesc 2 dBytes) byteA5 0 true = some ⟨8, .bytes [0xA5], .first⟩ ∧
      unitBytes.table.entries = [.desc 1 dA] ++ .bytesDesc 2 dBytes :: [] ∧
      ∀ q ∈ [ProtoEntry.desc 1 dA], entryDec unitBytes q byteA5 0 true = none) ∧
    (∀ q ∈ unitBytes.table.entries, entryDec unitBytes q [100, 100] 0 true = none) := by decide

/-- Two states that agree on DECODE's operands and differ elsewhere. -/
theorem witness_DecodeDependsOnItsOperandsOnly :
    (okState .decode).build = (setRes (okState .decode) { ResultRegs.reset with used := 7 }).build ∧
    (∃ t, exec .decode (okState .decode) = .next t ∧ t.status = 0) ∧
    (∃ t, exec .decode (setRes (okState .decode) { ResultRegs.reset with used := 7 }) = .next t ∧ t.status = 0) :=
  ⟨rfl, ⟨_, rfl, by decide⟩, ⟨_, rfl, by decide⟩⟩

/-- An identity no entry has; one whose encoder gives entries (V65); one whose encoder gives none. -/
theorem witness_EncodeProtoIntOutcomes :
    (∀ p ∈ unitBytes.table.entries, p.id ≠ 7) ∧
    (.desc 1 dA ∈ unitBytes.table.entries ∧ entryEnc (.desc 1 dA) (.int 2) 0 = t8) ∧
    (.bytesDesc 2 dBytes ∈ unitBytes.table.entries ∧ entryEnc (.bytesDesc 2 dBytes) (.int 2) 0 = []) := by decide

/-- The range check's two sides; an unknown identity; an encoder that gives entries; one that gives none (V67). -/
theorem witness_EncodeProtoBytesOutcomes :
    (unitBytes.baCap < 64 + 1 ∧ 63 + 1 ≤ unitBytes.baCap) ∧ (∀ p ∈ unitBytes.table.entries, p.id ≠ 7) ∧
    (.bytesDesc 2 dBytes ∈ unitBytes.table.entries ∧
      entryEnc (.bytesDesc 2 dBytes) (.bytes [0xA5]) 0 = byteA5) ∧
    (.desc 1 dA ∈ unitBytes.table.entries ∧ entryEnc (.desc 1 dA) (.bytes [0xA5]) 0 = []) := by decide

/-- ENCODE_PROTO_BYTES completes with its own effect. -/
theorem witness_encodeProtoBytes_ok :
    ∃ t, exec .encodeProtoBytes
        (ba [0xA5] (regs { OperandRegs.reset with protoId := 2, nbytes := 1 } (State.resetOf unitBytes))) = .next t ∧
      t.status = 0 ∧ obWords t = byteA5 := ⟨_, rfl, by decide, by decide⟩

theorem witness_UnknownIdentityIsUnsupported :
    s0.regs.protoId = 0xFFFF ∧ s0.regs.baOff.toNat + s0.regs.nbytes.toNat ≤ s0.build.baCap := by decide

/-- For the frames and the whole-machine rules: every command answers a next state; the groups' members, OK and not. -/
theorem witness_frames :
    (∀ (i : Instr) (s : State), ∃ t, exec i s = .next t) ∧ (∃ t, exec .matchData s0 = .next t ∧ t.status = 7) ∧
      (∃ t, exec .decode s0 = .next t ∧ t.status = 5) :=
  ⟨fun i s => by cases i <;> exact ⟨_, rfl⟩, ⟨_, rfl, by decide⟩, ⟨_, rfl, by decide⟩⟩

theorem witness_TableAndTbAreNotWritten : ∃ t, step (script [.write (word32 0x10000) 9]) = .next t := ⟨_, rfl⟩

end Sys2Proof.Tests
end

section
/-! How a command can end: one inversion of `exec` (R82, R233), and what every ending leaves as it was. Each family of
commands has a predicate on the states before and after, stated with the operations of Machine/Ops. -/

namespace Sys2Proof.Machine

/-! ### Operand legality (R232) -/

theorem tolLegal_iff (r : OperandRegs) : tolLegal r = true ↔ r.tol.toNat ≤ 100 := by simp [tolLegal]

theorem bitsLegal_iff (n : Nat) : bitsLegal n = true ↔ 1 ≤ n ∧ n ≤ 64 := by simp [bitsLegal]

theorem byteBitsLegal_iff (n : Nat) : byteBitsLegal n = true ↔ n ≠ 0 ∧ n % 8 = 0 := by simp [byteBitsLegal]

theorem rangeLegal_iff (b : Build) (off len : Nat) : rangeLegal b off len = true ↔ off + len ≤ b.baCap := by
  simp [rangeLegal]

theorem intMatchLegal_iff (r : OperandRegs) :
    intMatchLegal r = true ↔ r.tol.toNat ≤ 100 ∧ 1 ≤ r.nbits.toNat ∧ r.nbits.toNat ≤ 64 := by
  rw [intMatchLegal, Bool.and_eq_true, tolLegal_iff, bitsLegal_iff]

theorem byteMatchLegal_iff (b : Build) (r : OperandRegs) :
    byteMatchLegal b r = true ↔
      r.tol.toNat ≤ 100 ∧ 1 ≤ r.nbytes.toNat ∧ r.baOff.toNat + r.nbytes.toNat ≤ b.baCap := by
  rw [byteMatchLegal, Bool.and_eq_true, Bool.and_eq_true, tolLegal_iff, decide_eq_true_iff, rangeLegal_iff, and_assoc]

theorem byteFrameLegal_iff (b : Build) (r : OperandRegs) :
    byteFrameLegal b r = true ↔
      r.tol.toNat ≤ 100 ∧ (r.nbits.toNat ≠ 0 ∧ r.nbits.toNat % 8 = 0) ∧
        r.baOff.toNat + r.nbits.toNat / 8 ≤ b.baCap := by
  rw [byteFrameLegal, Bool.and_eq_true, Bool.and_eq_true, tolLegal_iff, byteBitsLegal_iff, rangeLegal_iff, and_assoc]

/-! ### The endings of each family -/

/-- An entry count that a successful matcher can report: at least one entry, and no more than are valid. -/
def UsedInTb (s : State) (u : Nat) : Prop := 1 ≤ u ∧ u ≤ s.regs.tbLen.toNat

/-- How WINDOW ends (R103, R233). -/
def WindowEnds (s t : State) : Prop :=
  (∃ lo hi, t = finishOk (setRes s (withResult2 (withResult s.res lo) hi))) ∨
  ∃ c, c ≠ .ok ∧ t = raiseWindow c s

/-- How a pulse command ends (R105, R107, R109, R233). -/
def PulseEnds (s t : State) : Prop :=
  t = finishOk (setRes s (withMatched s.res true)) ∨ ∃ c, c ≠ .ok ∧ t = raisePulse c s

/-- How an integer matcher ends (R122, R144, R162, R233). -/
def IntMatchEnds (s t : State) : Prop :=
  (∃ v u, UsedInTb s u ∧ t = finishOk (setRes s (withResult (withUsed (withMatched s.res true) u) v))) ∨
  ∃ c, c ≠ .ok ∧ t = raiseInt c s

/-- How a byte matcher ends (R125, R126, R146, R233): the bytes it writes, known or free, lie within BA_CAP. -/
def ByteMatchEnds (s t : State) : Prop :=
  (∃ off bs u, off + bs.length ≤ s.build.baCap ∧ UsedInTb s u ∧
    t = finishOk (setRes (writeBytes s off bs) (withUsed (withMatched s.res true) u))) ∨
  (∃ off len, off + len ≤ s.build.baCap ∧ t = raiseBytes .timingMismatch (anyBytes s off len)) ∨
  ∃ c, c ≠ .ok ∧ t = raiseBytes c s

/-- How DECODE ends (R205): with a record of R200's bound from an entry of PT, or NO_MATCH. -/
def DecodeEnds (s t : State) : Prop :=
  (∃ p ∈ s.build.table.entries, ∃ rec, recordLegal s.build rec = true ∧
    t = finishOk (setDr s (recordDr s.build p.id rec))) ∨
  t = raise .noMatch (anyDr s)

/-- Every way a command can end, by family. -/
inductive CommandEnds (i : Instr) (s t : State) : Prop
  | window (hi : i = .window) (ht : WindowEnds s t)
  | pulse (hi : i = .matchMark ∨ i = .matchSpace ∨ i = .matchAtLeast) (ht : PulseEnds s t)
  | intMatch (hi : i = .matchData ∨ i = .matchGenericBits ∨ i = .matchCbt) (ht : IntMatchEnds s t)
  | byteMatch (hi : i = .matchBytes ∨ i = .matchGenericBytes) (ht : ByteMatchEnds s t)
  | encode
      (hi : i = .encodeGenericBits ∨ i = .encodeGenericBytes ∨ i = .encodeCbt ∨ i = .encodeProtoInt ∨
        i = .encodeProtoBytes)
      (ht : EncodeEnds s t)
  | decode (hi : i = .decode) (ht : DecodeEnds s t)
  | resetResult (hi : i = .resetResult) (ht : t = finishOk (resetDr s))

theorem missStatus_ne_ok (w : Miss) : missStatus w ≠ .ok := by cases w <;> decide

/-- Entries consumed from the cursor on are valid ones. -/
theorem usedInTb_of_le {s : State} {u : Nat} (h1 : 1 ≤ u) (h : u ≤ (tbEntries s).length - s.regs.cursor.toNat) :
    UsedInTb s u := by
  rw [tbEntries_length] at h
  exact ⟨h1, by omega⟩

theorem windowCommand_ends (lo hi : Nat) (s : State) :
    WindowEnds s (if tolLegal s.regs then finishOk (setRes s (withResult2 (withResult s.res lo) hi))
      else raiseWindow .illegalOperand s) := by
  split
  · exact .inl ⟨lo, hi, rfl⟩
  · exact .inr ⟨.illegalOperand, by decide, rfl⟩

theorem pulseCommand_ends (r : Bool) (s : State) : PulseEnds s (pulseCommand r s) := by
  unfold pulseCommand
  split
  · split
    · exact .inl rfl
    · exact .inr ⟨.timingMismatch, by decide, rfl⟩
  · exact .inr ⟨.illegalOperand, by decide, rfl⟩

/-- An integer matcher's command ends as its family does when its matcher, with a bit count of at least 1, consumes
valid entries. -/
theorem intMatchCommand_ends {m : Match Nat} {s : State}
    (hm : 1 ≤ s.regs.nbits.toNat → ∀ v u, m = .ok v u → UsedInTb s u) :
    IntMatchEnds s (if intMatchLegal s.regs then finishInt m s else raiseInt .illegalOperand s) := by
  split
  · rename_i hlegal
    obtain ⟨-, hn, -⟩ := (intMatchLegal_iff _).1 hlegal
    cases m with
    | ok v u => exact .inl ⟨v, u, hm hn v u rfl, rfl⟩
    | fail w => exact .inr ⟨missStatus w, missStatus_ne_ok w, rfl⟩
  · exact .inr ⟨.illegalOperand, by decide, rfl⟩

/-- A byte matcher ends as its family does when its target range fits, and it gives the bytes of that range from valid
entries. -/
theorem finishBytes_ends {off len : Nat} {m : Match (List Byte)} {s : State} (hcap : off + len ≤ s.build.baCap)
    (hm : ∀ bs u, m = .ok bs u → bs.length = len ∧ UsedInTb s u) :
    ByteMatchEnds s (finishBytes off len m s) := by
  rcases finishBytes_cases off len m s with ⟨-, h⟩ | ⟨-, h⟩ | ⟨bs, u, hok, h⟩
  · exact .inr (.inr ⟨_, by decide, h⟩)
  · exact .inr (.inl ⟨off, len, hcap, h⟩)
  · obtain ⟨hlen, hu⟩ := hm bs u hok
    exact .inl ⟨off, bs, u, by omega, hu, h⟩

theorem execMatchData_ends {s t : State} (h : execMatchData s = .next t) : IntMatchEnds s t := by
  cases h
  refine intMatchCommand_ends fun hn v u hok => ?_
  obtain ⟨-, hu, hle⟩ := matchData_ok hok
  exact usedInTb_of_le (by simp only [hu, entriesOf]; omega) (by omega)

theorem execMatchGenericBits_ends {s t : State} (h : execMatchGenericBits s = .next t) : IntMatchEnds s t := by
  cases h
  refine intMatchCommand_ends fun hn v u hok => ?_
  obtain ⟨-, hu, hle⟩ := matchGenericBits_ok hok
  exact usedInTb_of_le (by simp only [hu, frameMin]; omega) hle

theorem execMatchCbt_ends {s t : State} (h : execMatchCbt s = .next t) : IntMatchEnds s t := by
  cases h
  refine intMatchCommand_ends fun hn v u hok => ?_
  obtain ⟨-, h1, hle⟩ := matchCbt_ok hn hok
  exact usedInTb_of_le h1 hle

theorem execMatchBytes_ends {s t : State} (h : execMatchBytes s = .next t) : ByteMatchEnds s t := by
  cases h
  split
  · rename_i hlegal
    obtain ⟨-, hn, hcap⟩ := (byteMatchLegal_iff _ _).1 hlegal
    refine finishBytes_ends hcap fun bs u hok => ?_
    obtain ⟨hlen, hu, hle⟩ := matchBytes_ok hok
    exact ⟨hlen, usedInTb_of_le (by simp only [hu, entriesOf]; omega) (by omega)⟩
  · exact .inr (.inr ⟨.illegalOperand, by decide, rfl⟩)

theorem execMatchGenericBytes_ends {s t : State} (h : execMatchGenericBytes s = .next t) : ByteMatchEnds s t := by
  cases h
  split
  · rename_i hlegal
    obtain ⟨-, ⟨hn, h8⟩, hcap⟩ := (byteFrameLegal_iff _ _).1 hlegal
    refine finishBytes_ends hcap fun bs u hok => ?_
    obtain ⟨hlen, hu, hle⟩ := matchGenericBytes_ok h8 hok
    exact ⟨hlen, usedInTb_of_le (by simp only [hu, frameMin]; omega) hle⟩
  · exact .inr (.inr ⟨.illegalOperand, by decide, rfl⟩)

/-- An encoder's command with operands that are not legal fails, and otherwise ends as its encoder does. -/
theorem encodeCommand_ends (legal : Bool) {s t : State} (ht : EncodeEnds s t) :
    EncodeEnds s (if legal then t else raiseEncode .illegalOperand s) := by
  split
  · exact ht
  · exact .inl ⟨.illegalOperand, rfl⟩

theorem execDecode_ends {s t : State} (h : execDecode s = .next t) : DecodeEnds s t := by
  cases h
  split
  · exact .inr rfl
  · rename_i found hfound
    obtain ⟨off, -, p, hp, hid, hdec, -⟩ := dispatch_some hfound
    exact .inl ⟨p, hp, found.2, entryDec_legal hdec, by rw [hid]⟩

/-- The inversion of `exec`: every command ends as its family does. -/
theorem exec_ends {i : Instr} {s t : State} (h : exec i s = .next t) : CommandEnds i s t := by
  cases i with
  | window => cases h; exact .window rfl (windowCommand_ends _ _ s)
  | matchMark => cases h; exact .pulse (by simp) (pulseCommand_ends _ s)
  | matchSpace => cases h; exact .pulse (by simp) (pulseCommand_ends _ s)
  | matchAtLeast => cases h; exact .pulse (by simp) (pulseCommand_ends _ s)
  | matchData => exact .intMatch (by simp) (execMatchData_ends h)
  | matchBytes => exact .byteMatch (by simp) (execMatchBytes_ends h)
  | matchGenericBits => exact .intMatch (by simp) (execMatchGenericBits_ends h)
  | matchGenericBytes => exact .byteMatch (by simp) (execMatchGenericBytes_ends h)
  | matchCbt => exact .intMatch (by simp) (execMatchCbt_ends h)
  | encodeGenericBits => cases h; exact .encode (by simp) (encodeCommand_ends _ (writeOutput_ends _ s))
  | encodeGenericBytes => cases h; exact .encode (by simp) (encodeCommand_ends _ (writeOutput_ends _ s))
  | encodeCbt => cases h; exact .encode (by simp) (encodeCommand_ends _ (writeOutput_ends _ s))
  | decode => exact .decode rfl (execDecode_ends h)
  | encodeProtoInt => cases h; exact .encode (by simp) (encodeProto_ends _ s)
  | encodeProtoBytes => cases h; exact .encode (by simp) (encodeCommand_ends _ (encodeProto_ends _ s))
  | resetResult => cases h; exact .resetResult rfl rfl

/-! ### What no command changes -/

/-- The parts of the state that no command writes: the operand registers, CMD, the build, TB and the host's side. -/
structure KeepsOperandSide (s t : State) : Prop where
  regs : t.regs = s.regs
  cmd : t.cmd = s.cmd
  build : t.build = s.build
  script : t.script = s.script
  reads : t.reads = s.reads
  resetEpoch : t.resetEpoch = s.resetEpoch
  tb : t.tb = s.tb

theorem KeepsOperandSide.readTb {s t : State} (h : KeepsOperandSide s t) (j : Nat) : readTb t j = readTb s j :=
  readTb_congr h.tb h.resetEpoch j

/-- R22, R61, R266: no command writes the operand side. -/
theorem exec_keepsOperandSide {i : Instr} {s t : State} (h : exec i s = .next t) : KeepsOperandSide s t := by
  have hrefl : KeepsOperandSide s s := ⟨rfl, rfl, rfl, rfl, rfl, rfl, rfl⟩
  cases exec_ends h with
  | window _ ht => obtain ⟨lo, hi, rfl⟩ | ⟨c, -, rfl⟩ := ht <;> exact { hrefl with }
  | pulse _ ht => obtain rfl | ⟨c, -, rfl⟩ := ht <;> exact { hrefl with }
  | intMatch _ ht => obtain ⟨v, u, -, rfl⟩ | ⟨c, -, rfl⟩ := ht <;> exact { hrefl with }
  | byteMatch _ ht =>
    obtain ⟨off, bs, u, -, -, rfl⟩ | ⟨off, len, -, rfl⟩ | ⟨c, -, rfl⟩ := ht <;> exact { hrefl with }
  | encode _ ht => obtain ⟨c, rfl⟩ | ⟨seq, -, rfl⟩ := ht <;> exact { hrefl with }
  | decode _ ht => obtain ⟨p, -, rec, -, rfl⟩ | rfl := ht <;> exact { hrefl with }
  | resetResult _ ht => subst ht; exact { hrefl with }

/-- Only DECODE and RESET_RESULT write the Decode Result (R35). -/
theorem exec_keepsDr {i : Instr} {s t : State} (h : exec i s = .next t) (hd : i ≠ .decode)
    (hr : i ≠ .resetResult) : t.dr = s.dr := by
  cases exec_ends h with
  | window _ ht => obtain ⟨lo, hi, rfl⟩ | ⟨c, -, rfl⟩ := ht <;> rfl
  | pulse _ ht => obtain rfl | ⟨c, -, rfl⟩ := ht <;> rfl
  | intMatch _ ht => obtain ⟨v, u, -, rfl⟩ | ⟨c, -, rfl⟩ := ht <;> rfl
  | byteMatch _ ht => obtain ⟨off, bs, u, -, -, rfl⟩ | ⟨off, len, -, rfl⟩ | ⟨c, -, rfl⟩ := ht <;> rfl
  | encode _ ht => obtain ⟨c, rfl⟩ | ⟨seq, -, rfl⟩ := ht <;> rfl
  | decode hi _ => exact absurd hi hd
  | resetResult hi _ => exact absurd hi hr

/-- DECODE and RESET_RESULT write no result register and no byte of OB or BA (R205, R212). -/
theorem exec_dr_keepsResults {i : Instr} {s t : State} (h : exec i s = .next t)
    (hi : i = .decode ∨ i = .resetResult) : t.res = s.res ∧ t.ob = s.ob ∧ t.ba = s.ba := by
  obtain rfl | rfl := hi
  · obtain ⟨p, -, rec, -, rfl⟩ | rfl := execDecode_ends h <;> exact ⟨rfl, rfl, rfl⟩
  · cases h
    exact ⟨rfl, rfl, rfl⟩

end Sys2Proof.Machine
end

section
/-! RES_MATCH and RES_USED against STATUS (R29, R30). -/

namespace Sys2Proof.Machine

theorem statusCode_eq_zero (c : Status) : statusCode c = 0 ↔ c = .ok := by cases c <;> decide

theorem flagBit_eq_one (b : Bool) : flagBit b = 1 ↔ b = true := by cases b <;> decide

theorem flagBit_eq_zero (b : Bool) : flagBit b = 0 ↔ b = false := by cases b <;> decide

/-- RES_MATCH says whether STATUS is OK. -/
def MatchTellsStatus (t : State) : Prop :=
  (t.res.matched = 1 ↔ t.status = 0) ∧ (t.res.matched = 0 ↔ t.status ≠ 0)

/-- RES_USED is 0 exactly when STATUS is not OK. -/
def UsedTellsStatus (t : State) : Prop := t.res.used = 0 ↔ t.status ≠ 0

theorem matchTellsStatus_of_success {t : State} (hm : t.res.matched = flagBit true) (hs : t.status = 0) :
    MatchTellsStatus t := by
  rw [MatchTellsStatus, hm, hs]
  decide

theorem matchTellsStatus_of_failure {t : State} {c : Status} (hm : t.res.matched = flagBit false)
    (hs : t.status = statusCode c) (hc : c ≠ .ok) : MatchTellsStatus t := by
  rw [MatchTellsStatus, hm, hs, ne_eq, statusCode_eq_zero, flagBit_eq_one, flagBit_eq_zero]
  simp [hc]

/-- RES_USED holds a nonzero count of valid entries, since TB_LEN has 16 bits. -/
theorem usedTellsStatus_of_success {s t : State} {u : Nat} (hu : UsedInTb s u) (ht : t.res.used = BitVec.ofNat 16 u)
    (hs : t.status = 0) : UsedTellsStatus t := by
  obtain ⟨h1, hle⟩ := hu
  have hlt := s.regs.tbLen.isLt
  have hne : BitVec.ofNat 16 u ≠ 0 := fun h => by
    have h0 : u = 0 := by simpa [Nat.mod_eq_of_lt (show u < 65536 by omega)] using congrArg BitVec.toNat h
    omega
  exact iff_of_false (ht ▸ hne) (not_not_intro hs)

theorem usedTellsStatus_of_failure {t : State} {c : Status} (hu : t.res.used = 0) (hs : t.status = statusCode c)
    (hc : c ≠ .ok) : UsedTellsStatus t := by
  exact iff_of_true hu (by rwa [hs, ne_eq, statusCode_eq_zero])

theorem PulseEnds.matchTellsStatus {s t : State} (h : PulseEnds s t) : MatchTellsStatus t := by
  obtain rfl | ⟨c, hc, rfl⟩ := h
  · exact matchTellsStatus_of_success rfl rfl
  · exact matchTellsStatus_of_failure rfl rfl hc

theorem IntMatchEnds.tellsStatus {s t : State} (h : IntMatchEnds s t) : MatchTellsStatus t ∧ UsedTellsStatus t := by
  obtain ⟨v, u, hu, rfl⟩ | ⟨c, hc, rfl⟩ := h
  · exact ⟨matchTellsStatus_of_success rfl rfl, usedTellsStatus_of_success hu rfl rfl⟩
  · exact ⟨matchTellsStatus_of_failure rfl rfl hc, usedTellsStatus_of_failure rfl rfl hc⟩

theorem ByteMatchEnds.tellsStatus {s t : State} (h : ByteMatchEnds s t) :
    MatchTellsStatus t ∧ UsedTellsStatus t := by
  obtain ⟨off, bs, u, -, hu, rfl⟩ | ⟨off, len, -, rfl⟩ | ⟨c, hc, rfl⟩ := h
  · exact ⟨matchTellsStatus_of_success rfl rfl, usedTellsStatus_of_success hu rfl rfl⟩
  · have hc : Status.timingMismatch ≠ .ok := by decide
    exact ⟨matchTellsStatus_of_failure rfl rfl hc, usedTellsStatus_of_failure rfl rfl hc⟩
  · exact ⟨matchTellsStatus_of_failure rfl rfl hc, usedTellsStatus_of_failure rfl rfl hc⟩

/-- The commands that write RES_USED are the integer and the byte matchers (R30). -/
theorem exec_matcher_tellsStatus {i : Instr} {s t : State} (h : exec i s = .next t)
    (hi : i = .matchData ∨ i = .matchBytes ∨ i = .matchGenericBits ∨ i = .matchGenericBytes ∨ i = .matchCbt) :
    MatchTellsStatus t ∧ UsedTellsStatus t := by
  rcases hi with rfl | rfl | rfl | rfl | rfl
  · exact (execMatchData_ends h).tellsStatus
  · exact (execMatchBytes_ends h).tellsStatus
  · exact (execMatchGenericBits_ends h).tellsStatus
  · exact (execMatchGenericBytes_ends h).tellsStatus
  · exact (execMatchCbt_ends h).tellsStatus

theorem exec_pulse_matchTellsStatus {i : Instr} {s t : State} (h : exec i s = .next t)
    (hi : i = .matchMark ∨ i = .matchSpace ∨ i = .matchAtLeast) : MatchTellsStatus t := by
  rcases hi with rfl | rfl | rfl <;> cases h <;> exact (pulseCommand_ends _ s).matchTellsStatus

end Sys2Proof.Machine
end

section
/-! The register file and the reserved space as the host sees them through `step` (R23, R24, R62). -/

namespace Sys2Proof.Machine

/-! ### Registers -/

theorem mem_regsInOrder (r : Reg) : r ∈ regsInOrder := by cases r <;> decide

@[simp] theorem readReg_setScript (r : Reg) (s : State) (ops : List HostOp) :
    readReg r (setScript s ops) = readReg r s := by cases r <;> rfl

theorem setWidth_setWidth_eq_ofNat_mod (k : Nat) (w : Word) :
    (w.setWidth k).setWidth 32 = BitVec.ofNat 32 (w.toNat % 2 ^ k) := by
  refine BitVec.eq_of_toNat_eq ?_
  simp

theorem eq_ofNat_toNat_mod (w : Word) : w = BitVec.ofNat 32 (w.toNat % 2 ^ 32) := by
  simpa using setWidth_setWidth_eq_ofNat_mod 32 w

/-- R24: the clamp keeps TB_LEN within TB_CAP. -/
theorem clampTbLen_toNat (b : Build) (w : Word) : (clampTbLen b w).toNat = min w.toNat b.tbCap := by
  have := b.tbCap_range
  rw [clampTbLen, BitVec.toNat_ofNat]
  exact Nat.mod_eq_of_lt (by omega)

theorem clampTbLen_setWidth (b : Build) (w : Word) :
    (clampTbLen b w).setWidth 32 = BitVec.ofNat 32 (min w.toNat b.tbCap) := by
  rw [← clampTbLen_toNat]
  exact BitVec.eq_of_toNat_eq (by simp)

/-- R23, R24: a writable register, once written, reads as the word cut to its field, TB_LEN clamped. -/
theorem readReg_writeOperandReg_same {r : Reg} (hr : writableReg r = true) (w : Word) (s : State) :
    readReg r (setRegs s (writeOperandReg r w s.build s.regs)) =
      if r = .tbLen then BitVec.ofNat 32 (min w.toNat s.build.tbCap)
      else BitVec.ofNat 32 (w.toNat % 2 ^ fieldWidth r) := by
  cases r with
  | tbLen => exact clampTbLen_setWidth s.build w
  | tol | maxSkip | cursor | nbits | nbytes | baOff | repeatCount | protoId | cfg =>
    exact setWidth_setWidth_eq_ofNat_mod _ w
  | meas | expect | excess | hdrMark | hdrSpace | oneMark | oneSpace | zeroMark | zeroSpace | ftrMark | ftrSpace
  | valLo | valHi => exact eq_ofNat_toNat_mod w
  | _ => cases hr

/-- R23: a write to one register leaves every other one as it was. -/
theorem readReg_writeOperandReg_ne {q r : Reg} (h : q ≠ r) (w : Word) (s : State) :
    readReg q (setRegs s (writeOperandReg r w s.build s.regs)) = readReg q s := by
  cases r <;> cases q
  all_goals try contradiction
  all_goals rfl

/-- R62, R67: a step that reads register `r` gives the host its field and changes nothing else. -/
theorem step_readReg {s : State} {r : Reg} {rest : List HostOp}
    (h : s.script = .read (word32 (4 * regno r)) :: rest) :
    step s = .next { s with script := rest, reads := readReg r s :: s.reads } := by
  rw [step_read s _ rest h (accessLegal_word32 _), word32, busTarget_reg, busRead, readReg_setScript]
  rfl

/-- R62, R67: a step that writes a register other than CMD. -/
theorem step_writeReg {s : State} {r : Reg} {w : Word} {rest : List HostOp} (hr : r ≠ .cmd)
    (h : s.script = .write (word32 (4 * regno r)) w :: rest) :
    step s = .next (setScript (setRegs s (writeOperandReg r w s.build s.regs)) rest) := by
  have hc : busTarget s.build (word32 (4 * regno r)).offset ≠ .reg .cmd := by
    rw [word32, busTarget_reg]
    exact fun e => hr (Target.reg.inj e)
  rw [step_write s _ w rest h (accessLegal_word32 _) hc, word32, busTarget_reg]
  rfl

/-! ### Reserved space and the windows -/

/-- The register numbers in use (R23): three runs, with gaps at 0x19 to 0x1F and at 0x27. -/
theorem regno_mem_runs (r : Reg) :
    regno r ≤ 0x18 ∨ (0x20 ≤ regno r ∧ regno r ≤ 0x26) ∨ (0x28 ≤ regno r ∧ regno r ≤ 0x2E) := by
  cases r <;> decide

theorem regOfNumber_eq_none {n : Nat} (h : (0x19 ≤ n ∧ n < 0x20) ∨ n = 0x27 ∨ 0x2F ≤ n) :
    regOfNumber n = none := by
  rw [regOfNumber, List.find?_eq_none]
  intro r _ heq
  have hrn : regno r = n := by simpa using heq
  have := regno_mem_runs r
  omega

theorem windowTarget_of_le {cap i : Nat} (h : cap ≤ i) (t : Target) : windowTarget cap i t = .reserved :=
  if_neg (by omega)

/-- R23, R62: nothing stands at a reserved offset. -/
theorem busTarget_of_reservedOffset {b : Build} {off : Nat} (h : reservedOffset b off) :
    busTarget b off = .reserved := by
  have htb := b.tbCap_range
  have hob := b.obCap_range
  have hba := b.baCap_range
  unfold reservedOffset at h
  unfold busTarget
  split
  · rw [regOfNumber_eq_none (by omega)]
  split
  · exact windowTarget_of_le (by omega) _
  split
  · exact windowTarget_of_le (by omega) _
  split
  · exact windowTarget_of_le (by omega) _
  split
  · exact windowTarget_of_le (by omega) _
  · rfl

/-- R62: a TB entry stands in the TB window only. -/
theorem busTarget_eq_tb_window {b : Build} {off i : Nat} (h : busTarget b off = .tb i) :
    0x10000 ≤ off ∧ off < 0x20000 := by
  unfold busTarget windowTarget at h
  by_contra hout
  rw [if_neg hout] at h
  split at h
  · split at h <;> cases h
  split at h
  · split at h <;> cases h
  split at h
  · split at h <;> cases h
  split at h
  · split at h <;> cases h
  · cases h

theorem accessLegal_word32_of_aligned {off : Nat} (h : off % 4 = 0) : accessLegal (word32 off) = true := by
  simp [accessLegal, word32, h]

/-- A host write outside the TB window leaves TB as it was. -/
theorem busWrite_tb {t : Target} (h : ∀ i, t ≠ .tb i) (w : Word) (s : State) : (busWrite t w s).tb = s.tb := by
  cases t with
  | tb i => exact absurd rfl (h i)
  | reg r | ob i | ba j | drs j | reserved => rfl

@[simp] theorem busWrite_build (t : Target) (w : Word) (s : State) : (busWrite t w s).build = s.build := by
  cases t <;> rfl

@[simp] theorem busWrite_resetEpoch (t : Target) (w : Word) (s : State) :
    (busWrite t w s).resetEpoch = s.resetEpoch := by
  cases t <;> rfl

/-- R81, R266: a word written to CMD writes nothing of the operand side, be it a command or not. -/
theorem runWord_keepsOperandSide {w : Word} {s t : State} (h : runWord w s = .next t) : KeepsOperandSide s t := by
  unfold runWord at h
  split at h
  · exact exec_keepsOperandSide h
  · cases h
    exact ⟨rfl, rfl, rfl, rfl, rfl, rfl, rfl⟩

end Sys2Proof.Machine
end

section
/-! The machine invariant `UnitInv`: it holds at reset, every update of the state keeps it under the condition named
with it, and so every ending of a command and every host operation does. -/

namespace Sys2Proof.Machine

/-! ### Memories within their capacities -/

section
variable {w : Nat} {dflt : Option (BitVec w)} {cap : Nat} {m : List (Nat × BitVec w)}

theorem memOk_nil (dflt : Option (BitVec w)) (cap : Nat) : MemOk dflt cap [] := ⟨rfl, by simp⟩

theorem MemOk.keeps_memPut (h : MemOk dflt cap m) {a : Nat} (ha : a < cap) (v : BitVec w) :
    MemOk dflt cap (memPut dflt m a v) := by
  obtain ⟨hwf, hcap⟩ := h
  refine ⟨memWf_memPut _ _ _ _ hwf, fun c hc => ?_⟩
  rcases mem_memPut _ _ _ _ c hc with ⟨rfl, -⟩ | hold
  · exact ha
  · exact hcap c hold

theorem MemOk.keeps_memPutAll (h : MemOk dflt cap m) {a : Nat} {vs : List (BitVec w)} (ha : a + vs.length ≤ cap) :
    MemOk dflt cap (memPutAll dflt m a vs) := by
  obtain ⟨hwf, hcap⟩ := h
  refine ⟨memWf_memPutAll _ _ _ _ hwf, fun c hc => ?_⟩
  rcases mem_memPutAll _ _ _ _ c hc with hnew | hold
  · omega
  · exact hcap c hold

end

/-! ### Decode Results -/

/-- A Decode Result without success owes canonical bytes alone (R205). -/
theorem drOk_of_failure {b : Build} {d : DecodeResult} (hs : d.success = 0) (hm : MemOk unlistedDrs b.baCap d.drs) :
    DrOk b d :=
  ⟨hm, fun h1 => absurd (hs ▸ h1) (by decide)⟩

theorem drOk_reset (b : Build) : DrOk b (DecodeResult.reset b.derived0) := drOk_of_failure rfl (memOk_nil _ _)

/-- A record of R200's bound from an entry of PT makes a sound Decode Result (R205). -/
theorem drOk_recordDr {b : Build} {p : ProtoEntry} {rec : Record} (hp : p ∈ b.table.entries)
    (hrec : recordLegal b rec = true) : DrOk b (recordDr b p.id rec) := by
  have hcap := b.baCap_range
  obtain ⟨bits, payload, derived⟩ := rec
  cases payload with
  | int v =>
    have hkind : (0#1) ≠ 1 := by decide
    exact ⟨memOk_nil _ _,
      fun _ => ⟨⟨p, hp, rfl⟩, Nat.zero_le _, fun _ => ⟨rfl, rfl⟩, fun h => absurd h hkind⟩⟩
  | bytes bs =>
    have hlen : bs.length ≤ b.baCap := by simpa [recordLegal] using hrec
    have hnbytes : (BitVec.ofNat 16 bs.length).toNat ≤ b.baCap := by
      rw [BitVec.toNat_ofNat, Nat.mod_eq_of_lt (by omega)]
      exact hlen
    have hkind : (1#1) ≠ 0 := by decide
    exact ⟨(memOk_nil _ _).keeps_memPutAll (by omega),
      fun _ => ⟨⟨p, hp, rfl⟩, hnbytes, fun h => absurd h hkind, fun _ => ⟨rfl, rfl⟩⟩⟩

/-! ### The updates of the state -/

theorem unitInv_resetOf (b : Build) : UnitInv (State.resetOf b) where
  tb := memOk_nil _ _
  ob := memOk_nil _ _
  ba := memOk_nil _ _
  dr := drOk_reset b
  tbLen := Nat.zero_le _
  used := Nat.zero_le _
  obLen := Nat.zero_le _
  obWritten := fun i hi => absurd hi (Nat.not_lt_zero i)
  status := Nat.zero_le _

section
variable {s : State}

theorem UnitInv.keeps_setStatus (h : UnitInv s) (c : Status) : UnitInv (setStatus s c) :=
  { h with status := statusCode_le c }

theorem UnitInv.keeps_setCmd (h : UnitInv s) (w : Word) : UnitInv (setCmd s w) := { h with }

theorem UnitInv.keeps_setScript (h : UnitInv s) (ops : List HostOp) : UnitInv (setScript s ops) := { h with }

theorem UnitInv.keeps_pushRead (h : UnitInv s) (w : Word) : UnitInv (pushRead s w) := { h with }

theorem UnitInv.keeps_nextFree (h : UnitInv s) : UnitInv (nextFree s) := { h with }

theorem UnitInv.keeps_setTb (h : UnitInv s) {m : List (Nat × Word)} (hm : MemOk unlistedBuffer s.build.tbCap m) :
    UnitInv (setTb s m) := { h with tb := hm }

theorem UnitInv.keeps_setBa (h : UnitInv s) {m : List Host.Cell} (hm : MemOk unlistedBuffer s.build.baCap m) :
    UnitInv (setBa s m) := { h with ba := hm }

theorem UnitInv.keeps_setDr (h : UnitInv s) {d : DecodeResult} (hd : DrOk s.build d) : UnitInv (setDr s d) :=
  { h with dr := hd }

theorem UnitInv.keeps_setRegs (h : UnitInv s) {r : OperandRegs} (hr : r.tbLen.toNat ≤ s.build.tbCap) :
    UnitInv (setRegs s r) := { h with tbLen := hr }

/-- How a command with results ends: a RES_USED within TB_CAP, the OB_LEN of before and a status of R230. -/
theorem UnitInv.keeps_results (h : UnitInv s) {r : ResultRegs} {c : Status} (hu : r.used.toNat ≤ s.build.tbCap)
    (hl : r.obLen = s.res.obLen) : UnitInv (setStatus (setRes s r) c) :=
  { h with
    used := hu
    obLen := by rw [setStatus_res, setRes_res, hl]; exact h.obLen
    obWritten := by rw [setStatus_res, setRes_res, hl]; exact h.obWritten
    status := statusCode_le c }

/-- R184: OB_LEN = 0 promises no OB entry. -/
theorem UnitInv.keeps_zeroObLen (h : UnitInv s) : UnitInv (setRes s (withObLen s.res 0)) :=
  { h with
    obLen := Nat.zero_le _
    obWritten := fun i hi => absurd hi (Nat.not_lt_zero i) }

/-- R184: a sequence within OB_CAP, written to OB from 0 on, with its length in OB_LEN. -/
theorem UnitInv.keeps_writeSequence (h : UnitInv s) {seq : List Word} (hlen : seq.length ≤ s.build.obCap) :
    UnitInv (setRes (setOb s (memPutAll unlistedBuffer s.ob 0 seq)) (withObLen s.res seq.length)) := by
  have hl := obLen_toNat s.build s.res _ hlen
  refine { h with ob := h.ob.keeps_memPutAll (by omega), obLen := ?_, obWritten := fun i hi => ?_ }
  · rw [setRes_res, hl]
    exact hlen
  · rw [setRes_res, hl] at hi
    have hget := memGet_memPutAll_inside seq s.ob 0 i hi
    rw [Nat.zero_add] at hget
    rw [setRes_ob, setOb_ob, unlistedBuffer, hget]
    rfl

theorem UnitInv.keeps_writeBytes (h : UnitInv s) {off : Nat} {bs : List Byte}
    (hcap : off + bs.length ≤ s.build.baCap) :
    UnitInv (writeBytes s off bs) := h.keeps_setBa (h.ba.keeps_memPutAll hcap)

theorem UnitInv.keeps_anyBytes (h : UnitInv s) {off len : Nat} (hcap : off + len ≤ s.build.baCap) :
    UnitInv (anyBytes s off len) := (h.keeps_writeBytes (by simpa using hcap)).keeps_nextFree

theorem UnitInv.keeps_anyDr (h : UnitInv s) : UnitInv (anyDr s) :=
  (h.keeps_setDr (drOk_of_failure rfl ((memOk_nil _ _).keeps_memPutAll (by simp)))).keeps_nextFree

/-- A count of valid TB entries, in RES_USED's 16 bits, is within TB_CAP. -/
theorem UnitInv.ofNat_used_le (h : UnitInv s) {u : Nat} (hu : UsedInTb s u) :
    (BitVec.ofNat 16 u).toNat ≤ s.build.tbCap := by
  rw [BitVec.toNat_ofNat]
  exact ((Nat.mod_le _ _).trans hu.2).trans h.tbLen

/-! ### Commands -/

theorem UnitInv.windowEnds (h : UnitInv s) {t : State} (ht : WindowEnds s t) : UnitInv t := by
  obtain ⟨lo, hi, rfl⟩ | ⟨c, -, rfl⟩ := ht <;> exact h.keeps_results h.used rfl

theorem UnitInv.pulseEnds (h : UnitInv s) {t : State} (ht : PulseEnds s t) : UnitInv t := by
  obtain rfl | ⟨c, -, rfl⟩ := ht <;> exact h.keeps_results h.used rfl

theorem UnitInv.intMatchEnds (h : UnitInv s) {t : State} (ht : IntMatchEnds s t) : UnitInv t := by
  obtain ⟨v, u, hu, rfl⟩ | ⟨c, -, rfl⟩ := ht
  · exact h.keeps_results (h.ofNat_used_le hu) rfl
  · exact h.keeps_results (Nat.zero_le _) rfl

theorem UnitInv.byteMatchEnds (h : UnitInv s) {t : State} (ht : ByteMatchEnds s t) : UnitInv t := by
  obtain ⟨off, bs, u, hcap, hu, rfl⟩ | ⟨off, len, hcap, rfl⟩ | ⟨c, -, rfl⟩ := ht
  · exact (h.keeps_writeBytes hcap).keeps_results (h.ofNat_used_le hu) rfl
  · exact (h.keeps_anyBytes hcap).keeps_results (Nat.zero_le _) rfl
  · exact h.keeps_results (Nat.zero_le _) rfl

theorem UnitInv.encodeEnds (h : UnitInv s) {t : State} (ht : EncodeEnds s t) : UnitInv t := by
  obtain ⟨c, rfl⟩ | ⟨seq, hlen, rfl⟩ := ht
  · exact h.keeps_zeroObLen.keeps_nextFree.keeps_setStatus _
  · exact (h.keeps_writeSequence hlen).keeps_nextFree.keeps_setStatus _

theorem UnitInv.decodeEnds (h : UnitInv s) {t : State} (ht : DecodeEnds s t) : UnitInv t := by
  obtain ⟨p, hp, rec, hrec, rfl⟩ | rfl := ht
  · exact (h.keeps_setDr (drOk_recordDr hp hrec)).keeps_setStatus _
  · exact h.keeps_anyDr.keeps_setStatus _

/-- Every command keeps the invariant. -/
theorem UnitInv.keeps_exec (h : UnitInv s) {i : Instr} {t : State} (ht : exec i s = .next t) : UnitInv t := by
  cases exec_ends ht with
  | window _ ht => exact h.windowEnds ht
  | pulse _ ht => exact h.pulseEnds ht
  | intMatch _ ht => exact h.intMatchEnds ht
  | byteMatch _ ht => exact h.byteMatchEnds ht
  | encode _ ht => exact h.encodeEnds ht
  | decode _ ht => exact h.decodeEnds ht
  | resetResult _ ht =>
    subst ht
    exact (h.keeps_setDr (drOk_reset _)).keeps_setStatus _

/-- Every word written to CMD keeps the invariant, a command or not (R81). -/
theorem UnitInv.keeps_runWord (h : UnitInv s) {w : Word} {t : State} (ht : runWord w s = .next t) : UnitInv t := by
  unfold runWord at ht
  split at ht
  · exact h.keeps_exec ht
  · cases ht
    exact h.keeps_setStatus _

/-! ### Host operations -/

theorem unitInv_platformReset (s : State) : UnitInv (platformReset s) := { unitInv_resetOf s.build with }

/-- R24: a host write to a register leaves TB_LEN within TB_CAP. -/
theorem UnitInv.writeOperandReg_tbLen_le (h : UnitInv s) (r : Reg) (w : Word) :
    (writeOperandReg r w s.build s.regs).tbLen.toNat ≤ s.build.tbCap := by
  cases r with
  | tbLen =>
    have : (clampTbLen s.build w).toNat ≤ s.build.tbCap := by
      rw [clampTbLen_toNat]
      exact Nat.min_le_right _ _
    exact this
  | _ => exact h.tbLen

/-- A host write keeps the invariant, since the address map gives no element beyond a capacity (R62). -/
theorem UnitInv.keeps_busWrite (h : UnitInv s) (off : Nat) (w : Word) :
    UnitInv (busWrite (busTarget s.build off) w s) := by
  have hbound := busTarget_bound s.build off
  cases htarget : busTarget s.build off with
  | reg r => exact h.keeps_setRegs (h.writeOperandReg_tbLen_le r w)
  | tb i => exact h.keeps_setTb (h.tb.keeps_memPut (by simpa [htarget] using hbound) w)
  | ba j => exact h.keeps_setBa (h.ba.keeps_memPut (by simpa [htarget] using hbound) _)
  | ob i | drs j | reserved => exact h

/-- Every step keeps the invariant. -/
theorem UnitInv.keeps_step (h : UnitInv s) {t : State} (ht : step s = .next t) : UnitInv t := by
  rcases step_cases ht with ⟨-, rfl⟩ | ⟨rest, -, rfl⟩ | ⟨a, rest, -, -, rfl⟩ | ⟨a, w, rest, -, -, -, rfl⟩ |
    ⟨a, w, rest, -, -, -, hrun⟩
  · exact h
  · exact unitInv_platformReset _
  · exact (h.keeps_setScript rest).keeps_pushRead _
  · exact (h.keeps_setScript rest).keeps_busWrite a.offset w
  · exact ((h.keeps_setScript rest).keeps_setCmd w).keeps_runWord hrun

end

end Sys2Proof.Machine
end

section
/-! The obligations of the state family. -/

namespace Sys2Proof.Machine

/-- Settles O3: each of the five things a step can be (`step_cases`) keeps `UnitInv`. -/
theorem stepKeepsMachineInvariant : Obligations.StepKeepsMachineInvariant := fun _ _ h ht => h.keeps_step ht

/-- Settles O2: the memories are empty, the lengths 0 and STATUS is OK. -/
theorem resetMeetsInvariant : Obligations.ResetMeetsInvariant := unitInv_resetOf

/-- Settles O5: the register file's two laws, read and write, through the two steps. -/
theorem writtenRegisterReadsBack : Obligations.WrittenRegisterReadsBack := by
  intro s r w rest hr hscript
  have hcmd : r ≠ .cmd := by
    rintro rfl
    cases hr
  refine ⟨_, step_writeReg hcmd hscript, rfl, fun q hq => ?_, ?_⟩
  · rw [readReg_setScript, readReg_writeOperandReg_ne hq]
  · rw [step_readReg rfl, readReg_setScript, readReg_writeOperandReg_same hr]
    rfl

/-- Settles O7: the address map has nothing at a reserved offset, and what is nowhere reads 0 and ignores writes. -/
theorem reservedSpaceReadsZero : Obligations.ReservedSpaceReadsZero := by
  intro s off rest haligned hreserved
  have htarget : busTarget s.build (word32 off).offset = .reserved := busTarget_of_reservedOffset hreserved
  have hlegal := accessLegal_word32_of_aligned haligned
  refine ⟨fun hscript => ?_, fun w hscript => ?_⟩
  · rw [step_read s _ rest hscript hlegal, htarget]
    rfl
  · rw [step_write s _ w rest hscript hlegal (by rw [htarget]; decide), htarget]
    rfl

/-- Settles O51: no ending of a command (`exec_ends`) writes the operand side. -/
theorem noCommandChangesOperandsOrTb : Obligations.NoCommandChangesOperandsOrTb := by
  intro i s t h
  have hk := exec_keepsOperandSide h
  exact ⟨hk.regs, hk.cmd, hk.build, hk.script, hk.reads, hk.resetEpoch, hk.readTb⟩

/-- Settles O52: the endings of the other families write no Decode Result, and the dispatcher's nothing else. -/
theorem onlyDispatcherChangesDecodeResult : Obligations.OnlyDispatcherChangesDecodeResult := by
  intro i s t h
  have hk := exec_keepsOperandSide h
  refine ⟨exec_keepsDr h, fun hi => ?_⟩
  obtain ⟨hres, hob, hba⟩ := exec_dr_keepsResults h hi
  exact ⟨hres, readBa_congr hba hk.resetEpoch, fun j => by rw [hob], hk.readTb, hk.regs, hk.cmd⟩

/-- Settles O57: a matcher that succeeds has consumed at least one entry and at most TB_LEN of them. -/
theorem resMatchTellsSuccess : Obligations.ResMatchTellsSuccess := by
  intro i s t h
  refine ⟨fun hi => ?_, fun hi => (exec_matcher_tellsStatus h hi).2⟩
  obtain hi | hi | hi | hi := hi
  · exact exec_pulse_matchTellsStatus h (.inl hi)
  · exact exec_pulse_matchTellsStatus h (.inr (.inl hi))
  · exact exec_pulse_matchTellsStatus h (.inr (.inr hi))
  · exact (exec_matcher_tellsStatus h hi).1

/-- Settles O60: of the things a step can be, only a reset and a write whose target is a TB entry touch TB. -/
theorem tableAndTbAreNotWritten : Obligations.TableAndTbAreNotWritten := by
  intro s t ht
  rcases step_cases ht with ⟨-, rfl⟩ | ⟨rest, hscript, rfl⟩ | ⟨a, rest, -, -, rfl⟩ |
    ⟨a, w, rest, hscript, -, -, rfl⟩ | ⟨a, w, rest, -, -, -, hrun⟩
  · exact ⟨rfl, .inl fun _ => rfl⟩
  · exact ⟨rfl, .inr (.inl ⟨rest, hscript⟩)⟩
  · exact ⟨rfl, .inl fun _ => rfl⟩
  · refine ⟨busWrite_build _ _ _, ?_⟩
    by_cases htb : ∃ i, busTarget s.build a.offset = .tb i
    · obtain ⟨i, hi⟩ := htb
      exact .inr (.inr ⟨a, w, rest, hscript, busTarget_eq_tb_window hi⟩)
    · rw [not_exists] at htb
      exact .inl (readTb_congr (busWrite_tb htb w _) (busWrite_resetEpoch _ w _))
  · have hk := runWord_keepsOperandSide hrun
    exact ⟨hk.build, .inl hk.readTb⟩

/-- Settles O4: R23's table is the list of all registers, each with its offset and its field. -/
theorem registerReadAtItsOffset : Obligations.RegisterReadAtItsOffset := by
  intro s rest rows hrows
  have htable : rows = regsInOrder.map (fun r => (r, 4 * regno r, readReg r s)) := hrows
  subst htable
  refine ⟨fun r => ⟨_, _, List.mem_map_of_mem (mem_regsInOrder r)⟩, fun r off v hmem => ?_⟩
  obtain ⟨q, -, hrow⟩ := List.mem_map.1 hmem
  cases hrow
  exact ⟨rfl, rfl, step_readReg⟩

/-- Settles O19: VAL's two forms are one number (`valBits_toNat`). -/
theorem cfgBitsAndVal : Obligations.CfgBitsAndVal := fun r =>
  ⟨rfl, rfl, rfl, rfl, (valBits_toNat r).symm, rfl⟩

end Sys2Proof.Machine
end

section
/-! The host's accesses as whole steps (R62, R63, R65, R67): what a legal one comes to, that every operation of a
well-formed script has a next state, and that every other access is stuck. -/

namespace Sys2Proof.Machine

/-! ### Accesses -/

theorem accessLegal_iff (a : Access) : accessLegal a = true ↔ a.bytes = 4 ∧ a.offset % 4 = 0 := by
  simp [accessLegal]

/-- R62: element `i` of a window, whose offset `o` is aligned, is reached by a legal access. -/
theorem accessLegal_element {o : Nat} (i : Nat) (ho : o % 4 = 0) : accessLegal (word32 (o + 4 * i)) = true :=
  accessLegal_word32_of_aligned (by omega)

/-- R63: an access that is not legal stops the machine, be it a read or a write. -/
theorem step_stuck {s : State} {a : Access} {op : HostOp} {rest : List HostOp} (h : s.script = op :: rest)
    (hop : op = .read a ∨ ∃ w, op = .write a w) (ha : accessLegal a = false) : step s = .fault .stuckAccess := by
  have hstuck (u : State) : busAccess op u = .stuck := by
    obtain rfl | ⟨w, rfl⟩ := hop <;> simp [busAccess, ha]
  rw [step, h]
  dsimp only
  rw [hstuck]

/-! ### Reads and writes -/

/-- What the host reads does not depend on its own side of the state, free values included (R67). -/
theorem busRead_hostSide (t : Target) (s : State) (ops : List HostOp) (rs : List Word) :
    busRead t { s with script := ops, reads := rs } = busRead t s := by
  cases t with
  | reg r => cases r <;> rfl
  | tb i | ob i | ba j | drs j | reserved => rfl

@[simp] theorem busWrite_script (t : Target) (w : Word) (s : State) : (busWrite t w s).script = s.script := by
  cases t <;> rfl

/-- R67: a step that reads gives the host the word at the target, and the state changes on the host's side only. -/
theorem step_readTarget {s : State} {a : Access} {rest : List HostOp} {tgt : Target} (h : s.script = .read a :: rest)
    (ha : accessLegal a = true) (htgt : busTarget s.build a.offset = tgt) :
    step s = .next { s with script := rest, reads := busRead tgt s :: s.reads } := by
  rw [step_read s a rest h ha, htgt, setScript, busRead_hostSide]
  rfl

/-- A write to a target other than CMD, then a read of the same target: the second step reads it in the state that the
first one left. -/
theorem step_writeThenRead {s : State} {a : Access} {w : Word} {rest : List HostOp} {tgt : Target}
    (h : s.script = .write a w :: .read a :: rest) (ha : accessLegal a = true)
    (htgt : busTarget s.build a.offset = tgt) (hcmd : tgt ≠ .reg .cmd) {t : State}
    (ht : t = busWrite tgt w (setScript s (.read a :: rest))) :
    step s = .next t ∧ step t = .next { t with script := rest, reads := busRead tgt t :: t.reads } := by
  subst ht htgt
  refine ⟨step_write s a w _ h ha hcmd, step_readTarget (busWrite_script _ w _) ha ?_⟩
  rw [busWrite_build, setScript_build]

/-! ### A listed element is the one that is read -/

theorem readTb_of_listed {s : State} {i : Nat} {v : Word} (h : memGet s.tb i = some v) : readTb s i = v := by
  rw [readTb, h, Option.getD_some]

theorem readOb_of_listed {s : State} {i : Nat} {v : Word} (hi : i < s.res.obLen.toNat) (h : memGet s.ob i = some v) :
    readOb s i = v := by
  rw [readOb, if_pos hi, h, Option.getD_some]

theorem readBa_of_listed {s : State} {j : Nat} {v : Byte} (h : memGet s.ba j = some v) : readBa s j = v := by
  rw [readBa, h, Option.getD_some]

theorem readDrs_of_listed {d : DecodeResult} {j : Nat} {v : Byte} (h : memGet d.drs j = some v) :
    readDrs d j = v := by
  rw [readDrs, h, Option.getD_some]

/-! ### Progress -/

/-- R280: a command ends in a next state, from every state. -/
theorem exec_hasNext (i : Instr) (s : State) : ∃ t, exec i s = .next t := by
  cases i <;> exact ⟨_, rfl⟩

/-- R81, R280: every word written to CMD ends in a next state, a command or not. -/
theorem runWord_hasNext (w : Word) (s : State) : ∃ t, runWord w s = .next t := by
  unfold runWord
  split
  · exact exec_hasNext _ s
  · exact ⟨_, rfl⟩

/-- R63, R280: a well-formed operation of the host is carried out, and the script goes on behind it. -/
theorem step_progress {s : State} {op : HostOp} {rest : List HostOp} (h : s.script = op :: rest)
    (hop : op.wf = true) : ∃ t, step s = .next t ∧ t.script = rest := by
  cases op with
  | platformReset => exact ⟨platformReset (setScript s rest), by rw [step, h]; rfl, rfl⟩
  | read a => exact ⟨_, step_readTarget h hop rfl, rfl⟩
  | write a w =>
    by_cases hc : busTarget s.build a.offset = .reg .cmd
    · obtain ⟨t, ht⟩ := runWord_hasNext w (setCmd (setScript s rest) w)
      exact ⟨t, (step_command s a w rest h hop hc).trans ht, (runWord_keepsOperandSide ht).script⟩
    · exact ⟨_, step_write s a w rest h hop hc, busWrite_script _ w _⟩

theorem scriptWf_cons (op : HostOp) (rest : List HostOp) :
    scriptWf (op :: rest) = true ↔ op.wf = true ∧ scriptWf rest = true := by
  simp [scriptWf]

end Sys2Proof.Machine
end

section
/-! The obligations of the memory family. -/

namespace Sys2Proof.Machine

/-- Settles O8: the window's offset is the element's target, and a read after a write there gives what was written. -/
theorem bufferWriteReadsBack : Obligations.BufferWriteReadsBack := by
  intro s i w rest
  refine ⟨fun hi hscript => ?_, fun hi hscript => ?_⟩
  · obtain ⟨hwrite, hread⟩ := step_writeThenRead hscript (accessLegal_element i (by decide))
      (busTarget_tb s.build i hi) nofun rfl
    refine ⟨_, hwrite, rfl, fun j hj => readTb_writeTb_ne _ i j w hj, ?_⟩
    rw [hread, busRead, busWrite, readTb_writeTb_same]
    rfl
  · obtain ⟨hwrite, hread⟩ := step_writeThenRead hscript (accessLegal_element i (by decide))
      (busTarget_ba s.build i hi) nofun rfl
    refine ⟨_, hwrite, rfl, fun j hj => readBa_writeBa_ne _ i j _ hj, ?_⟩
    rw [hread, busRead, busWrite, readBa_writeBa_same, setWidth_setWidth_eq_ofNat_mod]
    rfl

/-- Settles O9: each window's offset is the element's target, whose read is the element. -/
theorem windowReadReturnsTheElement : Obligations.WindowReadReturnsTheElement := by
  rintro s i rest yields rfl
  have hlegal {o : Nat} (ho : o % 4 = 0) := accessLegal_element i ho
  refine ⟨fun hi => ⟨fun hscript => ?_, fun v => readTb_of_listed⟩, fun hi hlen v hv hscript => ?_,
    fun hi => ⟨fun hscript => ?_, fun v => readBa_of_listed⟩,
    fun hi => ⟨fun hscript => ?_, fun v => readDrs_of_listed⟩⟩
  · exact step_readTarget hscript (hlegal rfl) (busTarget_tb _ i hi)
  · rw [step_readTarget hscript (hlegal rfl) (busTarget_ob _ i hi), busRead, readOb_of_listed hlen hv]
  · rw [step_readTarget hscript (hlegal rfl) (busTarget_ba _ i hi), busRead, BitVec.ofNat_toNat]
  · rw [step_readTarget hscript (hlegal rfl) (busTarget_drs _ i hi), busRead, BitVec.ofNat_toNat]

/-- Settles O12: each operation of the script is carried out, and an empty script leaves the unit idle. -/
theorem alignedScriptsNeverStop : Obligations.AlignedScriptsNeverStop := by
  intro k
  induction k with
  | zero => exact fun _ _ => trivial
  | succ k ih =>
    intro s hwf
    cases hscript : s.script with
    | nil => exact ⟨s, step_idle s hscript, ih s hwf⟩
    | cons op rest =>
      obtain ⟨hop, hrest⟩ := (scriptWf_cons op rest).1 (hscript ▸ hwf)
      obtain ⟨t, ht, htscript⟩ := step_progress hscript hop
      exact ⟨t, ht, ih t (htscript ▸ hrest)⟩

/-- Settles O10: the first read leaves the word that the second one returns. -/
theorem readsHaveNoEffectAndRepeat : Obligations.ReadsHaveNoEffectAndRepeat := by
  intro s a rest ha hscript
  refine ⟨_, step_readTarget hscript ha rfl, ?_⟩
  rw [step_readTarget rfl ha rfl]
  dsimp only
  rw [busRead_hostSide]

/-- Settles O11: R63's two cases are the access that is not legal and the well-formed operation. -/
theorem misalignedOrNarrowAccessIsStuck : Obligations.MisalignedOrNarrowAccessIsStuck := by
  intro s a op rest hscript hop
  refine ⟨fun hbad => step_stuck hscript hop ?_, fun hbytes halign => ?_⟩
  · rw [← Bool.not_eq_true, accessLegal_iff]
    omega
  · have hwf : op.wf = true := by
      obtain rfl | ⟨w, rfl⟩ := hop <;> exact (accessLegal_iff a).2 ⟨hbytes, halign⟩
    obtain ⟨t, ht, -⟩ := step_progress hscript hwf
    exact ⟨t, ht⟩

end Sys2Proof.Machine
end

section
/-! The command word as a whole step (R80 to R83), and the frames of the command families: what STATUS and the results
are written over, and what the families that write a memory leave of it. -/

namespace Sys2Proof.Machine

/-! ### Command words -/

/-- The decoder and the encoder are inverse to each other. -/
theorem decode_eq_ok_iff (w : Word) (i : Instr) : decode w = .ok i ↔ w = encode i :=
  ⟨decode_ok_encode, fun h => h ▸ decode_encode i⟩

/-- Every command has its row in the opcode map. -/
theorem opRow_mem_opRows (i : Instr) : opRow (opcode i) i ∈ opRows := by cases i <;> decide

/-- The opcode map as pairs of word and command is the graph of the decoder. -/
theorem mem_opRows_pairs (w : Word) (i : Instr) :
    (w, i) ∈ opRows.map (fun r => (r.pattern, r.instr)) ↔ decode w = .ok i := by
  rw [decode_eq_ok_iff]
  constructor
  · intro h
    obtain ⟨r, hr, heq⟩ := List.mem_map.1 h
    cases heq
    exact opRows_encode r hr
  · rintro rfl
    have hrow := opRow_mem_opRows i
    exact List.mem_map.2 ⟨_, hrow, Prod.ext (opRows_encode _ hrow) rfl⟩

theorem runWord_of_ok {w : Word} {i : Instr} (h : decode w = .ok i) (s : State) : runWord w s = exec i s := by
  rw [runWord, h]

theorem runWord_of_not_ok {w : Word} (h : ∀ i, decode w ≠ .ok i) (s : State) :
    runWord w s = .next (raiseIllegalCommand s) := by
  unfold runWord
  split
  · rename_i i hi
    exact absurd hi (h i)
  · rfl

/-- R81: a step that writes a word to CMD stores it there and runs it. -/
theorem step_writeCmd {s : State} {w : Word} {rest : List HostOp}
    (h : s.script = .write (word32 cmdOffset) w :: rest) :
    step s = runWord w { s with script := rest, cmd := w } :=
  step_command s _ w rest h accessLegal_cmd (busTarget_cmd s.build)

/-! ### Frames of the commands that write STATUS and results only -/

/-- What the host reads of OB depends on OB, OB_LEN and the free values. -/
theorem readOb_congr {s t : State} (hob : t.ob = s.ob) (hlen : t.res.obLen = s.res.obLen)
    (hseq : t.freeSeq = s.freeSeq) (j : Nat) : readOb t j = readOb s j := by
  simp [readOb, hob, hlen, hseq]

/-- A state that differs in STATUS and in results has the same operands and Decode Result. -/
theorem OnlyResults.keepsRegisters {s t : State} (h : OnlyResults s t) :
    t.regs = s.regs ∧ t.cmd = s.cmd ∧ t.dr = s.dr := by
  obtain ⟨c, r, rfl⟩ := h
  exact ⟨rfl, rfl, rfl⟩

/-- A state that differs in STATUS and in results other than OB_LEN has the same memories, read element by element. -/
theorem OnlyResults.keepsMemories {s t : State} (h : OnlyResults s t) (hlen : t.res.obLen = s.res.obLen) :
    (∀ j, readTb t j = readTb s j) ∧ (∀ j, readBa t j = readBa s j) ∧ (∀ j, readOb t j = readOb s j) ∧
      (∀ j, readDrs t.dr j = readDrs s.dr j) := by
  obtain ⟨c, r, rfl⟩ := h
  exact ⟨readTb_congr rfl rfl, readBa_congr rfl rfl, readOb_congr rfl hlen rfl, fun _ => rfl⟩

theorem WindowEnds.onlyResults {s t : State} (h : WindowEnds s t) : OnlyResults s t := by
  obtain ⟨lo, hi, rfl⟩ | ⟨c, -, rfl⟩ := h <;> exact ⟨_, _, rfl⟩

/-- Of the results, WINDOW writes RES and RES2 alone (R103). -/
theorem WindowEnds.keepsResults {s t : State} (h : WindowEnds s t) :
    t.res.matched = s.res.matched ∧ t.res.used = s.res.used ∧ t.res.obLen = s.res.obLen := by
  obtain ⟨lo, hi, rfl⟩ | ⟨c, -, rfl⟩ := h <;> exact ⟨rfl, rfl, rfl⟩

theorem PulseEnds.onlyResults {s t : State} (h : PulseEnds s t) : OnlyResults s t := by
  obtain rfl | ⟨c, -, rfl⟩ := h <;> exact ⟨_, _, rfl⟩

/-- Of the results, a pulse command writes RES_MATCH alone (R105, R107, R109). -/
theorem PulseEnds.keepsResults {s t : State} (h : PulseEnds s t) :
    t.res = { s.res with matched := t.res.matched } := by
  obtain rfl | ⟨c, -, rfl⟩ := h <;> rfl

theorem IntMatchEnds.onlyResults {s t : State} (h : IntMatchEnds s t) : OnlyResults s t := by
  obtain ⟨v, u, -, rfl⟩ | ⟨c, -, rfl⟩ := h <;> exact ⟨_, _, rfl⟩

/-- Of the results, an integer matcher leaves RES2 and OB_LEN (R122, R144, R162). -/
theorem IntMatchEnds.keepsResults {s t : State} (h : IntMatchEnds s t) :
    t.res.lo2 = s.res.lo2 ∧ t.res.hi2 = s.res.hi2 ∧ t.res.obLen = s.res.obLen := by
  obtain ⟨v, u, -, rfl⟩ | ⟨c, -, rfl⟩ := h <;> exact ⟨rfl, rfl, rfl⟩

theorem exec_window_ends {s t : State} (h : exec .window s = .next t) : WindowEnds s t := by
  cases h
  exact windowCommand_ends _ _ s

theorem exec_pulse_ends {i : Instr} {s t : State} (h : exec i s = .next t)
    (hi : i = .matchMark ∨ i = .matchSpace ∨ i = .matchAtLeast) : PulseEnds s t := by
  rcases hi with rfl | rfl | rfl <;> cases h <;> exact pulseCommand_ends _ s

theorem exec_intMatch_ends {i : Instr} {s t : State} (h : exec i s = .next t)
    (hi : i = .matchData ∨ i = .matchGenericBits ∨ i = .matchCbt) : IntMatchEnds s t := by
  rcases hi with rfl | rfl | rfl
  · exact execMatchData_ends h
  · exact execMatchGenericBits_ends h
  · exact execMatchCbt_ends h

/-! ### Frame of the byte matchers -/

/-- How a byte matcher with the target BA[off .. off + len − 1] ends (R125, R126, R146, R233): `ByteMatchEnds` with the
range it writes named. -/
def ByteMatchEndsAt (off len : Nat) (s t : State) : Prop :=
  (∃ c, t = raiseBytes c s) ∨ t = raiseBytes .timingMismatch (anyBytes s off len) ∨
  ∃ bs u, bs.length = len ∧ t = finishOk (setRes (writeBytes s off bs) (withUsed (withMatched s.res true) u))

theorem finishBytes_endsAt {off len : Nat} {m : Match (List Byte)} {s : State}
    (hm : ∀ bs u, m = .ok bs u → bs.length = len) : ByteMatchEndsAt off len s (finishBytes off len m s) := by
  rcases finishBytes_cases off len m s with ⟨-, h⟩ | ⟨-, h⟩ | ⟨bs, u, hok, h⟩
  · exact .inl ⟨_, h⟩
  · exact .inr (.inl h)
  · exact .inr (.inr ⟨bs, u, hm bs u hok, h⟩)

theorem execMatchBytes_endsAt {s t : State} (h : execMatchBytes s = .next t) :
    ByteMatchEndsAt s.regs.baOff.toNat s.regs.nbytes.toNat s t := by
  cases h
  split
  · exact finishBytes_endsAt fun bs u hok => (matchBytes_ok hok).1
  · exact .inl ⟨_, rfl⟩

theorem execMatchGenericBytes_endsAt {s t : State} (h : execMatchGenericBytes s = .next t) :
    ByteMatchEndsAt s.regs.baOff.toNat (s.regs.nbits.toNat / 8) s t := by
  cases h
  split
  · rename_i hlegal
    obtain ⟨-, ⟨-, h8⟩, -⟩ := (byteFrameLegal_iff _ _).1 hlegal
    exact finishBytes_endsAt fun bs u hok => (matchGenericBytes_ok h8 hok).1
  · exact .inl ⟨_, rfl⟩

section
variable {off len : Nat} {s t : State} (h : ByteMatchEndsAt off len s t)
include h

theorem ByteMatchEndsAt.keepsRegisters :
    t.regs = s.regs ∧ t.cmd = s.cmd ∧ t.dr = s.dr ∧ t.resetEpoch = s.resetEpoch := by
  obtain ⟨c, rfl⟩ | rfl | ⟨bs, u, -, rfl⟩ := h <;> exact ⟨rfl, rfl, rfl, rfl⟩

/-- Of the results, a byte matcher writes RES_MATCH and RES_USED alone (R125, R146, R233). -/
theorem ByteMatchEndsAt.keepsResults :
    t.res = { s.res with matched := t.res.matched, used := t.res.used } := by
  obtain ⟨c, rfl⟩ | rfl | ⟨bs, u, -, rfl⟩ := h <;> rfl

theorem ByteMatchEndsAt.keepsBuffers : t.tb = s.tb ∧ t.ob = s.ob := by
  obtain ⟨c, rfl⟩ | rfl | ⟨bs, u, -, rfl⟩ := h <;> exact ⟨rfl, rfl⟩

/-- A byte matcher writes no BA byte outside its target range, whichever way it ends. -/
theorem ByteMatchEndsAt.readBa_outside {j : Nat} (hj : j < off ∨ off + len ≤ j) : readBa t j = readBa s j := by
  obtain ⟨c, rfl⟩ | rfl | ⟨bs, u, rfl, rfl⟩ := h
  · rfl
  · exact readBa_anyBytes_outside s off len j hj
  · exact readBa_writeBytes_outside s off bs j hj

end

/-! ### Frame of the encoders -/

section
variable {s t : State} (h : EncodeEnds s t)
include h

theorem EncodeEnds.keepsRegisters :
    t.regs = s.regs ∧ t.cmd = s.cmd ∧ t.dr = s.dr ∧ t.resetEpoch = s.resetEpoch := by
  obtain ⟨c, rfl⟩ | ⟨seq, -, rfl⟩ := h <;> exact ⟨rfl, rfl, rfl, rfl⟩

/-- Of the results, an encoder writes OB_LEN alone (R184). -/
theorem EncodeEnds.keepsResults : t.res = { s.res with obLen := t.res.obLen } := by
  obtain ⟨c, rfl⟩ | ⟨seq, -, rfl⟩ := h <;> rfl

theorem EncodeEnds.keepsBuffers : t.tb = s.tb ∧ t.ba = s.ba := by
  obtain ⟨c, rfl⟩ | ⟨seq, -, rfl⟩ := h <;> exact ⟨rfl, rfl⟩

/-- OB_LEN is 0 after a failure, and the length of the sequence after a success. -/
theorem EncodeEnds.obLen_le : t.res.obLen.toNat ≤ s.build.obCap := by
  obtain ⟨c, rfl⟩ | ⟨seq, hseq, rfl⟩ := h
  · exact Nat.zero_le _
  · exact (obLen_toNat s.build s.res _ hseq).le.trans hseq

/-- An encoder writes OB below OB_LEN only: nowhere after a failure, which leaves OB as it was. -/
theorem EncodeEnds.memGet_ob_beyond {j : Nat} (hj : t.res.obLen.toNat ≤ j) : memGet t.ob j = memGet s.ob j := by
  obtain ⟨c, rfl⟩ | ⟨seq, hseq, rfl⟩ := h
  · rfl
  · have hlen : seq.length ≤ j := (obLen_toNat s.build s.res _ hseq).symm.le.trans hj
    exact memGet_memPutAll_outside _ seq s.ob 0 j (.inr (by omega))

end

theorem exec_encode_ends {i : Instr} {s t : State} (h : exec i s = .next t)
    (hi : i = .encodeGenericBits ∨ i = .encodeGenericBytes ∨ i = .encodeCbt ∨ i = .encodeProtoInt ∨
      i = .encodeProtoBytes) : EncodeEnds s t := by
  rcases hi with rfl | rfl | rfl | rfl | rfl <;> cases h
  · exact encodeCommand_ends _ (writeOutput_ends _ s)
  · exact encodeCommand_ends _ (writeOutput_ends _ s)
  · exact encodeCommand_ends _ (writeOutput_ends _ s)
  · exact encodeProto_ends _ s
  · exact encodeCommand_ends _ (encodeProto_ends _ s)

end Sys2Proof.Machine
end

section
/-! The obligations of the encoding family. -/

namespace Sys2Proof.Machine

/-- Settles O14: the sixteen rows are the opcode map, which is the graph of the decoder. -/
theorem cmdWriteRunsOneCommandOrIsIllegal : Obligations.CmdWriteRunsOneCommandOrIsIllegal := by
  intro s w rest hscript rows hrows
  have htable : rows = opRows.map (fun r => (r.pattern, r.instr)) := hrows
  subst htable
  simp only [mem_opRows_pairs]
  rw [step_writeCmd hscript]
  exact ⟨fun i hi => runWord_of_ok hi _, fun hno => runWord_of_not_ok hno _⟩

/-- Settles O17: the decoder takes a word only as the pattern of a row, which is its command's encoding. -/
theorem onlyItsEncodingDecodesToACommand : Obligations.OnlyItsEncodingDecodesToACommand :=
  fun w i => (decode_eq_ok_iff w i).1

/-- Settles O53: WINDOW writes RES and RES2, the others RES_MATCH, and STATUS beside them. -/
theorem pulseFrame : Obligations.PulseFrame := by
  intro i s t hi h
  obtain rfl | hi := hi
  · have hends := exec_window_ends h
    obtain ⟨hregs, hcmd, hdr⟩ := hends.onlyResults.keepsRegisters
    obtain ⟨hmatched, hused, hlen⟩ := hends.keepsResults
    exact ⟨hregs, hcmd, hdr, hused, hlen, fun _ => hmatched, fun hne => absurd rfl hne,
      hends.onlyResults.keepsMemories hlen⟩
  · have hends := exec_pulse_ends h hi
    obtain ⟨hregs, hcmd, hdr⟩ := hends.onlyResults.keepsRegisters
    have hres := hends.keepsResults
    have hlen : t.res.obLen = s.res.obLen := by rw [hres]
    refine ⟨hregs, hcmd, hdr, by rw [hres], hlen, ?_, fun _ => ?_, hends.onlyResults.keepsMemories hlen⟩
    · rintro rfl
      simp at hi
    · rw [hres]
      exact ⟨rfl, rfl, rfl, rfl⟩

/-- Settles O54: an integer matcher writes STATUS and results, not RES2 or OB_LEN. -/
theorem integerMatcherFrame : Obligations.IntegerMatcherFrame := by
  intro i s t hi h
  have hends := exec_intMatch_ends h hi
  obtain ⟨hregs, hcmd, hdr⟩ := hends.onlyResults.keepsRegisters
  obtain ⟨hlo2, hhi2, hlen⟩ := hends.keepsResults
  exact ⟨hregs, hcmd, hdr, hlo2, hhi2, hlen, hends.onlyResults.keepsMemories hlen⟩

/-- Settles O55: a success writes exactly `len` bytes from BA_OFF on, a timing mismatch frees the same range, and every
other failure writes no byte. -/
theorem byteMatcherFrame : Obligations.ByteMatcherFrame := by
  intro i s t len hi h
  have hends : ByteMatchEndsAt s.regs.baOff.toNat len s t := by
    obtain ⟨rfl, rfl⟩ | ⟨rfl, rfl⟩ := hi
    · exact execMatchBytes_endsAt h
    · exact execMatchGenericBytes_endsAt h
  obtain ⟨hregs, hcmd, hdr, hepoch⟩ := hends.keepsRegisters
  obtain ⟨htb, hob⟩ := hends.keepsBuffers
  rw [hends.keepsResults]
  exact ⟨hregs, hcmd, hdr, rfl, rfl, rfl, rfl, rfl, readTb_congr htb hepoch, fun j => by rw [hob],
    fun j => hends.readBa_outside⟩

/-- Settles O56: every encoder ends with its output written from OB entry 0 on, or with OB_LEN 0 and OB as it was. -/
theorem encoderFrame : Obligations.EncoderFrame := by
  intro i s t hi h
  have hends := exec_encode_ends h hi
  obtain ⟨hregs, hcmd, hdr, hepoch⟩ := hends.keepsRegisters
  obtain ⟨htb, hba⟩ := hends.keepsBuffers
  exact ⟨hregs, hcmd, hdr, hends.keepsResults, hends.obLen_le, readTb_congr htb hepoch, readBa_congr hba hepoch,
    fun j => by rw [hdr], fun j => hends.memGet_ob_beyond⟩

/-- Settles O15: a write to CMD runs the word, and the word runs as the command it decodes to. -/
theorem stepRunsDecodedCommand : Obligations.StepRunsDecodedCommand := by
  intro s w i rest hscript hdecode
  rw [step_writeCmd hscript, runWord_of_ok hdecode]

/-- Settles O16: every command is well formed, and the opcode map gives it back. -/
theorem decodeOfEncodeIsTheCommand : Obligations.DecodeOfEncodeIsTheCommand := fun i _ => decode_encode i

/-- Settles O18: seven of the words are encodings, and three are in no row of the opcode map. -/
theorem sampleWordsDecode : Obligations.SampleWordsDecode :=
  ⟨decode_encode .window, decode_encode .matchData, decode_encode .matchGenericBytes, decode_encode .matchCbt,
    decode_encode .encodeCbt, decode_encode .decode, decode_encode .resetResult, by decide, by decide, by decide⟩

end Sys2Proof.Machine
end

section
/-! The tolerance window (R100, R101): its values at the two ends of the tolerance's range, that it widens with the
tolerance, and the comparators as its inequalities (R104, R106, R108). -/

namespace Sys2Proof.Machine

/-! ### The window -/

theorem window_zero (e x : Nat) : window e 0 x = (e + x, e + x) :=
  Prod.ext (Nat.mul_div_cancel _ (by decide)) (Nat.mul_div_cancel _ (by decide))

theorem window_hundred (e x : Nat) : window e 100 x = (0, 2 * (e + x)) :=
  Prod.ext (show (e + x) * 0 / 100 = 0 by simp) (show (e + x) * 200 / 100 = 2 * (e + x) by omega)

/-- R110 item 4: the window at the smaller tolerance lies in the window at the larger one. -/
theorem window_widens (e x : Nat) {t₁ t₂ : Nat} (h : t₁ ≤ t₂) :
    (window e t₂ x).1 ≤ (window e t₁ x).1 ∧ (window e t₁ x).2 ≤ (window e t₂ x).2 :=
  ⟨Nat.div_le_div_right (Nat.mul_le_mul_left _ (Nat.sub_le_sub_left h 100)),
    Nat.div_le_div_right (Nat.mul_le_mul_left _ (Nat.add_le_add_left h 100))⟩

/-- R101: the window has the sum in it. -/
theorem window_around_sum (e t x : Nat) : (window e t x).1 ≤ e + x ∧ e + x ≤ (window e t x).2 := by
  simpa only [window_zero] using window_widens e x (Nat.zero_le t)

/-- R101: the window of a legal tolerance ends at twice the sum. -/
theorem window_snd_le (e x : Nat) {t : Nat} (ht : t ≤ 100) : (window e t x).2 ≤ 2 * (e + x) := by
  simpa only [window_hundred] using (window_widens e x ht).2

/-! ### The comparators -/

theorem matchMark_iff (m e t x : Nat) :
    matchMark m e t x = true ↔ (window e t x).1 ≤ m ∧ m ≤ (window e t x).2 := by
  rw [matchMark, Bool.and_eq_true, decide_eq_true_iff, decide_eq_true_iff]

theorem matchAtLeast_iff (ax : Bool) (m e t x : Nat) :
    matchAtLeast ax m e t x = true ↔ (window e t (if ax then x else 0)).1 ≤ m := decide_eq_true_iff

/-- R110 item 3: what the window without excess accepts is no shorter than its lower bound, whatever the parameter. -/
theorem matchAtLeast_of_matchMark {m e t : Nat} (ax : Bool) (h : matchMark m e t 0 = true) :
    matchAtLeast ax m e t 0 = true := by
  rw [matchAtLeast_iff, ite_self]
  exact ((matchMark_iff m e t 0).1 h).1

/-- R110 item 4 for marks; a space is a mark without excess. -/
theorem matchMark_widens {m e t₁ t₂ x : Nat} (ht : t₁ ≤ t₂) (h : matchMark m e t₁ x = true) :
    matchMark m e t₂ x = true := by
  obtain ⟨hlo, hhi⟩ := (matchMark_iff m e t₁ x).1 h
  obtain ⟨hlo', hhi'⟩ := window_widens e x ht
  exact (matchMark_iff m e t₂ x).2 ⟨hlo'.trans hlo, hhi.trans hhi'⟩

/-- R110 item 5: only the excess can push a duration out of its own mark window, and only past the lower bound. -/
theorem matchMark_self_iff (e t x : Nat) : matchMark e e t x = true ↔ ownMark e t x :=
  ⟨fun h => ((matchMark_iff e e t x).1 h).1, matchMark_own⟩

/-! ### The commands -/

/-- R105, R107, R109: with a legal TOL, RES_MATCH and STATUS tell whether the comparison holds. -/
theorem next_pulseCommand_of_legal {r : Bool} {s : State} {p : Prop} [Decidable p] (ht : s.regs.tol.toNat ≤ 100)
    (hr : r = true ↔ p) :
    (.next (pulseCommand r s) : Host.Outcome State Fault Refusal) =
      if p then .next { s with status := 0, res := { s.res with matched := 1 } }
      else .next { s with status := 2, res := { s.res with matched := 0 } } := by
  rw [pulseCommand, if_pos ((tolLegal_iff s.regs).2 ht)]
  by_cases hp : p
  · rw [if_pos hp, if_pos (hr.2 hp)]
    rfl
  · rw [if_neg hp, if_neg (mt hr.1 hp)]
    rfl

/-- R102: with TOL over 100 the comparison does not count. -/
theorem pulseCommand_of_illegal {r : Bool} {s : State} (ht : 100 < s.regs.tol.toNat) :
    pulseCommand r s = { s with status := 7, res := { s.res with matched := 0 } } := by
  rw [pulseCommand, if_neg (mt (tolLegal_iff s.regs).1 (by omega))]
  rfl

end Sys2Proof.Machine
end

section
/-! The obligations of the pulse matcher family. -/

namespace Sys2Proof.Machine

/-- Settles O21: the window at tolerance `t` lies between those at 0 and at 100, and the sum of two 32-bit values is
below 2^33. -/
theorem windowArithmeticRange : Obligations.WindowArithmeticRange := by
  intro e x t he hx ht
  obtain ⟨hlo, hhi⟩ := window_around_sum e t x
  have hproduct : (e + x) * (100 + t) ≤ (2 ^ 33 - 2) * 200 := Nat.mul_le_mul (by omega) (by omega)
  refine ⟨hlo, hhi, window_snd_le e x ht, by omega, by omega, by omega, ?_, ?_⟩
  · rintro rfl
    simp only [window_zero, and_self]
  · rintro rfl
    rw [window_hundred]

/-- Settles O25: the comparators are inequalities on the window, and the window widens with the tolerance. -/
theorem windowProperties : Obligations.WindowProperties := by
  have hwindow : window 1000 25 0 = (750, 1250) := by decide
  refine ⟨?_, ?_, ?_, fun _ _ _ _ => rfl, ?_, ?_, ?_⟩
  · intro m hm
    rw [matchMark_iff, hwindow]
    omega
  · intro m hm
    rw [Bool.eq_false_iff, ne_eq, matchMark_iff, hwindow]
    omega
  · intro m hlo hhi
    rw [matchMark_iff, hwindow]
    exact ⟨hlo, hhi⟩
  · rintro m e t _ ax rfl h
    exact matchAtLeast_of_matchMark ax h
  · exact fun m e x t₁ t₂ ht _ => ⟨matchMark_widens ht, matchMark_widens ht⟩
  · exact fun e x t _ => ⟨matchSpace_own e t x, matchMark_self_iff e t x⟩

/-- Settles O20: TOL decides between the window of EXPECT and EXCESS, and zeros with ILLEGAL_OPERAND. -/
theorem windowWritesBounds : Obligations.WindowWritesBounds := by
  intro s
  constructor
  · rintro ht _ _ rfl rfl
    exact congrArg _ (if_pos ((tolLegal_iff s.regs).2 ht))
  · intro ht
    exact congrArg _ (if_neg (mt (tolLegal_iff s.regs).1 (by omega)))

/-- Settles O22: the comparison is with the window of EXPECT and EXCESS. -/
theorem matchMarkComparesWithExcess : Obligations.MatchMarkComparesWithExcess := by
  intro s
  constructor
  · rintro ht _ _ rfl rfl
    exact next_pulseCommand_of_legal ht (matchMark_iff _ _ _ _)
  · exact fun ht => congrArg _ (pulseCommand_of_illegal ht)

/-- Settles O23: a space is compared as a mark with excess 0. -/
theorem matchSpaceIgnoresExcess : Obligations.MatchSpaceIgnoresExcess := by
  intro s
  constructor
  · rintro ht _ _ rfl rfl
    exact next_pulseCommand_of_legal ht (matchMark_iff _ _ _ 0)
  · exact fun ht => congrArg _ (pulseCommand_of_illegal ht)

/-- Settles O24: the comparison is with the lower bound alone, and the parameter decides on the excess. -/
theorem matchAtLeastHasNoUpperBound : Obligations.MatchAtLeastHasNoUpperBound := by
  intro s
  constructor
  · rintro ht _ rfl
    refine next_pulseCommand_of_legal ht ((matchAtLeast_iff _ _ _ _ _).trans ?_)
    cases s.build.atLeastAppliesExcess <;> rfl
  · exact fun ht => congrArg _ (pulseCommand_of_illegal ht)

end Sys2Proof.Machine
end

section
/-! The bit loop and the byte loop (R120, R124) as compositions: the loop over some bits is the loop over the first of
them followed by the loop over the rest, a byte is a loop over eight bits, and the two bit orders differ by a reversal
of the value. -/

namespace Sys2Proof.Machine

/-! ### Outcomes in sequence -/

/-- The matcher `f` run after a success, from its value and its entries on; a failure stays. -/
def Match.andThen {α β : Type} (m : Match α) (f : α → Nat → Match β) : Match β :=
  match m with
  | .ok x u => f x u
  | .fail c => .fail c

@[simp] theorem Match.andThen_ok {α β : Type} (x : α) (u : Nat) (f : α → Nat → Match β) :
    (Match.ok x u).andThen f = f x u := rfl

@[simp] theorem Match.andThen_fail {α β : Type} (c : Miss) (f : α → Nat → Match β) :
    (Match.fail c).andThen f = .fail c := rfl

@[simp] theorem matchMap_of_ok {α β : Type} (f : α → β) (x : α) (u : Nat) : matchMap f (.ok x u) = .ok (f x) u := rfl

@[simp] theorem matchMap_of_fail {α β : Type} (f : α → β) (c : Miss) : matchMap f (.fail c) = .fail c := rfl

theorem matchMap_matchMap {α β γ : Type} (f : β → γ) (g : α → β) (m : Match α) :
    matchMap f (matchMap g m) = matchMap (fun x => f (g x)) m := by cases m <;> rfl

/-! ### The entries of bits -/

theorem entriesOf_eq (n : Nat) (els : Bool) : entriesOf n els = 2 * n - (if els then 0 else 1) := by cases els <;> rfl

/-- The first `m` bits have their last space when bits follow. -/
theorem entriesOf_add (m k : Nat) (els : Bool) :
    entriesOf (m + k) els = entriesOf m (decide (0 < k) || els) + entriesOf k els := by
  rcases Nat.eq_zero_or_pos k with rfl | hk
  · simp [entriesOf]
  · cases els <;> simp [entriesOf, hk] <;> omega

theorem entriesOf_one (sp : Bool) : entriesOf 1 sp = 1 + sp.toNat := by cases sp <;> rfl

theorem bytes_pos_iff (k : Nat) : 0 < 8 * k ↔ 0 < k := Nat.mul_pos_iff_of_pos_left (by decide)

/-- The first byte has its last space when bytes follow. -/
theorem entriesOf_bytes_succ (k : Nat) (els : Bool) :
    entriesOf (8 * (k + 1)) els = entriesOf 8 (decide (0 < k) || els) + entriesOf (8 * k) els := by
  rw [Nat.mul_succ, Nat.add_comm, entriesOf_add]
  simp only [bytes_pos_iff]

/-- The pair of bit `k` lies within the entries of the `n` bits. -/
theorem pair_le_entriesOf {n k : Nat} (els : Bool) (h : k < n) :
    2 * k + 1 + (decide (k + 1 < n) || els).toNat ≤ entriesOf n els := by
  by_cases hk : k + 1 < n <;> cases els <;> simp [entriesOf, hk] <;> omega

/-! ### The bit loop -/

section
variable {tb : List Word} {c : BitCoding} {start : Nat}

theorem bitLoop_add (m k : Nat) (els : Bool) : ∀ o v,
    bitLoop tb start c els (m + k) o v =
      (bitLoop tb start c (decide (0 < k) || els) m o v).andThen fun x u => bitLoop tb start c els k u x := by
  induction m with
  | zero => intro o v; rw [Nat.zero_add]; rfl
  | succ m ih =>
    intro o v
    have hsp : (decide (0 < m + k) || els) = (decide (0 < m) || (decide (0 < k) || els)) := by
      rw [← Bool.or_assoc, ← Bool.decide_or]
      simp only [Nat.add_pos_iff_pos_or_pos]
    rw [Nat.add_right_comm, bitLoop, bitLoop]
    simp only [hsp, ih]
    split
    · rfl
    · split <;> rfl

/-- The loop entered `p` entries after `start`, with `i + k` bits to the right of `v`, is the loop that starts there,
with `v` put in front of its value. -/
theorem bitLoop_shift (p v : Nat) (els : Bool) (k : Nat) : ∀ i o x,
    bitLoop tb start c els k (p + o) (v * 2 ^ i + x) =
      (bitLoop tb (start + p) c els k o x).andThen fun y u => .ok (v * 2 ^ (i + k) + y) (p + u) := by
  induction k with
  | zero => intro i o x; rfl
  | succ k ih =>
    intro i o x
    have hvalue : ∀ b, 2 * (v * 2 ^ i + x) + b = v * 2 ^ (i + 1) + (2 * x + b) := by intro b; ring
    rw [bitLoop, bitLoop, hvalue 1, ← Nat.add_zero (2 * (v * 2 ^ i + x)), hvalue 0]
    simp only [Nat.add_assoc p, ← Nat.add_assoc start, ih, Nat.add_zero, Nat.add_right_comm i 1 k]
    split
    · rfl
    · split <;> rfl

theorem bitLoop_restart (els : Bool) (k p v : Nat) :
    bitLoop tb start c els k p v =
      (bitLoop tb (start + p) c els k 0 0).andThen fun y u => .ok (v * 2 ^ k + y) (p + u) := by
  simpa using bitLoop_shift p v els k 0 0 0

/-- R123 item 3: in wire order the first bit is the most significant one, and it is 1 when the one pair matches. -/
theorem bitLoop_firstBit {els : Bool} {k o x u : Nat} (h : bitLoop tb start c els (k + 1) o 0 = .ok x u) :
    x.testBit k = matchPair tb (start + o) c.om c.os c (decide (0 < k) || els) := by
  have htop : ∀ {o v}, bitLoop tb start c els k o v = .ok x u → x.testBit k = decide (v % 2 = 1) := by
    intro o v h
    obtain ⟨-, hlo, hhi⟩ := bitLoop_ok _ _ _ _ _ h
    rw [Nat.testBit_eq_decide_div_mod_eq, Nat.div_eq_of_lt_le hlo hhi]
  rw [bitLoop] at h
  split at h
  · rw [htop h, ‹matchPair _ _ _ _ _ _ = true›]
    rfl
  · split at h
    · rw [htop h, Bool.eq_false_iff.2 ‹¬matchPair _ _ c.om _ _ _ = true›]
      rfl
    · cases h

/-- R123 item 4: the bit loop reads the entries of its bits only. -/
theorem bitLoop_congr {tb' : List Word} {els : Bool} (k : Nat) : ∀ o v,
    (∀ i, o ≤ i → i < o + entriesOf k els → entry tb (start + i) = entry tb' (start + i)) →
    bitLoop tb start c els k o v = bitLoop tb' start c els k o v := by
  induction k with
  | zero => intro o v _; rfl
  | succ k ih =>
    intro o v h
    have hlen : entriesOf (k + 1) els = 1 + (decide (0 < k) || els).toNat + entriesOf k els := by
      rw [Nat.add_comm, entriesOf_add, entriesOf_one]
    have hpair : ∀ m s, matchPair tb (start + o) m s c (decide (0 < k) || els) =
        matchPair tb' (start + o) m s c (decide (0 < k) || els) := by
      intro m s
      rw [matchPair, matchPair, h o (by omega) (by omega)]
      cases hsp : decide (0 < k) || els with
      | false => rfl
      | true =>
        rw [hsp, Bool.toNat_true] at hlen
        rw [Nat.add_assoc, h (o + 1) (by omega) (by omega)]
    rw [bitLoop, bitLoop, hpair, hpair]
    rw [ih _ (2 * v + 1) fun i hlo hhi => h i (by omega) (by omega),
      ih _ (2 * v) fun i hlo hhi => h i (by omega) (by omega)]

end

/-! ### matchData -/

theorem orderBits_firstBit (msb : Bool) (n v : Nat) :
    (orderBits msb (n + 1) v).testBit (if msb then n else 0) = v.testBit n := by
  cases msb
  · exact revBits_testBit (n + 1) v 0 (by omega)
  · rfl

section
variable {tb : List Word} {start n : Nat} {c : BitCoding} {msb els : Bool}

theorem matchData_of_le (h : entriesOf n els ≤ tb.length - start) :
    matchData tb start n c msb els = matchMap (orderBits msb n) (bitLoop tb start c els n 0 0) := if_neg (by omega)

/-- R123 item 2: LSB-first reverses the value, and changes nothing else. -/
theorem matchData_lsbFirst :
    matchData tb start n c false els = matchMap (revBits n) (matchData tb start n c true els) := by
  unfold matchData
  split
  · rfl
  · rw [matchMap_matchMap]
    rfl

/-- R123 item 3: the first wire bit is the value's top bit, or bit 0 when it is LSB-first. -/
theorem matchData_firstBit {v u : Nat} (h : matchData tb start (n + 1) c msb els = .ok v u) :
    v.testBit (if msb then n else 0) = matchPair tb start c.om c.os c (decide (0 < n) || els) := by
  obtain ⟨-, -, hle⟩ := matchData_ok h
  rw [matchData_of_le hle] at h
  obtain ⟨x, hloop, rfl⟩ := matchMap_ok.1 h
  rw [orderBits_firstBit, bitLoop_firstBit hloop, Nat.add_zero]

theorem matchData_congr {tb' : List Word} (h : entriesOf n els ≤ tb.length - start)
    (h' : entriesOf n els ≤ tb'.length - start) (heq : ∀ i, i < entriesOf n els → tb[start + i]? = tb'[start + i]?) :
    matchData tb start n c msb els = matchData tb' start n c msb els := by
  have hentry : ∀ i, i < entriesOf n els → entry tb (start + i) = entry tb' (start + i) := by
    intro i hi
    rw [entry, entry, List.getD_eq_getElem?_getD, List.getD_eq_getElem?_getD, heq i hi]
  rw [matchData_of_le h, matchData_of_le h', bitLoop_congr n 0 0 fun i _ hi => hentry i (by omega)]

end

/-- Bit `k` of the `n` bits from entry `start` on is decided as `b`: a 1 if the one pair matches, else a 0 if the zero
pair does (R120). -/
def BitDecides (tb : List Word) (start : Nat) (c : BitCoding) (els : Bool) (n k : Nat) (b : Bool) : Prop :=
  if b then matchPair tb (start + 2 * k) c.om c.os c (decide (k + 1 < n) || els) = true
  else matchPair tb (start + 2 * k) c.om c.os c (decide (k + 1 < n) || els) = false ∧
    matchPair tb (start + 2 * k) c.zm c.zs c (decide (k + 1 < n) || els) = true

section
variable {tb : List Word} {start n : Nat} {c : BitCoding} {els : Bool} {bits : Nat → Bool} (msb : Bool)
  (hle : entriesOf n els ≤ tb.length - start)
include hle

/-- R120, R123 item 3: when every bit is decided, the value has the bits in the order asked for. -/
theorem matchData_of_decided (h : ∀ k, k < n → BitDecides tb start c els n k (bits k)) :
    matchData tb start n c msb els = .ok (wireValue msb n bits) (entriesOf n els) := by
  rw [matchData_of_le hle, bitLoop_value n 0 0 bits h, matchMap_of_ok, Nat.zero_mul, Nat.zero_add, Nat.zero_add,
    orderBits_wireValue]

/-- R120: the first bit that matches neither pair is a mismatch. -/
theorem matchData_of_undecided {k : Nat} (hk : k < n) (h : ∀ j, j < k → BitDecides tb start c els n j (bits j))
    (hone : ¬BitDecides tb start c els n k true) (hzero : ¬BitDecides tb start c els n k false) :
    matchData tb start n c msb els = .fail .timingMismatch := by
  have h1 := Bool.eq_false_iff.2 hone
  rw [matchData_of_le hle, bitLoop_mismatch n 0 0 k bits hk h h1 (Bool.eq_false_iff.2 fun h0 => hzero ⟨h1, h0⟩),
    matchMap_of_fail]

end

/-! ### The byte loop and matchBytes -/

/-- The byte with its bits in the other order (R11). -/
def revByte (b : Byte) : Byte := BitVec.ofNat 8 (revBits 8 b.toNat)

theorem revByte_getLsbD (b : Byte) {i : Nat} (h : i < 8) : (revByte b).getLsbD i = b.getLsbD (7 - i) := by
  rw [revByte, BitVec.getLsbD_ofNat, decide_eq_true h, Bool.true_and, revBits_testBit 8 _ i h]
  rfl

/-- The bytes `bs` joined into an integer to the right of `a`, byte 0 most significant (R127 item 3). -/
def joinBytes (a : Nat) (bs : List Byte) : Nat := bs.foldl (fun a b => a * 256 + b.toNat) a

@[simp] theorem joinBytes_cons (a : Nat) (b : Byte) (bs : List Byte) :
    joinBytes a (b :: bs) = joinBytes (a * 256 + b.toNat) bs := rfl

/-- Byte `j` of the `k` bytes from entry `i` on reads as `b`: by its own eight bits, the last byte's last space as `els`
says (R124). -/
def ByteReads (tb : List Word) (i : Nat) (c : BitCoding) (msb els : Bool) (k j : Nat) (b : Byte) : Prop :=
  ∃ u, matchData tb (i + 16 * j) 8 c msb (decide (j + 1 < k) || els) = .ok b.toNat u

section
variable {tb : List Word} {c : BitCoding} {msb els : Bool} {start : Nat}

theorem byteLoop_succ (k o : Nat) :
    byteLoop tb start c msb els (k + 1) o =
      (matchData tb (start + o) 8 c msb (decide (0 < k) || els)).andThen fun b u =>
        matchMap (BitVec.ofNat 8 b :: ·) (byteLoop tb start c msb els k (o + u)) := by
  rw [byteLoop]
  cases matchData tb (start + o) 8 c msb (decide (0 < k) || els) <;> rfl

theorem ofNat_toNat_of_matchData_ok {i v u : Nat} (h : matchData tb i 8 c msb els = .ok v u) :
    (BitVec.ofNat 8 v).toNat = v := by
  obtain ⟨hv, -⟩ := matchData_ok h
  rw [BitVec.toNat_ofNat, Nat.mod_eq_of_lt hv]

/-- A byte that others follow has its last space. -/
theorem byteReads_succ {i u v k j : Nat} {b : Byte} (hj : j < k)
    (h : matchData tb i 8 c msb (decide (0 < k) || els) = .ok v u) :
    ByteReads tb (i + u) c msb els k j b ↔ ByteReads tb i c msb els (k + 1) (j + 1) b := by
  obtain ⟨-, rfl, -⟩ := matchData_ok h
  have hu : i + entriesOf 8 (decide (0 < k) || els) + 16 * j = i + 16 * (j + 1) := by
    rw [decide_eq_true (by omega : 0 < k), Bool.true_or, entriesOf_eq, if_pos rfl]
    omega
  simp only [ByteReads, hu, Nat.succ_lt_succ_iff]

theorem byteReads_zero {i k : Nat} {b : Byte} :
    ByteReads tb i c msb els (k + 1) 0 b ↔ ∃ u, matchData tb i 8 c msb (decide (0 < k) || els) = .ok b.toNat u := by
  simp only [ByteReads, Nat.mul_zero, Nat.add_zero, Nat.succ_lt_succ_iff]

theorem byteLoop_succ_ok {k o : Nat} {bs : List Byte} {u : Nat} :
    byteLoop tb start c msb els (k + 1) o = .ok bs u ↔
      ∃ b rest u', bs = b :: rest ∧ matchData tb (start + o) 8 c msb (decide (0 < k) || els) = .ok b.toNat u' ∧
        byteLoop tb start c msb els k (o + u') = .ok rest u := by
  rw [byteLoop_succ]
  constructor
  · intro h
    cases hfirst : matchData tb (start + o) 8 c msb (decide (0 < k) || els) with
    | fail w => rw [hfirst] at h; cases h
    | ok v u' =>
      rw [hfirst] at h
      obtain ⟨rest, hrest, rfl⟩ := matchMap_ok.1 h
      exact ⟨_, rest, u', rfl, by rw [ofNat_toNat_of_matchData_ok hfirst], hrest⟩
  · rintro ⟨b, rest, u', rfl, hfirst, hrest⟩
    rw [hfirst, Match.andThen_ok, hrest, matchMap_of_ok, BitVec.ofNat_toNat, BitVec.setWidth_eq]

/-- The byte loop gives the bytes that each read from their own entries (R124). -/
theorem byteLoop_ok_iff (k : Nat) : ∀ o bs u,
    byteLoop tb start c msb els k o = .ok bs u ↔
      bs.length = k ∧ u = o + entriesOf (8 * k) els ∧
        ∀ (j : Nat) (h : j < bs.length), ByteReads tb (start + o) c msb els k j bs[j] := by
  induction k with
  | zero =>
    intro o bs u
    cases bs <;> simp [byteLoop, entriesOf, eq_comm]
  | succ k ih =>
    intro o bs u
    rw [byteLoop_succ_ok, entriesOf_bytes_succ]
    constructor
    · rintro ⟨b, rest, u', rfl, hfirst, hrest⟩
      obtain ⟨rfl, rfl, hreads⟩ := (ih _ _ _).1 hrest
      refine ⟨rfl, by rw [← (matchData_ok hfirst).2.1, Nat.add_assoc], ?_⟩
      rintro (_ | j) hj
      · exact byteReads_zero.2 ⟨u', hfirst⟩
      · have hj : j < rest.length := Nat.lt_of_succ_lt_succ hj
        exact (byteReads_succ hj hfirst).1 (Nat.add_assoc start o u' ▸ hreads j hj)
    · rintro ⟨hlen, rfl, hreads⟩
      obtain ⟨b, rest, rfl⟩ := List.exists_cons_of_length_eq_add_one hlen
      obtain rfl : rest.length = k := Nat.succ.inj hlen
      obtain ⟨u', hfirst⟩ := byteReads_zero.1 (hreads 0 (Nat.succ_pos _))
      refine ⟨b, rest, u', rfl, hfirst,
        (ih _ _ _).2 ⟨rfl, by rw [← (matchData_ok hfirst).2.1, Nat.add_assoc], fun j hj => ?_⟩⟩
      rw [← Nat.add_assoc]
      exact (byteReads_succ hj hfirst).2 (hreads (j + 1) (Nat.succ_lt_succ hj))

/-- matchBytes' outcomes: a success is a byte for each of its entries' eight bits, all of them there (R124). -/
theorem matchBytes_ok_iff {nb : Nat} {bs : List Byte} {u : Nat} :
    matchBytes tb start nb c msb els = .ok bs u ↔
      bs.length = nb ∧ u = entriesOf (8 * nb) els ∧ entriesOf (8 * nb) els ≤ tb.length - start ∧
        ∀ (j : Nat) (h : j < bs.length), ByteReads tb start c msb els nb j bs[j] := by
  rw [matchBytes]
  split
  · have : ¬entriesOf (8 * nb) els ≤ tb.length - start := by omega
    simp [this]
  · rw [byteLoop_ok_iff, Nat.zero_add, Nat.add_zero]
    have : entriesOf (8 * nb) els ≤ tb.length - start := by omega
    simp only [this, true_and]

/-- With its entries there, matchBytes is a mismatch when some byte does not read. -/
theorem matchBytes_mismatch {nb j : Nat} (hle : entriesOf (8 * nb) els ≤ tb.length - start) (hj : j < nb)
    (h : ∀ b, ¬ByteReads tb start c msb els nb j b) : matchBytes tb start nb c msb els = .fail .timingMismatch := by
  cases hm : matchBytes tb start nb c msb els with
  | ok bs u =>
    obtain ⟨rfl, -, -, hreads⟩ := matchBytes_ok_iff.1 hm
    exact absurd (hreads j hj) (h _)
  | fail w =>
    cases w
    · have := matchBytes_insufficient.1 hm
      omega
    · rfl

/-- LSB-first reverses each byte on its own, in the same byte order (R127 item 2). -/
theorem byteLoop_lsbFirst (k : Nat) : ∀ o,
    byteLoop tb start c false els k o = matchMap (List.map revByte) (byteLoop tb start c true els k o) := by
  induction k with
  | zero => intro o; rfl
  | succ k ih =>
    intro o
    rw [byteLoop_succ, byteLoop_succ, matchData_lsbFirst]
    cases hfirst : matchData tb (start + o) 8 c true (decide (0 < k) || els) with
    | fail w => rfl
    | ok v u =>
      rw [matchMap_of_ok, Match.andThen_ok, Match.andThen_ok, ih, matchMap_matchMap, matchMap_matchMap]
      simp only [List.map_cons, revByte, ofNat_toNat_of_matchData_ok hfirst]

theorem matchBytes_lsbFirst {nb : Nat} :
    matchBytes tb start nb c false els = matchMap (List.map revByte) (matchBytes tb start nb c true els) := by
  unfold matchBytes
  split
  · rfl
  · exact byteLoop_lsbFirst nb 0

/-- The bit loop over the bits of `k` bytes is the byte loop, MSB-first, with its bytes joined. -/
theorem bitLoop_eq_byteLoop (k : Nat) : ∀ o v, o + entriesOf (8 * k) els ≤ tb.length - start →
    bitLoop tb start c els (8 * k) o v = matchMap (joinBytes v) (byteLoop tb start c true els k o) := by
  induction k with
  | zero => intro o v _; rfl
  | succ k ih =>
    intro o v hle
    rw [entriesOf_bytes_succ] at hle
    have hdata : matchData tb (start + o) 8 c true (decide (0 < k) || els) =
        bitLoop tb (start + o) c (decide (0 < k) || els) 8 0 0 := by
      rw [matchData_of_le (by omega)]
      cases bitLoop tb (start + o) c (decide (0 < k) || els) 8 0 0 <;> rfl
    rw [Nat.mul_succ, Nat.add_comm (8 * k), bitLoop_add, byteLoop_succ]
    simp only [bytes_pos_iff]
    rw [bitLoop_restart, ← hdata]
    cases hfirst : matchData tb (start + o) 8 c true (decide (0 < k) || els) with
    | fail w => rfl
    | ok x u =>
      obtain ⟨-, hu, -⟩ := matchData_ok hfirst
      simp only [Match.andThen_ok]
      rw [ih (o + u) _ (by omega), matchMap_matchMap]
      simp only [joinBytes_cons, ofNat_toNat_of_matchData_ok hfirst]
      rfl

/-- R127 item 3: MSB-first, the integer of the bits of `nb` bytes is the bytes joined, and they fail alike. -/
theorem matchData_eq_matchBytes {nb : Nat} :
    matchData tb start (8 * nb) c true els = matchMap (joinBytes 0) (matchBytes tb start nb c true els) := by
  rw [matchData, matchBytes]
  split
  · rfl
  · rw [← bitLoop_eq_byteLoop nb 0 0 (by omega)]
    cases bitLoop tb start c els (8 * nb) 0 0 <;> rfl

/-- R127 item 3: in either bit order, bytes and the integer of their bits fail alike. -/
theorem matchBytes_fail_iff {nb : Nat} {why : Miss} :
    matchBytes tb start nb c msb els = .fail why ↔ matchData tb start (8 * nb) c msb els = .fail why := by
  cases msb
  · rw [matchBytes_lsbFirst, matchData_lsbFirst, matchMap_fail, matchMap_fail, matchData_eq_matchBytes, matchMap_fail]
  · rw [matchData_eq_matchBytes, matchMap_fail]

end

end Sys2Proof.Machine
end

section
/-! The bit and byte matchers' commands: one bit on the valid part of TB, and how a byte matcher's command fails
(R126). -/

namespace Sys2Proof.Machine

/-! ### MATCH_DATA -/

/-- On the valid part of TB that has the entries of all bits, a bit at the cursor is decided as R120 says. -/
theorem bitReads_iff {s : State} {n k : Nat} {b : Bool} (hk : k < n)
    (hle : entriesOf n (cfgExpectLastSpace s.regs) ≤ remaining s) :
    bitReads s n k b ↔
      BitDecides (tbEntries s) s.regs.cursor.toNat (codingOf s.regs) (cfgExpectLastSpace s.regs) n k b := by
  have hpair := fun m p : Word =>
    matchPair_tbEntries s (2 * k) m p (hasSpace s n k) ((pair_le_entriesOf _ hk).trans hle)
  rw [bitReads, ← hpair, ← hpair]
  rfl

/-- MATCH_DATA with legal operands: it ends as matchData does (R122). -/
theorem execMatchData_of_legal {s : State} {m : Match Nat} (ht : s.regs.tol.toNat ≤ 100) (h1 : 1 ≤ s.regs.nbits.toNat)
    (h64 : s.regs.nbits.toNat ≤ 64)
    (hm : matchData (tbEntries s) s.regs.cursor.toNat s.regs.nbits.toNat (codingOf s.regs) (cfgMsbFirst s.regs)
      (cfgExpectLastSpace s.regs) = m) :
    exec .matchData s = .next (finishInt m s) := by
  subst hm
  exact congrArg _ (if_pos ((intMatchLegal_iff s.regs).2 ⟨ht, h1, h64⟩))

/-! ### MATCH_BYTES -/

theorem execMatchBytes_of_legal {s : State} {m : Match (List Byte)} (ht : s.regs.tol.toNat ≤ 100)
    (h1 : 1 ≤ s.regs.nbytes.toNat) (hcap : s.regs.baOff.toNat + s.regs.nbytes.toNat ≤ s.build.baCap)
    (hm : matchBytes (tbEntries s) s.regs.cursor.toNat s.regs.nbytes.toNat (codingOf s.regs) (cfgMsbFirst s.regs)
      (cfgExpectLastSpace s.regs) = m) :
    exec .matchBytes s = .next (finishBytes s.regs.baOff.toNat s.regs.nbytes.toNat m s) := by
  subst hm
  exact congrArg _ (if_pos ((byteMatchLegal_iff s.build s.regs).2 ⟨ht, h1, hcap⟩))

/-- How a byte matcher's command fails (R126): with BA as it was, or with a mismatch and free values in its range. -/
def ByteMatchFailsAt (off len : Nat) (s t : State) : Prop :=
  t = raiseBytes .illegalOperand s ∨ t = raiseBytes .insufficientBuffer s ∨
    t = raiseBytes .timingMismatch (anyBytes s off len)

theorem byteMatchCommand_fails {legal : Bool} {off len : Nat} {m : Match (List Byte)} {s : State}
    (h : (if legal then finishBytes off len m s else raiseBytes .illegalOperand s).status ≠ 0) :
    ByteMatchFailsAt off len s (if legal then finishBytes off len m s else raiseBytes .illegalOperand s) := by
  cases legal
  · exact .inl rfl
  · rcases finishBytes_cases off len m s with ⟨-, hend⟩ | ⟨-, hend⟩ | ⟨bs, u, -, hend⟩
    · exact .inr (.inl hend)
    · exact .inr (.inr hend)
    · exact absurd (congrArg State.status hend) h

theorem exec_byteMatch_fails {i : Instr} {s t : State} {len : Nat}
    (hi : (i = .matchBytes ∧ len = s.regs.nbytes.toNat) ∨ (i = .matchGenericBytes ∧ len = s.regs.nbits.toNat / 8))
    (h : exec i s = .next t) (hs : t.status ≠ 0) : ByteMatchFailsAt s.regs.baOff.toNat len s t := by
  obtain ⟨rfl, rfl⟩ | ⟨rfl, rfl⟩ := hi <;> cases h <;> exact byteMatchCommand_fails hs

end Sys2Proof.Machine
end

section
/-! The obligations of the bit and byte decoder family. -/

namespace Sys2Proof.Machine

/-- Settles O26: the valid part of TB has the entries or not, and then the bit loop decides every bit or stops. -/
theorem matchDataOutcomes : Obligations.MatchDataOutcomes := by
  rintro s n total bits rfl htotal
  rw [← entriesOf_eq] at htotal
  subst htotal
  refine ⟨fun hill => congrArg _ (if_neg (mt (intMatchLegal_iff s.regs).1 (by omega))), fun ht h1 h64 => ⟨?_, ?_, ?_⟩⟩
  · intro hshort
    exact execMatchData_of_legal ht h1 h64 (matchData_insufficient.2 (by rwa [tbEntries_length]))
  · exact fun hle hbits => execMatchData_of_legal ht h1 h64
      (matchData_of_decided _ (by rwa [tbEntries_length]) fun k hk => (bitReads_iff hk hle).1 (hbits k hk))
  · rintro hle k hk hbefore ⟨hone, hzero⟩
    exact execMatchData_of_legal ht h1 h64
      (matchData_of_undecided _ (by rwa [tbEntries_length]) hk
        (fun j hj => (bitReads_iff (hj.trans hk) hle).1 (hbefore j hj))
        (mt (bitReads_iff hk hle).2 hone) (mt (bitReads_iff hk hle).2 hzero))

/-- Settles O27: the bit orders differ by a reversal of the value, and the bit loop reads the entries of its bits. -/
theorem matchDataProperties : Obligations.MatchDataProperties := by
  intro tb start n c els h1 _ _
  obtain ⟨m, rfl⟩ := Nat.exists_eq_add_of_le' h1
  simp only [← entriesOf_eq]
  refine ⟨fun msb v u h => ?_, fun v u h => ?_, fun why => ?_, fun tb' msb => matchData_congr⟩
  · obtain ⟨hv, hu, -⟩ := matchData_ok h
    refine ⟨hv, hu, ?_⟩
    simpa only [Nat.add_sub_cancel, Nat.lt_add_left_iff_pos] using matchData_firstBit h
  · exact ⟨revBits (m + 1) v, by rw [matchData_lsbFirst, h, matchMap_of_ok], revBits_lt _ _, revBits_testBit _ _⟩
  · rw [matchData_lsbFirst, matchMap_fail]

/-- Settles O28: MATCH_BYTES succeeds exactly when each byte reads from its own entries. -/
theorem matchBytesOutcomes : Obligations.MatchBytesOutcomes := by
  rintro s nb off need b rfl rfl hneed
  have hneed : need = entriesOf (8 * s.regs.nbytes.toNat) (cfgExpectLastSpace s.regs) := by
    rw [hneed, entriesOf_eq, ← Nat.mul_assoc]
  subst hneed
  refine ⟨fun hill => congrArg _ (if_neg (mt (byteMatchLegal_iff s.build s.regs).1 (by omega))),
    fun ht h1 hcap => ⟨fun hshort => ?_, fun hle hreads => ?_, ?_⟩⟩
  · exact execMatchBytes_of_legal ht h1 hcap (matchBytes_insufficient.2 (by rwa [tbEntries_length]))
  · set bs := (List.range s.regs.nbytes.toNat).map b with hbs
    have hlen : bs.length = s.regs.nbytes.toNat := by simp [hbs]
    have hget : ∀ (j : Nat) (hj : j < bs.length), bs[j] = b j := by simp [hbs]
    have hok := matchBytes_ok_iff.2 ⟨hlen, rfl, by rwa [tbEntries_length], fun j hj => by
      rw [hget]
      exact hreads j (hlen ▸ hj)⟩
    refine ⟨_, execMatchBytes_of_legal ht h1 hcap hok, rfl, fun j hj => ?_, fun j hj => ?_⟩
    · exact (readBa_writeBytes_inside s _ bs j (hlen ▸ hj)).trans (hget j _)
    · exact readBa_writeBytes_outside s _ bs j (hlen ▸ hj)
  · rintro hle ⟨j, hj, hno⟩
    have hmiss := matchBytes_mismatch (tb := tbEntries s) (by rwa [tbEntries_length]) hj
      fun b ⟨u, hb⟩ => hno _ u hb
    exact ⟨_, execMatchBytes_of_legal ht h1 hcap hmiss, rfl, fun j => readBa_anyBytes_outside s _ _ j⟩

/-- Settles O29: of the three failures only the mismatch writes BA, and it writes the target range. -/
theorem failedByteMatchTouchesItsRangeOnly : Obligations.FailedByteMatchTouchesItsRangeOnly := by
  intro i s t len hi h hs
  obtain rfl | rfl | rfl := exec_byteMatch_fails hi h hs
  · exact ⟨rfl, .inr (.inr rfl), fun _ => rfl, fun _ _ => rfl⟩
  · exact ⟨rfl, .inl rfl, fun _ => rfl, fun _ _ => rfl⟩
  · exact ⟨rfl, .inr (.inl rfl), fun hne => absurd rfl hne, readBa_anyBytes_outside s _ len⟩

/-- Settles O30: the byte loop is the bit loop cut into bytes. -/
theorem matchBytesProperties : Obligations.MatchBytesProperties := by
  intro tb start nb c els _ _
  refine ⟨fun msb bs u h => ?_, fun bs u h => ?_, fun _ msb why => matchBytes_fail_iff, fun _ bs u h => ?_⟩
  · obtain ⟨hlen, hu, -, hreads⟩ := matchBytes_ok_iff.1 h
    exact ⟨hlen, by rw [hu, entriesOf_eq, ← Nat.mul_assoc], hreads⟩
  · refine ⟨bs.map revByte, by rw [matchBytes_lsbFirst, h, matchMap_of_ok], List.length_map _, fun j i hi => ?_⟩
    rw [← revByte_getLsbD _ hi, show (0 : Byte) = revByte 0 by decide, List.getD_map]
    rfl
  · rw [matchData_eq_matchBytes, h, matchMap_of_ok, joinBytes]

end Sys2Proof.Machine
end

section
/-! The frame matchers' commands on the valid part of TB (R140, R144, R146, R161): when each runs short of entries, when
it is a mismatch, and how many entries it uses (R147, R162). -/

namespace Sys2Proof.Machine

/-! ### A section's entries -/

theorem tbEntries_left (s : State) : (tbEntries s).length - s.regs.cursor.toNat = remaining s := by
  rw [tbEntries_length, remaining]

/-- R140's minimum, whatever the pairs are coded by (R164 item 1 swaps the spaces). -/
theorem frameMin_frameArgsOf (s : State) (c : BitCoding) :
    frameMin { frameArgsOf s with coding := c } s.regs.nbits.toNat = sectionMinimum s.regs := by
  simp only [frameMin, sectionMinimum, headerEntries, frameArgsOf, Nat.add_assoc]

/-- R147 item 2, in the terms of the core matcher. -/
theorem frameUsed_frameArgsOf (s : State) (c : BitCoding) :
    frameMin { frameArgsOf s with coding := c } s.regs.nbits.toNat +
        (if { frameArgsOf s with coding := c }.fs ≠ 0 ∧
          frameMin { frameArgsOf s with coding := c } s.regs.nbits.toNat <
            (tbEntries s).length - s.regs.cursor.toNat then 1 else 0) = sectionUsed s := by
  simp only [frameMin_frameArgsOf, tbEntries_left, sectionUsed, ← word_toNat_ne_zero]
  rfl

theorem cbtMin_frameArgsOf (s : State) : cbtMin (frameArgsOf s) s.regs.nbits.toNat = cbtMinimum s.regs := rfl

/-- A section has the entries of its bits' pairs, header or not. -/
theorem bits_le_sectionUsed (s : State) : 2 * s.regs.nbits.toNat ≤ sectionUsed s := by
  simp only [sectionUsed, sectionMinimum]
  omega

/-! ### The core matchers at the cursor -/

theorem Match.eq_mismatch {α : Type} {m : Match α} (hshort : m ≠ .fail .insufficientBuffer)
    (hok : ∀ x u, m ≠ .ok x u) : m = .fail .timingMismatch := by
  match m with
  | .ok x u => exact absurd rfl (hok x u)
  | .fail .insufficientBuffer => exact absurd rfl hshort
  | .fail .timingMismatch => rfl

section
variable {s : State}

theorem matchGenericBits_short_iff :
    matchGenericBits (tbEntries s) s.regs.cursor.toNat s.regs.nbits.toNat (frameArgsOf s) = .fail .insufficientBuffer ↔
      remaining s < sectionMinimum s.regs := by
  rw [matchGenericBits_insufficient, tbEntries_left, ← frameMin_frameArgsOf s (codingOf s.regs)]
  rfl

theorem matchGenericBytes_short_iff (h8 : s.regs.nbits.toNat % 8 = 0) :
    matchGenericBytes (tbEntries s) s.regs.cursor.toNat s.regs.nbits.toNat (frameArgsOf s) = .fail .insufficientBuffer ↔
      remaining s < sectionMinimum s.regs := by
  rw [matchGenericBytes_insufficient h8, tbEntries_left, ← frameMin_frameArgsOf s (codingOf s.regs)]
  rfl

theorem matchGenericBits_mismatch (hmin : sectionMinimum s.regs ≤ remaining s)
    (hno : ∀ v, ¬sectionFits s (bitsBody s) v) :
    matchGenericBits (tbEntries s) s.regs.cursor.toNat s.regs.nbits.toNat (frameArgsOf s) = .fail .timingMismatch :=
  Match.eq_mismatch (mt matchGenericBits_short_iff.1 (Nat.not_lt.2 hmin))
    fun v u h => hno v ((matchGenericBits_tbEntries s v u hmin).1 h).1

theorem matchGenericBytes_mismatch (h8 : s.regs.nbits.toNat % 8 = 0) (hmin : sectionMinimum s.regs ≤ remaining s)
    (hno : ∀ bs, ¬sectionFits s (bytesBody s) bs) :
    matchGenericBytes (tbEntries s) s.regs.cursor.toNat s.regs.nbits.toNat (frameArgsOf s) = .fail .timingMismatch :=
  Match.eq_mismatch (mt (matchGenericBytes_short_iff h8).1 (Nat.not_lt.2 hmin))
    fun bs u h => hno bs ((matchGenericBytes_tbEntries s bs u h8 hmin).1 h).1

/-- A matched section of bits uses what R147 item 2 says, with the pairs of either matcher. -/
theorem matchGenericBits_used {c : BitCoding} {v u : Nat}
    (h : matchGenericBits (tbEntries s) s.regs.cursor.toNat s.regs.nbits.toNat { frameArgsOf s with coding := c } =
      .ok v u) : u = sectionUsed s ∧ u ≤ remaining s := by
  obtain ⟨-, hu, hle⟩ := matchGenericBits_ok h
  exact ⟨hu.trans (frameUsed_frameArgsOf s c), tbEntries_left s ▸ hle⟩

theorem matchGenericBytes_used (h8 : s.regs.nbits.toNat % 8 = 0) {bs : List Byte} {u : Nat}
    (h : matchGenericBytes (tbEntries s) s.regs.cursor.toNat s.regs.nbits.toNat (frameArgsOf s) = .ok bs u) :
    u = sectionUsed s ∧ u ≤ remaining s := by
  obtain ⟨-, hu, hle⟩ := matchGenericBytes_ok h8 h
  exact ⟨hu.trans (frameUsed_frameArgsOf s (codingOf s.regs)), tbEntries_left s ▸ hle⟩

/-- With a footer mark a constant-bit-time frame is a section of bits (R161). -/
theorem matchCbt_used_of_footer (hfm : s.regs.ftrMark ≠ 0) {v u : Nat}
    (h : matchCbt (tbEntries s) s.regs.cursor.toNat s.regs.nbits.toNat (frameArgsOf s) = .ok v u) :
    u = sectionUsed s ∧ u ≤ remaining s := by
  rw [matchCbt, if_pos (show (frameArgsOf s).fm ≠ 0 from word_toNat_ne_zero.2 hfm)] at h
  exact matchGenericBits_used h

/-- Without a footer mark a constant-bit-time frame uses its minimum, and one more entry when it is left (R162). -/
theorem matchCbt_used_of_noFooter (hfm : s.regs.ftrMark = 0) (hn : 1 ≤ s.regs.nbits.toNat) {v u : Nat}
    (h : matchCbt (tbEntries s) s.regs.cursor.toNat s.regs.nbits.toNat (frameArgsOf s) = .ok v u) :
    u = cbtMinimum s.regs + (if cbtMinimum s.regs < remaining s then 1 else 0) ∧ u ≤ remaining s := by
  rw [matchCbt, if_neg (show ¬(frameArgsOf s).fm ≠ 0 from mt word_toNat_ne_zero.1 (not_not_intro hfm))] at h
  obtain ⟨-, hu, hle⟩ := cbtInferred_ok hn h
  rw [tbEntries_left] at hu hle
  rw [cbtMin_frameArgsOf] at hu
  exact ⟨hu, hle⟩

end

/-! ### The commands -/

theorem execMatchGenericBits_of_legal {s : State} {m : Match Nat} (ht : s.regs.tol.toNat ≤ 100)
    (h1 : 1 ≤ s.regs.nbits.toNat) (h64 : s.regs.nbits.toNat ≤ 64)
    (hm : matchGenericBits (tbEntries s) s.regs.cursor.toNat s.regs.nbits.toNat (frameArgsOf s) = m) :
    exec .matchGenericBits s = .next (finishInt m s) := by
  subst hm
  exact congrArg _ (if_pos ((intMatchLegal_iff s.regs).2 ⟨ht, h1, h64⟩))

theorem execMatchGenericBytes_of_legal {s : State} {m : Match (List Byte)} (ht : s.regs.tol.toNat ≤ 100)
    (h0 : s.regs.nbits.toNat ≠ 0) (h8 : s.regs.nbits.toNat % 8 = 0)
    (hcap : s.regs.baOff.toNat + s.regs.nbits.toNat / 8 ≤ s.build.baCap)
    (hm : matchGenericBytes (tbEntries s) s.regs.cursor.toNat s.regs.nbits.toNat (frameArgsOf s) = m) :
    exec .matchGenericBytes s = .next (finishBytes s.regs.baOff.toNat (s.regs.nbits.toNat / 8) m s) := by
  subst hm
  exact congrArg _ (if_pos ((byteFrameLegal_iff s.build s.regs).2 ⟨ht, ⟨h0, h8⟩, hcap⟩))

/-- RES_USED holds any count of the entries left, since TB_LEN has 16 bits. -/
theorem toNat_ofNat_used {s : State} {u : Nat} (h : u ≤ remaining s) : (BitVec.ofNat 16 u).toNat = u := by
  have hlen := s.regs.tbLen.isLt
  rw [remaining] at h
  rw [BitVec.toNat_ofNat, Nat.mod_eq_of_lt (by omega)]

/-- An integer matcher's command that ends OK had a legal bit count, and RES_USED is the entries its matcher used. -/
theorem intMatchCommand_used {m : Match Nat} {s : State} {k : Nat}
    (hm : 1 ≤ s.regs.nbits.toNat → ∀ v u, m = .ok v u → u = k ∧ u ≤ remaining s)
    (h : (if intMatchLegal s.regs then finishInt m s else raiseInt .illegalOperand s).status = 0) :
    (if intMatchLegal s.regs then finishInt m s else raiseInt .illegalOperand s).res.used.toNat = k ∧
      k ≤ remaining s ∧ 1 ≤ s.regs.nbits.toNat := by
  by_cases hlegal : intMatchLegal s.regs = true
  · obtain ⟨-, hn, -⟩ := (intMatchLegal_iff _).1 hlegal
    rw [if_pos hlegal] at h ⊢
    cases m with
    | ok v u =>
      obtain ⟨rfl, hle⟩ := hm hn v u rfl
      exact ⟨toNat_ofNat_used hle, hle, hn⟩
    | fail w => exact absurd ((statusCode_eq_zero _).1 h) (missStatus_ne_ok w)
  · rw [if_neg hlegal] at h
    cases h

/-- MATCH_GENERIC_BYTES that ends OK had a legal bit count, and RES_USED is the section's entries. -/
theorem execMatchGenericBytes_used {s t : State} (h : execMatchGenericBytes s = .next t) (hs : t.status = 0) :
    t.res.used.toNat = sectionUsed s ∧ sectionUsed s ≤ remaining s ∧ 1 ≤ s.regs.nbits.toNat := by
  cases h
  by_cases hlegal : byteFrameLegal s.build s.regs = true
  · obtain ⟨-, ⟨h0, h8⟩, -⟩ := (byteFrameLegal_iff _ _).1 hlegal
    rw [if_pos hlegal] at hs ⊢
    rcases finishBytes_cases s.regs.baOff.toNat (s.regs.nbits.toNat / 8) (matchGenericBytes (tbEntries s)
      s.regs.cursor.toNat s.regs.nbits.toNat (frameArgsOf s)) s with ⟨-, hend⟩ | ⟨-, hend⟩ | ⟨bs, u, hok, hend⟩
    · rw [hend] at hs; cases hs
    · rw [hend] at hs; cases hs
    · obtain ⟨rfl, hle⟩ := matchGenericBytes_used h8 hok
      rw [hend]
      exact ⟨toNat_ofNat_used hle, hle, Nat.pos_of_ne_zero h0⟩
  · rw [if_neg hlegal] at hs
    cases hs

end Sys2Proof.Machine
end

section
/-! The obligations of the frame matcher family. -/

namespace Sys2Proof.Machine

/-- Settles O31: with legal operands the command ends as its section does, which lacks entries, fits or mismatches. -/
theorem matchGenericBitsOutcomes : Obligations.MatchGenericBitsOutcomes := by
  intro s
  refine ⟨fun hill => congrArg _ (if_neg (mt (intMatchLegal_iff s.regs).1 (by omega))),
    fun ht h1 h64 => ⟨fun hshort => ?_, fun hmin => ⟨fun v hfits => ?_, fun hno => ?_⟩⟩⟩
  · exact execMatchGenericBits_of_legal ht h1 h64 (matchGenericBits_short_iff.2 hshort)
  · exact execMatchGenericBits_of_legal ht h1 h64 ((matchGenericBits_tbEntries s v _ hmin).2 ⟨hfits, rfl⟩)
  · exact execMatchGenericBits_of_legal ht h1 h64 (matchGenericBits_mismatch hmin hno)

/-- Settles O32: as in bit mode, and a section that fits has the bytes of the target range. -/
theorem matchGenericBytesOutcomes : Obligations.MatchGenericBytesOutcomes := by
  rintro s len off rfl rfl
  refine ⟨fun hill => congrArg _ (if_neg (mt (byteFrameLegal_iff s.build s.regs).1 (by omega))),
    fun ht h0 h8 hcap => ⟨fun hshort => ?_, fun hmin => ⟨fun bs hfits => ?_, fun hno => ?_⟩⟩⟩
  · exact execMatchGenericBytes_of_legal ht h0 h8 hcap ((matchGenericBytes_short_iff h8).2 hshort)
  · have hok := (matchGenericBytes_tbEntries s bs _ h8 hmin).2 ⟨hfits, rfl⟩
    obtain ⟨hlen, -⟩ := matchGenericBytes_ok h8 hok
    refine ⟨_, execMatchGenericBytes_of_legal ht h0 h8 hcap hok, rfl, hlen, fun j hj => ?_, fun j hj => ?_⟩
    · exact readBa_writeBytes_inside s _ bs j hj
    · exact readBa_writeBytes_outside s _ bs j (hlen ▸ hj)
  · have hmiss := matchGenericBytes_mismatch h8 hmin hno
    exact ⟨_, execMatchGenericBytes_of_legal ht h0 h8 hcap hmiss, rfl, fun j => readBa_anyBytes_outside s _ _ j⟩

/-- Settles O33: a success reports the entries its matcher used, and one bit already takes two of a section's. -/
theorem usedEntriesOfAMatchedFrame : Obligations.UsedEntriesOfAMatchedFrame := by
  intro i s t h hs
  have hbits := bits_le_sectionUsed s
  constructor
  · intro hi
    have hused : t.res.used.toNat = sectionUsed s ∧ sectionUsed s ≤ remaining s ∧ 1 ≤ s.regs.nbits.toNat := by
      obtain rfl | rfl | ⟨rfl, hfm⟩ := hi
      · cases h
        exact intMatchCommand_used (fun _ v u => matchGenericBits_used) hs
      · exact execMatchGenericBytes_used h hs
      · cases h
        exact intMatchCommand_used (fun _ v u => matchCbt_used_of_footer hfm) hs
    omega
  · rintro ⟨rfl, hfm⟩
    cases h
    obtain ⟨hused, hle, -⟩ := intMatchCommand_used (fun hn v u => matchCbt_used_of_noFooter hfm hn) hs
    have hpos : 1 ≤ cbtMinimum s.regs := Nat.succ_pos _
    exact ⟨hused, by omega, by omega⟩

end Sys2Proof.Machine
end

section
/-! The constant-bit-time matcher (R161): how its command ends, what it is with a footer mark (R164 item 1), and without
one as the bit loop that starts after the header (R164 item 2). -/

namespace Sys2Proof.Machine

/-! ### The value -/

/-- The bits of an ordered value, whose wire order is that of `v` (R123 item 3). -/
theorem orderBits_testBit (msb : Bool) {n i : Nat} (v : Nat) (h : i < n) :
    (orderBits msb n v).testBit (if msb then i else n - 1 - i) = v.testBit i := by
  cases msb with
  | true => rfl
  | false =>
    exact (revBits_testBit n v (n - 1 - i) (by omega)).trans (congrArg v.testBit (by omega))

/-! ### The command -/

theorem execMatchCbt_of_legal {s : State} {m : Match Nat} (ht : s.regs.tol.toNat ≤ 100)
    (h1 : 1 ≤ s.regs.nbits.toNat) (h64 : s.regs.nbits.toNat ≤ 64)
    (hm : matchCbt (tbEntries s) s.regs.cursor.toNat s.regs.nbits.toNat (frameArgsOf s) = m) :
    exec .matchCbt s = .next (finishInt m s) := by
  subst hm
  exact congrArg _ (if_pos ((intMatchLegal_iff s.regs).2 ⟨ht, h1, h64⟩))

/-- An integer matcher's command leaves what its operands and its matcher say in STATUS and in the results, whatever the
rest of the state is. -/
theorem intMatchCommand_of_res_eq {s t : State} (legal : Bool) (m : Match Nat) (h : t.res = s.res) :
    (if legal then finishInt m s else raiseInt .illegalOperand s) =
      { s with
        status := (if legal then finishInt m t else raiseInt .illegalOperand t).status
        res := (if legal then finishInt m t else raiseInt .illegalOperand t).res } := by
  cases legal with
  | false => simp only [raiseInt, setRes, h]; rfl
  | true =>
    cases m with
    | fail w => simp only [finishInt, raiseInt, setRes, h]; rfl
    | ok v u => simp only [finishInt, finishOk, setStatus, setRes, h]; rfl

/-! ### Which matcher it is -/

section
variable {tb : List Word} {start n : Nat} {a : FrameArgs}

theorem matchCbt_of_footer (hfm : a.fm ≠ 0) :
    matchCbt tb start n a = matchGenericBits tb start n { a with coding := cbtCoding a.coding } := if_pos hfm

theorem matchCbt_of_noFooter (hfm : a.fm = 0) : matchCbt tb start n a = cbtInferred tb start n a :=
  if_neg (not_not_intro hfm)

end

/-! ### Without a footer, at the cursor -/

section
variable {s : State} (hfm : s.regs.ftrMark = 0)
include hfm

theorem matchCbt_tbEntries_of_noFooter :
    matchCbt (tbEntries s) s.regs.cursor.toNat s.regs.nbits.toNat (frameArgsOf s) =
      cbtInferred (tbEntries s) s.regs.cursor.toNat s.regs.nbits.toNat (frameArgsOf s) :=
  matchCbt_of_noFooter (show s.regs.ftrMark.toNat = 0 by rw [hfm]; rfl)

theorem matchCbt_short_iff :
    matchCbt (tbEntries s) s.regs.cursor.toNat s.regs.nbits.toNat (frameArgsOf s) = .fail .insufficientBuffer ↔
      remaining s < cbtMinimum s.regs := by
  rw [matchCbt_tbEntries_of_noFooter hfm, cbtInferred_insufficient, tbEntries_left, cbtMin_frameArgsOf]

theorem matchCbt_mismatch (hn : 1 ≤ s.regs.nbits.toNat) (hmin : cbtMinimum s.regs ≤ remaining s)
    (hno : ∀ (w : Nat) (b : Bool), ¬(headerFits s ∧ cbtOrdinaryFits s w ∧
      cbtFinalFits s (headerEntries s.regs + 2 * (s.regs.nbits.toNat - 1)) b)) :
    matchCbt (tbEntries s) s.regs.cursor.toNat s.regs.nbits.toNat (frameArgsOf s) = .fail .timingMismatch := by
  refine Match.eq_mismatch (mt (matchCbt_short_iff hfm).1 (Nat.not_lt.2 hmin)) fun v u h => ?_
  rw [matchCbt_tbEntries_of_noFooter hfm, cbtInferred_tbEntries s v u hn hmin] at h
  obtain ⟨w, b, hhead, hord, hfinal, -⟩ := h
  exact hno w b ⟨hhead, hord, hfinal⟩

end

/-! ### The frame without a footer as a bit loop -/

section
variable {tb : List Word} {start : Nat} {c : BitCoding}

theorem optMark_of_fits {d o : Nat} (h : d ≠ 0 → matchMark (entry tb (start + o)) d c.t c.x = true) :
    optMark tb start d c o = some (o + present d) := by
  by_cases hd : d = 0
  · simp only [optMark, present, hd, if_true, Nat.add_zero]
  · simp only [optMark, present, hd, if_false, h hd, if_true]

theorem optSpace_of_fits {d o : Nat} (h : d ≠ 0 → matchSpace (entry tb (start + o)) d c.t c.x = true) :
    optSpace tb start d c o = some (o + present d) := by
  by_cases hd : d = 0
  · simp only [optSpace, present, hd, if_true, Nat.add_zero]
  · simp only [optSpace, present, hd, if_false, h hd, if_true]

/-- The bit loop over the last bit, as its two marks and the space after the one that fits. -/
theorem bitLoop_one (o v : Nat) :
    bitLoop tb start c true 1 o v =
      if matchPair tb (start + o) c.om c.os c true then .ok (2 * v + 1) (o + 2)
      else if matchPair tb (start + o) c.zm c.zs c true then .ok (2 * v) (o + 2)
      else .fail .timingMismatch := rfl

theorem matchPair_withSpace (i m p : Nat) :
    matchPair tb i m p c true = (matchMark (entry tb i) m c.t c.x && matchSpace (entry tb (i + 1)) p c.t c.x) := rfl

/-- R163: with the trailing space there. -/
theorem cbtTrailing_of_left {d o v : Nat} (h : o < tb.length - start) :
    cbtTrailing tb start d c o v =
      if matchSpace (entry tb (start + o)) d c.t c.x then .ok v (o + 1) else .fail .timingMismatch := if_pos h

/-- R164 item 2, its core: the final bit's inferred space is its pair's space, and where no mark fits both durations, a
1 whose space does not match is no 0 either. -/
theorem cbtFinalBit_eq_bitLoop {o v : Nat} (hleft : o + 1 < tb.length - start)
    (hmarks : ∀ m, ¬(matchMark m c.om c.t c.x = true ∧ matchMark m c.zm c.t c.x = true)) :
    cbtFinalBit tb start (cbtCoding c) o v = bitLoop tb start (cbtCoding c) true 1 o v := by
  rw [bitLoop_one, matchPair_withSpace, matchPair_withSpace]
  simp only [cbtFinalBit, cbtTrailing_of_left hleft, cbtCoding, ← Nat.add_assoc]
  have hexcl := hmarks (entry tb (start + o))
  by_cases hone : matchMark (entry tb (start + o)) c.om c.t c.x = true
  · have hzero : matchMark (entry tb (start + o)) c.zm c.t c.x = false :=
      Bool.eq_false_iff.2 fun hzero => hexcl ⟨hone, hzero⟩
    simp [hone, hzero]
  · by_cases hzero : matchMark (entry tb (start + o)) c.zm c.t c.x = true <;> simp [hone, hzero]

/-- R161's ordinary bits, all there, are a bit loop; for n = 1 it is empty. -/
theorem cbtOrdinary_eq_bitLoop {n : Nat} (hle : 2 * n ≤ tb.length - start) :
    cbtOrdinary tb start n c = bitLoop tb start c true (n - 1) 0 0 := by
  by_cases hn : 2 ≤ n
  · rw [cbtOrdinary, if_pos hn, matchData_of_le (by rw [entriesOf_eq, if_pos rfl]; omega)]
    cases bitLoop tb start c true (n - 1) 0 0 <;> rfl
  · rw [cbtOrdinary, if_neg hn, show n - 1 = 0 by omega]
    rfl

/-- The ordinary bits after `h` entries and then the final bit are one bit loop over the `n` bits. -/
theorem cbtBits_eq_bitLoop {n h : Nat} (hn : 1 ≤ n) (hle : h + 2 * n ≤ tb.length - start)
    (hmarks : ∀ m, ¬(matchMark m c.om c.t c.x = true ∧ matchMark m c.zm c.t c.x = true)) :
    ((cbtOrdinary tb (start + h) n (cbtCoding c)).andThen fun v u => cbtFinalBit tb start (cbtCoding c) (h + u) v) =
      (bitLoop tb (start + h) (cbtCoding c) true n 0 0).andThen fun v u => .ok v (h + u) := by
  obtain ⟨m, rfl⟩ := Nat.exists_eq_add_of_le' hn
  have hrestart := fun k => bitLoop_restart (tb := tb) (c := cbtCoding c) (start := start) true k h 0
  simp only [Nat.zero_mul, Nat.zero_add] at hrestart
  rw [cbtOrdinary_eq_bitLoop (by omega), ← hrestart, bitLoop_add, Bool.or_true, hrestart, Nat.add_sub_cancel]
  cases hbits : bitLoop tb (start + h) (cbtCoding c) true m 0 0 with
  | fail w => rfl
  | ok v u =>
    obtain ⟨hu, -⟩ := bitLoop_ok _ _ _ _ _ hbits
    rw [entriesOf_eq, if_pos rfl] at hu
    exact cbtFinalBit_eq_bitLoop (by omega) hmarks

end

/-- R161 after a header that fits. -/
theorem cbtInferred_of_header {tb : List Word} {start n h : Nat} {a : FrameArgs}
    (hmin : cbtMin a n ≤ tb.length - start)
    (hhead : (optMark tb start a.hm (cbtCoding a.coding) 0).bind (optSpace tb start a.hs (cbtCoding a.coding)) =
      some h) :
    cbtInferred tb start n a =
      matchMap (orderBits a.msb n) ((cbtOrdinary tb (start + h) n (cbtCoding a.coding)).andThen fun v u =>
        cbtFinalBit tb start (cbtCoding a.coding) (h + u) v) := by
  simp only [cbtInferred, if_neg (Nat.not_lt.2 hmin), hhead]
  cases cbtOrdinary tb (start + h) n (cbtCoding a.coding) <;> rfl

theorem matchMap_andThen_ok {α β : Type} (f : α → β) (h : Nat) (m : Match α) :
    matchMap f (m.andThen fun v u => .ok v (h + u)) = (matchMap f m).andThen fun v u => .ok v (h + u) := by
  cases m <;> rfl

/-- R164 item 2: after a header that fits, with all entries of its bits there, a frame without a footer is matchData on
the pairs of the two durations, with the header's entries counted. -/
theorem cbtInferred_eq_matchData {tb : List Word} {start n : Nat} {a : FrameArgs} (hn : 1 ≤ n)
    (hle : present a.hm + present a.hs + 2 * n ≤ tb.length - start)
    (hmark : a.hm ≠ 0 → matchMark (entry tb start) a.hm a.coding.t a.coding.x = true)
    (hspace : a.hs ≠ 0 → matchSpace (entry tb (start + present a.hm)) a.hs a.coding.t a.coding.x = true)
    (hmarks : ∀ m, ¬(matchMark m a.coding.om a.coding.t a.coding.x = true ∧
      matchMark m a.coding.zm a.coding.t a.coding.x = true)) :
    cbtInferred tb start n a =
      (matchData tb (start + (present a.hm + present a.hs)) n (cbtCoding a.coding) a.msb true).andThen fun v u =>
        .ok v (present a.hm + present a.hs + u) := by
  have hhead : (optMark tb start a.hm (cbtCoding a.coding) 0).bind (optSpace tb start a.hs (cbtCoding a.coding)) =
      some (present a.hm + present a.hs) := by
    rw [optMark_of_fits hmark, Nat.zero_add]
    exact optSpace_of_fits hspace
  have hmin : cbtMin a n ≤ tb.length - start := by rw [cbtMin]; omega
  rw [cbtInferred_of_header hmin hhead, cbtBits_eq_bitLoop hn hle hmarks, matchMap_andThen_ok,
    matchData_of_le (by rw [entriesOf_eq, if_pos rfl]; omega)]

end Sys2Proof.Machine
end

section
/-! The obligations of the constant-bit-time family. -/

namespace Sys2Proof.Machine

/-- Settles O34: the two commands run one matcher on equal arguments, so they leave equal STATUS and results. -/
theorem cbtWithFooterIsGeneric : Obligations.CbtWithFooterIsGeneric := by
  intro s hfm
  refine ⟨_, _, rfl, rfl, ?_⟩
  rw [matchCbt_of_footer (show (frameArgsOf s).fm ≠ 0 from word_toNat_ne_zero.2 hfm)]
  exact intMatchCommand_of_res_eq _ _ rfl

/-- Settles O35: with legal operands the command ends as its frame does, which lacks entries, fits or mismatches. -/
theorem cbtWithoutFooterInfersFinalBit : Obligations.CbtWithoutFooterInfersFinalBit := by
  rintro s n o rfl hfm rfl
  refine ⟨fun hill => congrArg _ (if_neg (mt (intMatchLegal_iff s.regs).1 (by omega))),
    fun ht h1 h64 => ⟨fun hshort => ?_, fun hmin => ⟨fun w b hhead hord hfinal => ?_, fun hno => ?_⟩⟩⟩
  · exact execMatchCbt_of_legal ht h1 h64 ((matchCbt_short_iff hfm).2 hshort)
  · have hok := (cbtInferred_tbEntries s _ _ h1 hmin).2 ⟨w, b, hhead, hord, hfinal, rfl, rfl⟩
    obtain ⟨hlt, -⟩ := cbtInferred_ok h1 hok
    exact ⟨_, hlt, fun i hi => orderBits_testBit _ _ hi,
      execMatchCbt_of_legal ht h1 h64 ((matchCbt_tbEntries_of_noFooter hfm).trans hok)⟩
  · exact execMatchCbt_of_legal ht h1 h64 (matchCbt_mismatch hfm h1 hmin hno)

/-- Settles O36: after its header such a frame is matchData on the pairs of the two durations; that the spaces are
separated too is not needed, since the mark of a bit has decided it. -/
theorem cbtAgreesWithPairDecoder : Obligations.CbtAgreesWithPairDecoder := by
  rintro tb start n h a hn _ _ hfm rfl hle hmark hspace hmarks _
  rw [matchCbt_of_noFooter hfm, cbtInferred_eq_matchData hn hle hmark hspace hmarks]
  constructor
  · intro v u hok
    exact congrArg (Match.andThen · _) hok
  · intro why hfail
    exact congrArg (Match.andThen · _) hfail

end Sys2Proof.Machine
end

section
/-! The encoders' commands (R184, R185, R187, R189): how each ends, the message it writes in the terms of Safety.lean,
and the message's length (R190). -/

namespace Sys2Proof.Machine

/-! ### How an encoder's command ends -/

theorem byteEncodeLegal_iff (b : Build) (r : OperandRegs) :
    byteEncodeLegal b r = true ↔
      (r.nbits.toNat ≠ 0 ∧ r.nbits.toNat % 8 = 0) ∧ r.baOff.toNat + r.nbits.toNat / 8 ≤ b.baCap := by
  rw [byteEncodeLegal, Bool.and_eq_true, byteBitsLegal_iff, rangeLegal_iff]

section
variable {legal : Bool} {seq : List Word} {s t : State}

theorem writeOutput_wrote (h : seq.length ≤ s.build.obCap) : encodeWrote s (writeOutput seq s) seq := by
  have hread := readOb_writeOutput seq s h
  obtain ⟨hover, -⟩ | ⟨-, e⟩ := writeOutput_cases seq s
  · omega
  · rw [e] at hread ⊢
    exact ⟨rfl, obLen_toNat s.build s.res _ h, hread,
      fun i hi => memGet_memPutAll_outside _ seq s.ob 0 i (.inr (by omega))⟩

theorem writeOutput_endsWith (seq : List Word) (s : State) : encodeEndsWith s (writeOutput seq s) seq := by
  refine ⟨writeOutput_wrote, fun hover => ?_⟩
  rw [writeOutput, if_pos hover]
  rfl

/-- R232: operands that are not legal. -/
theorem encodeCommand_illegal (h : legal ≠ true) :
    ∃ t, Host.Outcome.next (if legal then writeOutput seq s else raiseEncode .illegalOperand s) =
      (.next t : Host.Outcome State Fault Refusal) ∧ encodeFailed s t 7 :=
  ⟨_, congrArg _ (if_neg h), rfl⟩

/-- R184: with legal operands. -/
theorem encodeCommand_legal (h : legal = true) :
    ∃ t, Host.Outcome.next (if legal then writeOutput seq s else raiseEncode .illegalOperand s) =
      (.next t : Host.Outcome State Fault Refusal) ∧ encodeEndsWith s t seq :=
  ⟨_, congrArg _ (if_pos h), writeOutput_endsWith seq s⟩

/-- A success had legal operands and a sequence within OB_CAP. -/
theorem encodeCommand_ok (ht : t = if legal then writeOutput seq s else raiseEncode .illegalOperand s)
    (h0 : t.status = 0) : legal = true ∧ seq.length ≤ s.build.obCap ∧ t = writeOutput seq s := by
  cases legal with
  | false => subst ht; cases h0
  | true =>
    obtain ⟨-, e⟩ | ⟨hcap, -⟩ := writeOutput_cases seq s
    · rw [ht, if_pos rfl, e] at h0; cases h0
    · exact ⟨rfl, hcap, ht⟩

/-- OB_LEN after a success (R33). -/
theorem encodeCommand_obLen (ht : t = if legal then writeOutput seq s else raiseEncode .illegalOperand s)
    (h0 : t.status = 0) : t.res.obLen.toNat = seq.length := by
  obtain ⟨-, hcap, rfl⟩ := encodeCommand_ok ht h0
  exact (writeOutput_wrote hcap).2.1

end

/-! ### The message -/

theorem optEntry_eq_filter (d : Word) : optEntry d = [d].filter (· ≠ 0) := by
  by_cases hd : d = 0#32 <;> simp [optEntry, hd]

theorem encodeFrame_emitArgsOf (r : OperandRegs) (body : List Word) :
    encodeFrame body (emitArgsOf r) = sectionOf r body := by
  have hpair (a b : Word) : [a, b].filter (· ≠ 0) = optEntry a ++ optEntry b := by
    rw [optEntry_eq_filter, optEntry_eq_filter]
    exact List.filter_append [a] [b]
  rw [sectionOf, hpair, hpair, ← List.append_assoc]
  rfl

theorem encodeRepeat_emitArgsOf (r : OperandRegs) (body : List Word) :
    encodeRepeat (encodeFrame body (emitArgsOf r)) r.repeatCount.toNat = messageOf r body := by
  rw [encodeFrame_emitArgsOf]
  rfl

theorem val_toNat (r : OperandRegs) : (r.valHi ++ r.valLo).toNat = valOperand r := valBits_toNat r

/-- VAL's bits, as the number the encoders take (R84). -/
theorem valOperand_testBit (r : OperandRegs) (k : Nat) : (valOperand r).testBit k = (r.valHi ++ r.valLo).getLsbD k :=
  congrArg (Nat.testBit · k) (val_toNat r).symm

theorem emitBits_valOperand (r : OperandRegs) (n : Nat) (a : EmitArgs) :
    emitBits (valOperand r) n a =
      wireEntries a.msb n (fun k => (r.valHi ++ r.valLo).getLsbD k) [a.om, a.os] [a.zm, a.zs] := by
  simp only [← valOperand_testBit]
  rfl

theorem emitBytes_baBytes (s : State) (off len : Nat) (a : EmitArgs) :
    emitBytes (baBytes s off len) a = (List.range len).flatMap fun j =>
      wireEntries a.msb 8 (fun k => (readBa s (off + j)).getLsbD k) [a.om, a.os] [a.zm, a.zs] := by
  rw [emitBytes, baBytes, List.flatMap_map]
  rfl

theorem encodeGenericBits_emitArgsOf (r : OperandRegs) (v n : Nat) :
    encodeGenericBits v n (emitArgsOf r) = messageOf r (emitBits v n (emitArgsOf r)) := encodeRepeat_emitArgsOf r _

theorem encodeGenericBytes_emitArgsOf (r : OperandRegs) (bs : List Byte) :
    encodeGenericBytes bs (emitArgsOf r) = messageOf r (emitBytes bs (emitArgsOf r)) := encodeRepeat_emitArgsOf r _

theorem encodeCbt_emitArgsOf (r : OperandRegs) (v n : Nat) :
    encodeCbt v n (emitArgsOf r) = messageOf r (emitBits v n (cbtEmit (emitArgsOf r))) := encodeRepeat_emitArgsOf r _

/-! ### Its length -/

theorem present_toNat (d : Word) : present d.toNat = if d = 0 then 0 else 1 := by
  by_cases hd : d = 0
  · rw [if_pos hd, hd]; rfl
  · rw [if_neg hd, present, if_neg (word_toNat_ne_zero.2 hd)]

theorem sectionOf_length (r : OperandRegs) {body : List Word} {n : Nat} (h : body.length = 2 * n) :
    (sectionOf r body).length = sectionEntries r n := by
  rw [← encodeFrame_emitArgsOf]
  simp only [encodeFrame, sectionEntries, emitArgsOf, List.length_append, optEntry_length, present_toNat, h]

/-- Without a footer mark, the entries that MATCH_CBT looks at: all but the gap (R163 item 1). -/
theorem sectionEntries_sub_gap {r : OperandRegs} (hfm : r.ftrMark = 0) (n : Nat) :
    sectionEntries r n - (if r.ftrMark = 0 ∧ r.ftrSpace ≠ 0 then 1 else 0) =
      present r.hdrMark.toNat + present r.hdrSpace.toNat + 2 * n := by
  simp only [sectionEntries, present_toNat, hfm, true_and, if_true, ite_not]
  split <;> omega

/-- R190: every copy of the section has its entries. -/
theorem messageOf_length (r : OperandRegs) {body : List Word} {n : Nat} (h : body.length = 2 * n) :
    (messageOf r body).length = (r.repeatCount.toNat + 1) * sectionEntries r n := by
  rw [messageOf, List.length_flatten, List.map_replicate, List.sum_replicate, sectionOf_length r h, smul_eq_mul]

theorem emitBytes_baBytes_length (s : State) (off : Nat) {n : Nat} (a : EmitArgs) (h8 : n % 8 = 0) :
    (emitBytes (baBytes s off (n / 8)) a).length = 2 * n := by
  rw [emitBytes_length, baBytes_length]
  omega

end Sys2Proof.Machine
end

section
/-! The matchers on the encoders' messages (R191): what one reads back from the first section of a message, with the
durations that the message was emitted with, whatever repeats follow. -/

namespace Sys2Proof.Machine

/-- The bit that is sent as the `k`-th of the low `n` bits of `v` (R180). -/
def wireBit (msb : Bool) (n v k : Nat) : Bool := v.testBit (if msb then n - 1 - k else k)

/-- The arguments of a matcher that looks for the durations of an emission, with the tolerance and the footer policy of
`s`. -/
def receiverArgs (s : State) (ea : EmitArgs) : FrameArgs where
  hm := ea.hm.toNat
  hs := ea.hs.toNat
  coding := ⟨ea.om.toNat, ea.os.toNat, ea.zm.toNat, ea.zs.toNat, s.regs.tol.toNat, s.regs.excess.toNat⟩
  fm := ea.fm.toNat
  fs := ea.gap.toNat
  atleast := cfgAtLeast s.regs
  msb := ea.msb
  ax := s.build.atLeastAppliesExcess

theorem frameArgsOf_eq_receiverArgs (s : State) : frameArgsOf s = receiverArgs s (emitArgsOf s.regs) := rfl

/-- R164 item 1, R188: swapping the spaces of an emission swaps them in its matcher. -/
theorem receiverArgs_cbtEmit (s : State) (ea : EmitArgs) :
    { receiverArgs s ea with coding := cbtCoding (receiverArgs s ea).coding } = receiverArgs s (cbtEmit ea) := rfl

/-- R191 (a) for a section's own entries, and for its gap under the footer policy. -/
structure SectionOwn (s : State) (ea : EmitArgs) : Prop where
  hdr : ea.hm ≠ 0 → ownMark ea.hm.toNat s.regs.tol.toNat s.regs.excess.toNat
  ftr : ea.fm ≠ 0 → ownMark ea.fm.toNat s.regs.tol.toNat s.regs.excess.toNat
  gap : ea.gap ≠ 0 → s.build.atLeastAppliesExcess = false ∨ cfgAtLeast s.regs = false ∨
    ownMark ea.gap.toNat s.regs.tol.toNat s.regs.excess.toNat

/-- A message is its first section and the repeats. -/
theorem encodeRepeat_eq (frame : List Word) (r : Nat) :
    encodeRepeat frame r = frame ++ (List.replicate r frame).flatten := by
  rw [encodeRepeat, List.replicate_succ, List.flatten_cons]

theorem encodeFrame_append (body post : List Word) (ea : EmitArgs) :
    encodeFrame body ea ++ post =
      (optEntry ea.hm ++ optEntry ea.hs) ++ (body ++ (optEntry ea.fm ++ optEntry ea.gap ++ post)) := by
  simp only [encodeFrame, List.append_assoc]

theorem header_length (ea : EmitArgs) :
    (optEntry ea.hm ++ optEntry ea.hs).length = present ea.hm.toNat + present ea.hs.toNat := by
  rw [List.length_append, optEntry_length, optEntry_length]

/-! ### The generic matchers -/

section
variable {s : State} {ea : EmitArgs}

/-- R140 on a message whose body is read back: it uses the first section's entries. -/
theorem matchFrame_message {α : Type} (hown : SectionOwn s ea) {n r : Nat} {words : List Word}
    {body : Nat → Match α} {x : α} (hlen : words.length = 2 * n)
    (hbody : body (present ea.hm.toNat + present ea.hs.toNat) = .ok x (2 * n)) :
    matchFrame (encodeRepeat (encodeFrame words ea) r) 0 n (receiverArgs s ea) body =
      .ok x (encodeFrame words ea).length := by
  rw [encodeRepeat_eq, matchFrame_emitted ea (receiverArgs s ea) n words _ body x hlen hbody rfl rfl rfl rfl hown.hdr
    hown.ftr hown.gap]
  simp only [encodeFrame, List.length_append, optEntry_length, hlen]

theorem matchGenericBits_encoded (hown : SectionOwn s ea) {v n : Nat}
    (hc : CodingOwn (receiverArgs s ea).coding n (wireBit ea.msb n v)) :
    matchGenericBits (encodeGenericBits v n ea) 0 n (receiverArgs s ea) =
      .ok (v % 2 ^ n) (encodeFrame (emitBits v n ea) ea).length := by
  refine matchFrame_message hown (emitBits_length v n ea) ?_
  rw [encodeGenericBits, encodeRepeat_eq, encodeFrame_append, ← header_length, emitBits_eq,
    ← wireValue_testBit ea.msb n v]
  exact matchData_emitted _ _ n _ _ _ _ _ _ _ rfl rfl rfl rfl hc

theorem matchGenericBytes_encoded (hown : SectionOwn s ea) {bs : List Byte}
    (hc : ∀ b ∈ bs, CodingOwn (receiverArgs s ea).coding 8 (wireBit ea.msb 8 b.toNat)) :
    matchGenericBytes (encodeGenericBytes bs ea) 0 (8 * bs.length) (receiverArgs s ea) =
      .ok bs (encodeFrame (emitBytes bs ea) ea).length := by
  refine matchFrame_message hown (by rw [emitBytes_length]; omega) ?_
  rw [encodeGenericBytes, encodeRepeat_eq, encodeFrame_append, ← header_length,
    Nat.mul_div_cancel_left _ (by decide), ← Nat.mul_assoc]
  exact matchBytes_emitted ea _ _ _ rfl rfl rfl rfl bs hc

end

/-! ### The constant-bit-time matcher without a footer -/

/-- One more bit, the last one sent, is the least significant one of an MSB-first value (R161). -/
theorem wireValue_succ (m : Nat) (bits : Nat → Bool) :
    wireValue true (m + 1) bits = 2 * wireValue true m bits + (bits m).toNat := by
  have hlast : (if bits m then 2 ^ (m + 1 - 1 - m) else 0) = (bits m).toNat := by
    rw [show m + 1 - 1 - m = 0 by omega]
    cases bits m <;> rfl
  simp only [wireValue, if_true, Finset.sum_range_succ, hlast, Finset.mul_sum]
  refine congrArg (· + _) (Finset.sum_congr rfl fun k hk => ?_)
  have hk := Finset.mem_range.1 hk
  rw [show m + 1 - 1 - k = (m - 1 - k) + 1 by omega, Nat.pow_succ']
  cases bits k <;> simp

/-- The bit order applied to an MSB-first value (R161). -/
theorem orderBits_wireValue_true (msb : Bool) (n : Nat) (bits : Nat → Bool) :
    orderBits msb n (wireValue true n bits) = wireValue msb n bits := orderBits_wireValue msb n bits

section
variable {c : BitCoding} {om zm : Word} {m : Nat} {bits : Nat → Bool} (pre post : List Word)

/-- R161's ordinary bits as they are emitted: all but the last one. -/
theorem cbtOrdinary_emitted (hom : c.om = om.toNat) (hzm : c.zm = zm.toNat) (ho : CodingOwn (cbtCoding c) m bits) :
    cbtOrdinary (pre ++ (pairWords (m + 1) bits om zm zm om ++ post)) pre.length (m + 1) (cbtCoding c) =
      .ok (wireValue true m bits) (2 * m) := by
  cases m with
  | zero => rfl
  | succ k =>
    rw [cbtOrdinary, if_pos (by omega), Nat.add_sub_cancel, pairWords_succ, List.append_assoc]
    exact matchData_emitted _ _ _ _ _ _ _ _ _ _ hom hzm hzm hom ho

/-- R161's final bit as it is emitted: its mark decides it, and the space that follows is the inferred one. -/
theorem cbtFinalBit_emitted (v : Nat) (hom : c.om = om.toNat) (hzm : c.zm = zm.toNat)
    (ho : CodingOwn (cbtCoding c) (m + 1) bits) (hap : matchMark c.zm c.om c.t c.x = false) :
    cbtFinalBit (pre ++ (pairWords (m + 1) bits om zm zm om ++ post)) 0 (cbtCoding c) (pre.length + 2 * m) v =
      .ok (2 * v + (bits m).toNat) (pre.length + 2 * (m + 1)) := by
  obtain ⟨h1, h0, -⟩ := ho
  obtain ⟨hmark, hspace⟩ := entry_pairWords bits om zm zm om (m + 1) post m (by omega)
  rw [← entry_append_right pre] at hmark hspace
  rw [← Nat.add_assoc] at hspace
  have hleft : pre.length + 2 * m + 1 < (pre ++ (pairWords (m + 1) bits om zm zm om ++ post)).length - 0 := by
    simp only [List.length_append, pairWords_length]
    omega
  simp only [cbtFinalBit, cbtTrailing_of_left hleft, Nat.zero_add, hmark, hspace, cbtCoding]
  cases hb : bits m with
  | true =>
    have hown : matchMark c.om c.om c.t c.x = true := matchMark_own (h1 ⟨m, by omega, hb⟩)
    simp only [if_true, ← hom, ← hzm, hown, matchSpace_own, Bool.toNat_true]
    rfl
  | false =>
    have hown : matchMark c.zm c.zm c.t c.x = true := matchMark_own (h0 ⟨m, by omega, hb⟩)
    simp only [Bool.false_eq_true, if_false, if_true, ← hom, ← hzm, hown, hap, matchSpace_own]
    rfl

end

theorem CodingOwn.mono {c : BitCoding} {m n : Nat} {bits : Nat → Bool} (h : CodingOwn c n bits) (hmn : m ≤ n) :
    CodingOwn c m bits := by
  obtain ⟨h1, h0, hap⟩ := h
  exact ⟨fun ⟨k, hk, hb⟩ => h1 ⟨k, by omega, hb⟩, fun ⟨k, hk, hb⟩ => h0 ⟨k, by omega, hb⟩, hap⟩

section
variable {s : State} {ea : EmitArgs}

/-- R140, R161: an emitted header fits, and ends where the body begins. -/
theorem header_emitted (c : BitCoding) (hhdr : ea.hm ≠ 0 → ownMark ea.hm.toNat c.t c.x) (post : List Word) :
    (optMark (optEntry ea.hm ++ optEntry ea.hs ++ post) 0 ea.hm.toNat c 0).bind
        (optSpace (optEntry ea.hm ++ optEntry ea.hs ++ post) 0 ea.hs.toNat c) =
      some (optEntry ea.hm ++ optEntry ea.hs).length := by
  have hmark := optMark_emitted [] (optEntry ea.hs ++ post) 0 0 ea.hm c rfl hhdr
  have hspace := optSpace_emitted (optEntry ea.hm) post 0 (0 + present ea.hm.toNat) ea.hs c
    (by rw [optEntry_length]; omega)
  rw [List.nil_append] at hmark
  rw [List.append_assoc, header_length, hmark, Option.bind_some, hspace, Nat.zero_add]

/-- R161 on a message: what is sent after the last bit's space is not looked at (R163 item 1). -/
theorem cbtInferred_encoded {v n : Nat} (hn : 1 ≤ n)
    (hhdr : ea.hm ≠ 0 → ownMark ea.hm.toNat s.regs.tol.toNat s.regs.excess.toNat)
    (hc : CodingOwn (cbtCoding (receiverArgs s ea).coding) n (wireBit ea.msb n v))
    (hap : matchMark ea.zm.toNat ea.om.toNat s.regs.tol.toNat s.regs.excess.toNat = false) :
    cbtInferred (encodeCbt v n ea) 0 n (receiverArgs s ea) =
      .ok (v % 2 ^ n) (present ea.hm.toNat + present ea.hs.toNat + 2 * n) := by
  obtain ⟨m, rfl⟩ := Nat.exists_eq_add_of_le' hn
  obtain ⟨post, hmsg⟩ : ∃ post, encodeCbt v (m + 1) ea = (optEntry ea.hm ++ optEntry ea.hs) ++
      (pairWords (m + 1) (wireBit ea.msb (m + 1) v) ea.om ea.zm ea.zm ea.om ++ post) :=
    ⟨_, by rw [encodeCbt, encodeGenericBits, encodeRepeat_eq, encodeFrame_append, emitBits_eq]; rfl⟩
  have hmin : cbtMin (receiverArgs s ea) (m + 1) ≤ (encodeCbt v (m + 1) ea).length - 0 := by
    rw [hmsg, List.length_append, header_length, List.length_append, pairWords_length]
    simp only [cbtMin, receiverArgs]
    omega
  rw [cbtInferred_of_header hmin (hmsg ▸ header_emitted _ hhdr _), hmsg, Nat.zero_add,
    cbtOrdinary_emitted _ _ rfl rfl (hc.mono (by omega)), Match.andThen_ok, cbtFinalBit_emitted _ _ _ rfl rfl hc hap,
    matchMap_of_ok, ← wireValue_succ, orderBits_wireValue_true, header_length]
  exact congrArg (Match.ok · _) (wireValue_testBit ea.msb (m + 1) v)

theorem matchCbt_encoded_of_noFooter {v n : Nat} (hfm : ea.fm = 0) (hn : 1 ≤ n)
    (hhdr : ea.hm ≠ 0 → ownMark ea.hm.toNat s.regs.tol.toNat s.regs.excess.toNat)
    (hc : CodingOwn (cbtCoding (receiverArgs s ea).coding) n (wireBit ea.msb n v))
    (hap : matchMark ea.zm.toNat ea.om.toNat s.regs.tol.toNat s.regs.excess.toNat = false) :
    matchCbt (encodeCbt v n ea) 0 n (receiverArgs s ea) =
      .ok (v % 2 ^ n) (present ea.hm.toNat + present ea.hs.toNat + 2 * n) :=
  (matchCbt_of_noFooter (congrArg BitVec.toNat hfm)).trans (cbtInferred_encoded hn hhdr hc hap)

/-- R164 item 1 on a message: it is one of the generic encoder, with the spaces swapped (R188). -/
theorem matchCbt_encoded_of_footer {v n : Nat} (hfm : ea.fm ≠ 0) (hown : SectionOwn s ea)
    (hc : CodingOwn (cbtCoding (receiverArgs s ea).coding) n (wireBit ea.msb n v)) :
    matchCbt (encodeCbt v n ea) 0 n (receiverArgs s ea) =
      .ok (v % 2 ^ n) (encodeFrame (emitBits v n (cbtEmit ea)) ea).length := by
  rw [matchCbt_of_footer (show (receiverArgs s ea).fm ≠ 0 from word_toNat_ne_zero.2 hfm), receiverArgs_cbtEmit]
  exact matchGenericBits_encoded (ea := cbtEmit ea) ⟨hown.hdr, hown.ftr, hown.gap⟩ hc

end

/-! ### From the registers -/

/-- R191 (a) for bits that are sent in another order, or in parts: each of them is a bit of the frame. -/
theorem MarksOwn.codingOwn {r : OperandRegs} {n m : Nat} {bit wire : Nat → Bool} {c : BitCoding}
    (h : MarksOwn r n bit) (hom : c.om = r.oneMark.toNat) (hzm : c.zm = r.zeroMark.toNat) (ht : c.t = r.tol.toNat)
    (hx : c.x = r.excess.toNat) (hwire : ∀ k, k < m → ∃ j, j < n ∧ bit j = wire k)
    (hap : ¬(matchMark c.zm c.om c.t c.x = true ∧ matchSpace c.zs c.os c.t c.x = true)) : CodingOwn c m wire := by
  obtain ⟨-, -, hone, hzero⟩ := h
  have hsent (b : Bool) : (∃ k, k < m ∧ wire k = b) → ∃ j, j < n ∧ bit j = b := fun ⟨k, hk, hb⟩ =>
    let ⟨j, hj, hjk⟩ := hwire k hk
    ⟨j, hj, hjk.trans hb⟩
  refine ⟨fun h1 => ?_, fun h0 => ?_, hap⟩
  · rw [hom, ht, hx]
    exact hone (hsent true h1)
  · rw [hzm, ht, hx]
    exact hzero (hsent false h0)

/-- The bits of VAL in wire order are bits of VAL (R180). -/
theorem wireBit_valOperand (r : OperandRegs) (msb : Bool) {n k : Nat} (hk : k < n) :
    ∃ j, j < n ∧ (r.valHi ++ r.valLo).getLsbD j = wireBit msb n (valOperand r) k :=
  ⟨if msb then n - 1 - k else k, by split <;> omega, (valOperand_testBit r _).symm⟩

/-- The bits of byte `i` in wire order are bits of the frame's bytes (R181). -/
theorem wireBit_byte (byte : Nat → Byte) (msb : Bool) {len i k : Nat} (hi : i < len) (hk : k < 8) :
    ∃ j, j < 8 * len ∧ (byte (j / 8)).getLsbD (j % 8) = wireBit msb 8 (byte i).toNat k := by
  have hb : (if msb then 8 - 1 - k else k) < 8 := by split <;> omega
  refine ⟨8 * i + if msb then 8 - 1 - k else k, by omega, ?_⟩
  rw [Nat.mul_add_div (by decide), Nat.mul_add_mod, Nat.div_eq_of_lt hb, Nat.mod_eq_of_lt hb, Nat.add_zero]
  rfl

theorem MarksOwn.sectionOwn {s : State} {n : Nat} {bit : Nat → Bool} (h : MarksOwn s.regs n bit)
    (hgap : GapOwn s.build s.regs) : SectionOwn s (emitArgsOf s.regs) :=
  let ⟨hhdr, hftr, _⟩ := h
  ⟨hhdr, hftr, hgap⟩

/-- R161 on a message of ENCODE_CBT: without a footer mark the gap is left over (R163 item 1). -/
theorem matchCbt_encoded {s : State} {n v : Nat} {bit : Nat → Bool} (hn : 1 ≤ n) (hmarks : MarksOwn s.regs n bit)
    (hgap : s.regs.ftrMark ≠ 0 → GapOwn s.build s.regs)
    (hap : matchMark s.regs.zeroMark.toNat s.regs.oneMark.toNat s.regs.tol.toNat s.regs.excess.toNat = false)
    (hc : CodingOwn (cbtCoding (codingOf s.regs)) n (wireBit (cfgMsbFirst s.regs) n v)) :
    matchCbt (encodeCbt v n (emitArgsOf s.regs)) 0 n (receiverArgs s (emitArgsOf s.regs)) =
      .ok (v % 2 ^ n) (sectionEntries s.regs n - if s.regs.ftrMark = 0 ∧ s.regs.ftrSpace ≠ 0 then 1 else 0) := by
  by_cases hfm : s.regs.ftrMark = 0
  · obtain ⟨hhdr, -⟩ := hmarks
    rw [sectionEntries_sub_gap hfm]
    exact matchCbt_encoded_of_noFooter hfm hn hhdr hc hap
  · rw [if_neg (fun hno => hfm hno.1), Nat.sub_zero, matchCbt_encoded_of_footer hfm (hmarks.sectionOwn (hgap hfm)) hc,
      encodeFrame_emitArgsOf, sectionOf_length _ (emitBits_length _ _ _)]

/-- What a round trip's matcher finds (R191): the message in the valid part of TB, and the encoder's registers. -/
structure Receives (s s' : State) (seq : List Word) : Prop where
  tb : tbEntries s' = seq
  args : frameArgsOf s' = receiverArgs s (emitArgsOf s.regs)
  cursor : s'.regs.cursor.toNat = 0
  nbits : s'.regs.nbits = s.regs.nbits
  tol : s'.regs.tol = s.regs.tol
  baOff : s'.regs.baOff = s.regs.baOff
  build : s'.build = s.build

/-- A matcher's core run on the message from its start is the one its command runs. -/
theorem Receives.run {s s' : State} {seq : List Word} (h : Receives s s' seq) {α : Type}
    (core : List Word → Nat → Nat → FrameArgs → Match α) {m : Match α}
    (hm : core seq 0 s.regs.nbits.toNat (receiverArgs s (emitArgsOf s.regs)) = m) :
    core (tbEntries s') s'.regs.cursor.toNat s'.regs.nbits.toNat (frameArgsOf s') = m := by
  rw [h.tb, h.cursor, h.nbits, h.args, hm]

theorem CopiedBack.receives {s t s' : State} {seq : List Word} (hc : CopiedBack t s') (ht : t = writeOutput seq s)
    (h0 : t.status = 0) : Receives s s' seq := by
  have hside : t.regs = s.regs ∧ t.build = s.build := by
    subst ht
    obtain ⟨c, e⟩ | ⟨words, -, e⟩ := writeOutput_ends seq s <;> rw [e] <;> exact ⟨rfl, rfl⟩
  have htb := tbEntries_copied ht h0 hc
  obtain ⟨hregs, hbuild⟩ := hside
  obtain ⟨hb, hr, -⟩ := hc
  rw [hregs] at hr
  rw [hbuild] at hb
  have hargs : frameArgsOf s' = frameArgsOf s := by
    simp only [frameArgsOf, hr, hb]
    rfl
  exact ⟨htb, hargs.trans (frameArgsOf_eq_receiverArgs s), by rw [hr]; rfl, by rw [hr], by rw [hr], by rw [hr], hb⟩

end Sys2Proof.Machine
end

section
/-! The obligations of the encoder family. -/

namespace Sys2Proof.Machine

/-- Settles O37: the command fails or writes its sequence, which is the message of VAL's bits in wire order. -/
theorem encodeGenericBitsOutcomes : Obligations.EncodeGenericBitsOutcomes := by
  intro s
  refine ⟨fun hill => encodeCommand_illegal (mt (bitsLegal_iff _).1 (by omega)), fun h1 h64 => ?_⟩
  have hmsg := (encodeGenericBits_emitArgsOf s.regs _ s.regs.nbits.toNat).trans
    (congrArg _ (emitBits_valOperand s.regs _ (emitArgsOf s.regs)))
  exact hmsg ▸ encodeCommand_legal ((bitsLegal_iff _).2 ⟨h1, h64⟩)

/-- Settles O38: as in bit mode, with the bytes of the range of BA. -/
theorem encodeGenericBytesOutcomes : Obligations.EncodeGenericBytesOutcomes := by
  rintro s len off rfl rfl
  refine ⟨fun hill => encodeCommand_illegal (mt (byteEncodeLegal_iff _ _).1 (by omega)), fun h0 h8 hcap => ?_⟩
  have hmsg := (encodeGenericBytes_emitArgsOf s.regs _).trans
    (congrArg _ (emitBytes_baBytes s s.regs.baOff.toNat (s.regs.nbits.toNat / 8) (emitArgsOf s.regs)))
  exact hmsg ▸ encodeCommand_legal ((byteEncodeLegal_iff _ _).2 ⟨⟨h0, h8⟩, hcap⟩)

/-- Settles O39: as in bit mode, with the pairs of R188. -/
theorem encodeCbtOutcomes : Obligations.EncodeCbtOutcomes := by
  intro s
  refine ⟨fun hill => encodeCommand_illegal (mt (bitsLegal_iff _).1 (by omega)), fun h1 h64 => ?_⟩
  have hmsg := (encodeCbt_emitArgsOf s.regs _ s.regs.nbits.toNat).trans
    (congrArg _ (emitBits_valOperand s.regs _ (cbtEmit (emitArgsOf s.regs))))
  exact hmsg ▸ encodeCommand_legal ((bitsLegal_iff _).2 ⟨h1, h64⟩)

/-- Settles O40: OB_LEN is the length of the message, whose body has two entries per bit. -/
theorem encodedLength : Obligations.EncodedLength := by
  rintro i s t (rfl | rfl | rfl) h h0 <;> cases h <;> rw [encodeCommand_obLen rfl h0]
  · rw [encodeGenericBits_emitArgsOf, messageOf_length _ (emitBits_length _ _ _)]
  · obtain ⟨hlegal, -⟩ := encodeCommand_ok rfl h0
    obtain ⟨⟨-, h8⟩, -⟩ := (byteEncodeLegal_iff _ _).1 hlegal
    rw [encodeGenericBytes_emitArgsOf, messageOf_length _ (emitBytes_baBytes_length s _ _ h8)]
  · rw [encodeCbt_emitArgsOf, messageOf_length _ (emitBits_length _ _ _)]

/-- Settles O41: the first section of the message is read back, and its entries are those of R190. -/
theorem genericBitsRoundTrip : Obligations.GenericBitsRoundTrip := by
  intro s t s' h h0 hc htol hap hgap hmarks
  cases h
  obtain ⟨hlegal, -, hout⟩ := encodeCommand_ok rfl h0
  obtain ⟨h1, h64⟩ := (bitsLegal_iff _).1 hlegal
  have hrec := hc.receives hout h0
  have hok := matchGenericBits_encoded (hmarks.sectionOwn hgap)
    (hmarks.codingOwn rfl rfl rfl rfl (fun k hk => wireBit_valOperand s.regs _ hk) hap)
  rw [encodeFrame_emitArgsOf, sectionOf_length _ (emitBits_length _ _ _)] at hok
  rw [val_toNat]
  exact execMatchGenericBits_of_legal (hrec.tol ▸ htol) (hrec.nbits ▸ h1) (hrec.nbits ▸ h64)
    (hrec.run matchGenericBits hok)

/-- Settles O42: as in bit mode, and the bytes read back are written to the range they were taken from. -/
theorem genericBytesRoundTrip : Obligations.GenericBytesRoundTrip := by
  intro s t s' h h0 hc htol hap hgap hmarks
  cases h
  obtain ⟨hlegal, -, hout⟩ := encodeCommand_ok rfl h0
  obtain ⟨⟨hn, h8⟩, hcap⟩ := (byteEncodeLegal_iff _ _).1 hlegal
  have hrec := hc.receives hout h0
  have hn8 : 8 * (s.regs.nbits.toNat / 8) = s.regs.nbits.toNat := by omega
  have hok := matchGenericBytes_encoded (hmarks.sectionOwn hgap)
    (bs := baBytes s s.regs.baOff.toNat (s.regs.nbits.toNat / 8)) (fun b hb => by
      obtain ⟨i, hi, rfl⟩ := List.mem_map.1 hb
      refine hmarks.codingOwn rfl rfl rfl rfl (fun k hk => ?_) hap
      exact hn8 ▸ wireBit_byte (fun i => readBa s (s.regs.baOff.toNat + i)) _ (List.mem_range.1 hi) hk)
  rw [encodeFrame_emitArgsOf, sectionOf_length _ (emitBytes_baBytes_length s _ _ h8), baBytes_length, hn8] at hok
  have hexec := execMatchGenericBytes_of_legal (hrec.tol ▸ htol) (hrec.nbits ▸ hn) (hrec.nbits ▸ h8)
    (by rwa [hrec.baOff, hrec.nbits, hrec.build]) (hrec.run matchGenericBytes hok)
  rw [hrec.baOff] at hexec
  refine ⟨_, hexec, rfl, rfl, rfl, fun j hj => ?_⟩
  have hj' : j < (baBytes s s.regs.baOff.toNat (s.regs.nbits.toNat / 8)).length := by rwa [baBytes_length]
  rw [← baBytes_getElem s _ _ j hj']
  exact readBa_writeBytes_inside s' _ _ j hj'

/-- Settles O43: with a footer mark the frame is a section of the pairs of R188, and without one its last bit is
inferred from a mark that was sent. -/
theorem cbtRoundTrip : Obligations.CbtRoundTrip := by
  intro s t s' h h0 hc htol hgap hap hmarks
  cases h
  obtain ⟨hlegal, -, hout⟩ := encodeCommand_ok rfl h0
  obtain ⟨h1, h64⟩ := (bitsLegal_iff _).1 hlegal
  have hrec := hc.receives hout h0
  have hok := matchCbt_encoded h1 hmarks hgap hap
    (hmarks.codingOwn rfl rfl rfl rfl (fun k hk => wireBit_valOperand s.regs _ hk)
      fun hboth => Bool.eq_false_iff.1 hap hboth.1)
  rw [val_toNat]
  exact execMatchCbt_of_legal (hrec.tol ▸ htol) (hrec.nbits ▸ h1) (hrec.nbits ▸ h64) (hrec.run matchCbt hok)

end Sys2Proof.Machine
end

section
/-! The dispatcher's commands: the search that DECODE makes and the Decode Result it leaves (R204, R205), how the two
encode-dispatch commands end (R209, R210), and a reference protocol beside its descriptor in the registers (R202). -/

namespace Sys2Proof.Machine

/-! ### DECODE's search (R204) -/

/-- The search over the offsets 0 .. K stops at the first that gives something. -/
theorem findSome?_range_of_first {α : Type} {f : Nat → Option α} {off K : Nat} {x : α} (hK : off ≤ K)
    (hbefore : ∀ off' < off, f off' = none) (hx : f off = some x) : (List.range (K + 1)).findSome? f = some x := by
  obtain ⟨k, rfl⟩ := Nat.exists_eq_add_of_le hK
  have hnone : (List.range off).findSome? f = none :=
    List.findSome?_eq_none_iff.2 fun i hi => hbefore i (List.mem_range.1 hi)
  rw [Nat.add_assoc, List.range_add, List.findSome?_append, hnone, Option.none_or, List.range_succ_eq_map]
  simp [hx]

section
variable {b : Build} {tb : List Word} {strict : Bool} {off : Nat}

theorem firstAt_eq_none (h : ∀ q ∈ b.table.entries, entryDec b q tb off strict = none) :
    firstAt b tb strict off = none := by
  simpa [firstAt] using h

theorem firstAt_eq_some {pre post : List ProtoEntry} {p : ProtoEntry} {rec : Record}
    (htable : b.table.entries = pre ++ p :: post) (hpre : ∀ q ∈ pre, entryDec b q tb off strict = none)
    (hp : entryDec b p tb off strict = some rec) : firstAt b tb strict off = some (p.id, rec) :=
  List.findSome?_eq_some_iff.2 ⟨pre, p, post, htable, by rw [hp]; rfl, fun q hq => by rw [hpre q hq]; rfl⟩

end

/-! ### DECODE's endings (R205) -/

theorem execDecode_of_none {s : State}
    (h : dispatch s.build (tbEntries s) s.regs.maxSkip.toNat (cfgStrict s.regs) = none) :
    exec .decode s = .next (raise .noMatch (anyDr s)) := by
  simp only [exec, execDecode, h]

theorem execDecode_of_some {s : State} {id : Half} {rec : Record}
    (h : dispatch s.build (tbEntries s) s.regs.maxSkip.toNat (cfgStrict s.regs) = some (id, rec)) :
    exec .decode s = .next (finishOk (setDr s (recordDr s.build id rec))) := by
  simp only [exec, execDecode, h]

theorem recordDr_header (b : Build) (id : Half) (rec : Record) :
    (recordDr b id rec).success = 1 ∧ (recordDr b id rec).proto = id ∧ (recordDr b id rec).bits = rec.bits ∧
      (recordDr b id rec).derived = rec.derived := by
  obtain ⟨bits, _ | _, derived⟩ := rec <;> exact ⟨rfl, rfl, rfl, rfl⟩

theorem recordDr_int (b : Build) (id : Half) {rec : Record} {v : BitVec 64} (h : rec.payload = .int v) :
    (recordDr b id rec).kind = 0 ∧ (recordDr b id rec).valHi ++ (recordDr b id rec).valLo = v ∧
      (recordDr b id rec).nbytes = 0 ∧ ∀ j, readDrs (recordDr b id rec) j = 0 := by
  obtain ⟨bits, _, derived⟩ := rec
  cases h
  have hval : v.extractLsb' 32 32 ++ v.extractLsb' 0 32 = v :=
    (BitVec.extractLsb'_append_extractLsb'_eq_extractLsb' rfl).trans BitVec.extractLsb'_eq_self
  exact ⟨rfl, hval, rfl, fun _ => rfl⟩

/-- The bytes 0, 1, … written over an empty memory with default `d` read as the list, and as `d` beyond it. -/
theorem memGet_memPutAll_nil {w : Nat} (d : BitVec w) (vs : List (BitVec w)) (j : Nat) :
    (memGet (memPutAll (some d) [] 0 vs) j).getD d = vs.getD j d := by
  by_cases hj : j < vs.length
  · have hin := memGet_memPutAll_dflt d vs [] 0 j rfl hj
    rw [Nat.zero_add] at hin
    rw [hin, List.getD_eq_getElem _ _ hj]
  · rw [memGet_memPutAll_outside _ vs [] 0 j (.inr (by omega)), List.getD_eq_default _ _ (by omega)]
    rfl

theorem recordDr_bytes {b : Build} (id : Half) {rec : Record} {bs : List Byte} (hlegal : recordLegal b rec = true)
    (h : rec.payload = .bytes bs) :
    (recordDr b id rec).kind = 1 ∧ (recordDr b id rec).valLo = 0 ∧ (recordDr b id rec).valHi = 0 ∧
      (recordDr b id rec).nbytes.toNat = bs.length ∧ ∀ j, readDrs (recordDr b id rec) j = bs.getD j 0 := by
  obtain ⟨bits, _, derived⟩ := rec
  cases h
  have hlen : bs.length ≤ b.baCap := of_decide_eq_true hlegal
  obtain ⟨-, hcap⟩ := b.baCap_range
  exact ⟨rfl, rfl, rfl, Nat.mod_eq_of_lt (by omega : bs.length < 2 ^ 16), memGet_memPutAll_nil 0#8 bs⟩

/-- DECODE's search reads the valid entries of TB alone. -/
theorem tbEntries_congr {s₁ s₂ : State} (hlen : s₁.regs.tbLen = s₂.regs.tbLen)
    (h : ∀ i, i < s₁.regs.tbLen.toNat → readTb s₁ i = readTb s₂ i) : tbEntries s₁ = tbEntries s₂ := by
  rw [tbEntries, tbEntries, ← hlen]
  exact List.map_congr_left fun i hi => h i (List.mem_range.1 hi)

/-! ### Encoding through the table (R208 to R210) -/

section
variable {s : State}

theorem encodeProto_unknown (payload : Payload) (h : ∀ p ∈ s.build.table.entries, p.id ≠ s.regs.protoId) :
    encodeFailed s (encodeProto payload s) 4 := by
  rw [encodeProto, lookup_eq_none.2 h]
  rfl

theorem encodeProto_named {payload : Payload} {p : ProtoEntry} {seq : List Word} (hp : p ∈ s.build.table.entries)
    (hid : p.id = s.regs.protoId) (hseq : seq = entryEnc p payload s.regs.repeatCount) :
    (seq = [] → encodeFailed s (encodeProto payload s) 3) ∧
      (seq ≠ [] → encodeEndsWith s (encodeProto payload s) seq) := by
  simp only [encodeProto, lookup_eq_some.2 ⟨hp, hid⟩, ← hseq]
  cases seq with
  | nil => exact ⟨fun _ => rfl, fun h => absurd rfl h⟩
  | cons v vs => exact ⟨nofun, fun _ => writeOutput_endsWith _ s⟩

theorem execEncodeProtoBytes_of_range (h : s.regs.baOff.toNat + s.regs.nbytes.toNat ≤ s.build.baCap) :
    exec .encodeProtoBytes s =
      .next (encodeProto (.bytes (baBytes s s.regs.baOff.toNat s.regs.nbytes.toNat)) s) :=
  congrArg _ (if_pos ((rangeLegal_iff _ _ _).2 h))

theorem execEncodeProtoBytes_of_outOfRange (h : s.build.baCap < s.regs.baOff.toNat + s.regs.nbytes.toNat) :
    exec .encodeProtoBytes s = .next (raiseEncode .illegalOperand s) :=
  congrArg _ (if_neg (mt (rangeLegal_iff _ _ _).1 (by omega)))

end

/-! ### A reference protocol (R202) -/

/-- The matcher a reference protocol decodes with. -/
def descMatch (b : Build) (d : Descriptor) (tb : List Word) (off : Nat) : Match Nat :=
  match d.kind with
  | .generic => matchGenericBits tb off d.n (descFrameArgs b d)
  | .cbt => matchCbt tb off d.n (descFrameArgs b d)

/-- The record a reference protocol makes of its matcher's outcome. -/
def descRecord (b : Build) (d : Descriptor) (m : Match Nat) : Option Record :=
  match m with
  | .ok v _ => some ⟨BitVec.ofNat 16 d.n, .int (BitVec.ofNat 64 v), b.derived0⟩
  | .fail _ => none

theorem descDec_eq (b : Build) (d : Descriptor) (tb : List Word) (off : Nat) :
    descDec b d tb off = descRecord b d (descMatch b d tb off) := rfl

theorem descLegal_iff (d : Descriptor) : d.legal = true ↔ (1 ≤ d.n ∧ d.n ≤ 64) ∧ d.t ≤ 100 := by
  simp [Descriptor.legal]

/-- RES_HI:RES_LO is the result's low 64 bits (R31). -/
theorem resultHalves_append (v : Nat) : BitVec.ofNat 32 (v / 2 ^ 32) ++ BitVec.ofNat 32 v = BitVec.ofNat 64 v := by
  have hlo := (BitVec.ofNat 32 v).isLt
  apply BitVec.eq_of_toNat_eq
  rw [BitVec.toNat_append, ← Nat.shiftLeft_add_eq_or_of_lt hlo, Nat.shiftLeft_eq]
  simp only [BitVec.toNat_ofNat]
  omega

/-- The record as the host finds it in STATUS and RES after the matcher's command. -/
theorem descRecord_finishInt (d : Descriptor) (m : Match Nat) (s : State) :
    descRecord s.build d m =
      if (finishInt m s).status = 0 then
        some ⟨BitVec.ofNat 16 d.n, .int ((finishInt m s).res.hi ++ (finishInt m s).res.lo), s.build.derived0⟩
      else none := by
  cases m with
  | ok v u =>
    rw [descRecord, ← resultHalves_append]
    rfl
  | fail w => exact (if_neg (mt (statusCode_eq_zero _).1 (missStatus_ne_ok w))).symm

theorem DescriptorLoaded.frameArgsOf_eq {s : State} {d : Descriptor} (h : DescriptorLoaded s.regs d) :
    frameArgsOf s = descFrameArgs s.build d := by
  obtain ⟨hhm, hhs, hom, hos, hzm, hzs, hfm, hfs, -, ht, hx, hmsb, hal⟩ := h
  simp only [frameArgsOf, descFrameArgs, codingOf, cfgMsbFirst, cfgAtLeast, hhm, hhs, hom, hos, hzm, hzs, hfm, hfs, ht,
    hx, hmsb, hal]

theorem DescriptorLoaded.emitArgsOf_eq {r : OperandRegs} {d : Descriptor} (h : DescriptorLoaded r d) :
    emitArgsOf r = descEmitArgs d r.repeatCount := by
  obtain ⟨hhm, hhs, hom, hos, hzm, hzs, hfm, hfs, -, -, -, hmsb, -⟩ := h
  simp only [emitArgsOf, descEmitArgs, cfgMsbFirst, hhm, hhs, hom, hos, hzm, hzs, hfm, hfs, hmsb]

/-- The matcher command of the descriptor's kind, with the descriptor in the registers. -/
theorem exec_descMatch {s : State} {d : Descriptor} (hlegal : d.legal = true) (h : DescriptorLoaded s.regs d) :
    exec (match d.kind with | .generic => .matchGenericBits | .cbt => .matchCbt) s =
      .next (finishInt (descMatch s.build d (tbEntries s) s.regs.cursor.toNat) s) := by
  have hargs := h.frameArgsOf_eq
  obtain ⟨-, -, -, -, -, -, -, -, hn, ht, -⟩ := h
  obtain ⟨⟨h1, h64⟩, h100⟩ := (descLegal_iff d).1 hlegal
  rw [← ht] at h100
  rw [← hn] at h1 h64
  rw [descMatch, ← hargs, ← hn]
  cases d.kind with
  | generic => exact execMatchGenericBits_of_legal h100 h1 h64 rfl
  | cbt => exact execMatchCbt_of_legal h100 h1 h64 rfl

theorem descEnc_int {r : OperandRegs} {d : Descriptor} (h : DescriptorLoaded r d) (v : BitVec 64) :
    descEnc d (.int v) r.repeatCount = messageOf r (wireEntries d.msb d.n (fun k => v.getLsbD k)
      (match d.kind with | .generic => [d.om, d.os] | .cbt => [d.om, d.zm])
      (match d.kind with | .generic => [d.zm, d.zs] | .cbt => [d.zm, d.om])) := by
  rw [descEnc, ← h.emitArgsOf_eq, encodeGenericBits_emitArgsOf, encodeCbt_emitArgsOf, h.emitArgsOf_eq]
  cases d.kind <;> rfl

end Sys2Proof.Machine
end

section
/-! The obligations of the dispatcher family. -/

namespace Sys2Proof.Machine

/-- Settles O44: the registers and the descriptor give the matcher, and the encoder, the same arguments. -/
theorem referenceProtocolIsItsDescriptor : Obligations.ReferenceProtocolIsItsDescriptor := by
  intro id d hlegal
  refine ⟨fun s t strict hload hexec => ?_, fun r v hload => descEnc_int hload v, fun _ _ => rfl⟩
  cases (exec_descMatch hlegal hload).symm.trans hexec
  exact (descDec_eq _ d _ _).trans (descRecord_finishInt d _ s)

/-- Settles O45: the outer search stops at the first offset, the inner one at the first entry, and the record's fields
stand in the Decode Result. -/
theorem decodeIsAPrioritySearch : Obligations.DecodeIsAPrioritySearch := by
  rintro s dec rfl
  refine ⟨fun off pre post p rec hoff htable hbefore hpre hp => ?_, fun hnone => ?_⟩
  · have hfound := findSome?_range_of_first hoff
      (fun off' hlt => firstAt_eq_none fun q hq => hbefore off' q hlt hq) (firstAt_eq_some htable hpre hp)
    obtain ⟨hsuccess, hproto, hbits, hderived⟩ := recordDr_header s.build p.id rec
    exact ⟨_, execDecode_of_some hfound, hsuccess, hproto, hbits, hderived, fun _ => recordDr_int s.build p.id,
      fun _ => recordDr_bytes p.id (entryDec_legal hp)⟩
  · exact ⟨_, _, execDecode_of_none (dispatch_none.2 fun off hoff q => hnone off q hoff), rfl⟩

/-- Settles O46: both states make the same search, and its outcome fixes what is compared. -/
theorem decodeDependsOnItsOperandsOnly : Obligations.DecodeDependsOnItsOperandsOnly := by
  intro s₁ s₂ t₁ t₂ hbuild hlen hskip hstrict htb h₁ h₂
  have hsearch : dispatch s₂.build (tbEntries s₂) s₂.regs.maxSkip.toNat (cfgStrict s₂.regs) =
      dispatch s₁.build (tbEntries s₁) s₁.regs.maxSkip.toNat (cfgStrict s₁.regs) := by
    simp only [cfgStrict, hbuild, tbEntries_congr hlen htb, hskip, hstrict]
  cases hfound : dispatch s₁.build (tbEntries s₁) s₁.regs.maxSkip.toNat (cfgStrict s₁.regs) with
  | none =>
    cases (execDecode_of_none hfound).symm.trans h₁
    cases (execDecode_of_none (hsearch.trans hfound)).symm.trans h₂
    exact ⟨rfl, rfl, nofun⟩
  | some found =>
    cases (execDecode_of_some hfound).symm.trans h₁
    cases (execDecode_of_some (hsearch.trans hfound)).symm.trans h₂
    have hdr : recordDr s₁.build found.1 found.2 = recordDr s₂.build found.1 found.2 := by rw [hbuild]
    exact ⟨rfl, congrArg DecodeResult.success hdr, fun _ => hdr⟩

/-- Settles O47: the two ends of the lookup, and of the encoder's sequence. -/
theorem encodeProtoIntOutcomes : Obligations.EncodeProtoIntOutcomes := by
  intro s
  exact ⟨fun hunknown => ⟨_, rfl, encodeProto_unknown _ hunknown⟩,
    fun _ _ hp hid hseq => ⟨_, rfl, encodeProto_named hp hid hseq⟩⟩

/-- Settles O48: the range check, then the same two ends as for an integer. -/
theorem encodeProtoBytesOutcomes : Obligations.EncodeProtoBytesOutcomes := by
  rintro s off nb rfl rfl
  refine ⟨fun hover => ⟨_, execEncodeProtoBytes_of_outOfRange hover, rfl⟩, fun hrange => ?_⟩
  have hexec := execEncodeProtoBytes_of_range hrange
  exact ⟨fun hunknown => ⟨_, hexec, encodeProto_unknown _ hunknown⟩,
    fun _ _ hp hid hseq => ⟨_, hexec, encodeProto_named hp hid hseq⟩⟩

/-- Settles O49: the contract of R200 keeps UNKNOWN out of every table, so both commands' lookups fail. -/
theorem unknownIdentityIsUnsupported : Obligations.UnknownIdentityIsUnsupported := by
  intro s hproto
  have hunknown : ∀ p ∈ s.build.table.entries, p.id ≠ s.regs.protoId := fun p hp => by
    rw [hproto]
    exact entry_id_ne_unknown hp
  exact ⟨(encodeProtoIntOutcomes s).1 hunknown,
    fun hrange => ((encodeProtoBytesOutcomes s _ _ rfl rfl).2 hrange).1 hunknown⟩

/-- Settles O50: the reset values are written out in the model's reset of the Decode Result. -/
theorem resetResultResetsDecodeResult : Obligations.ResetResultResetsDecodeResult := by
  intro s
  exact ⟨finishOk (resetDr s), rfl, rfl, rfl, rfl, rfl, rfl, rfl, rfl, rfl, fun _ => rfl, rfl, rfl⟩

end Sys2Proof.Machine
end

section
/-! The codes a command can end with (R230): those of its comparison, matcher or encoder, and ILLEGAL_OPERAND besides
where its operands are checked (R232). -/

namespace Sys2Proof.Machine

/-- R232: the check of the operands adds ILLEGAL_OPERAND to the codes of the command behind it. -/
theorem checked_status_mem {legal : Bool} {t f : State} {codes all : List Byte} (ht : t.status ∈ codes)
    (hf : f.status = statusCode .illegalOperand) (hall : statusCode .illegalOperand :: codes ⊆ all) :
    (if legal then t else f).status ∈ all := by
  apply hall
  split
  · exact List.mem_cons_of_mem _ ht
  · exact hf ▸ List.mem_cons_self

theorem pulseCommand_status_mem (r : Bool) (s : State) : (pulseCommand r s).status ∈ ([0, 2, 7] : List Byte) := by
  have hcompared : (if r then finishOk (setRes s (withMatched s.res true)) else raisePulse .timingMismatch s).status ∈
      ([0, 2] : List Byte) := by
    cases r <;> simp [raisePulse, statusCode]
  exact checked_status_mem hcompared rfl (by decide)

theorem finishInt_status_mem (m : Match Nat) (s : State) : (finishInt m s).status ∈ ([0, 1, 2] : List Byte) := by
  cases m with
  | ok v u => exact List.mem_cons_self
  | fail w => cases w <;> simp [finishInt, raiseInt, missStatus, statusCode]

theorem finishBytes_status_mem (off len : Nat) (m : Match (List Byte)) (s : State) :
    (finishBytes off len m s).status ∈ ([0, 1, 2] : List Byte) := by
  rcases finishBytes_cases off len m s with ⟨-, h⟩ | ⟨-, h⟩ | ⟨bs, u, -, h⟩ <;> simp [h, raiseBytes, statusCode]

theorem writeOutput_status_mem (seq : List Word) (s : State) :
    (writeOutput seq s).status ∈ ([0, 8] : List Byte) := by
  rcases writeOutput_cases seq s with ⟨-, h⟩ | ⟨-, h⟩ <;> simp [h, raiseEncode, statusCode]

/-- R209: a failed lookup and an empty sequence have codes of their own. -/
theorem encodeProto_status_mem (payload : Payload) (s : State) :
    (encodeProto payload s).status ∈ ([0, 3, 4, 8] : List Byte) := by
  unfold encodeProto
  split
  · simp [raiseEncode, statusCode]
  · split
    · simp [raiseEncode, statusCode]
    · have hsub : ([0, 8] : List Byte) ⊆ [0, 3, 4, 8] := by decide
      exact hsub (writeOutput_status_mem _ s)

theorem DecodeEnds.status_mem {s t : State} (h : DecodeEnds s t) : t.status ∈ ([0, 5] : List Byte) := by
  obtain ⟨p, -, rec, -, rfl⟩ | rfl := h <;> simp [statusCode]

end Sys2Proof.Machine
end

section
/-! The obligations of the exceptions family. -/

namespace Sys2Proof.Machine

/-- Settles O58: the codes of what each command does with legal operands, and the check of the operands where R232 has
one. -/
theorem statusCodesPerCommand : Obligations.StatusCodesPerCommand := by
  intro i s t h
  cases i with
  | window => cases h; exact checked_status_mem (codes := [0]) List.mem_cons_self rfl (by decide)
  | matchMark => cases h; exact pulseCommand_status_mem _ s
  | matchSpace => cases h; exact pulseCommand_status_mem _ s
  | matchAtLeast => cases h; exact pulseCommand_status_mem _ s
  | matchData => cases h; exact checked_status_mem (finishInt_status_mem _ s) rfl (by decide)
  | matchBytes => cases h; exact checked_status_mem (finishBytes_status_mem _ _ _ s) rfl (by decide)
  | matchGenericBits => cases h; exact checked_status_mem (finishInt_status_mem _ s) rfl (by decide)
  | matchGenericBytes => cases h; exact checked_status_mem (finishBytes_status_mem _ _ _ s) rfl (by decide)
  | matchCbt => cases h; exact checked_status_mem (finishInt_status_mem _ s) rfl (by decide)
  | encodeGenericBits => cases h; exact checked_status_mem (writeOutput_status_mem _ s) rfl (by decide)
  | encodeGenericBytes => cases h; exact checked_status_mem (writeOutput_status_mem _ s) rfl (by decide)
  | encodeCbt => cases h; exact checked_status_mem (writeOutput_status_mem _ s) rfl (by decide)
  | decode => exact (execDecode_ends h).status_mem
  | encodeProtoInt => cases h; exact encodeProto_status_mem _ s
  | encodeProtoBytes => cases h; exact checked_status_mem (encodeProto_status_mem _ s) rfl (by decide)
  | resetResult => cases h; exact List.mem_cons_self

/-- Settles O59: every arm of `exec` answers a next state. -/
theorem everyCommandCompletes : Obligations.EveryCommandCompletes := exec_hasNext

end Sys2Proof.Machine
end

section
/-! Host writes that the unit ignores (R272), and the platform's reset as a step (R260, R261). -/

namespace Sys2Proof.Machine

/-! ### Ignored writes -/

/-- R272: a write to a register that the host cannot write stores nothing in the operand registers. -/
theorem writeOperandReg_of_readOnly {r : Reg} (hr : writableReg r = false) (w : Word) (b : Build) (o : OperandRegs) :
    writeOperandReg r w b o = o := by
  cases r with
  | cmd | status | resMatch | resUsed | resLo | resHi | res2Lo | res2Hi | obLen => rfl
  | drSuccess | drProto | drBits | drKind | drValLo | drValHi | drNbytes => rfl
  | _ => cases hr

/-- A step that writes to a target which ignores the word takes the operation off the script and does no more. -/
theorem step_writeIgnored {s : State} {a : Access} {w : Word} {rest : List HostOp} {tgt : Target}
    (h : s.script = .write a w :: rest) (ha : accessLegal a = true) (htgt : busTarget s.build a.offset = tgt)
    (hcmd : tgt ≠ .reg .cmd) (hignored : ∀ u, busWrite tgt w u = u) :
    step s = .next { s with script := rest } := by
  subst htgt
  rw [step_write s a w rest h ha hcmd, hignored]
  rfl

/-- What stands in a window, an element or nothing beyond its capacity, ignores writes if its elements do. -/
theorem step_writeIgnored_window {s : State} {a : Access} {w : Word} {rest : List HostOp} {cap i : Nat} {elt : Target}
    (h : s.script = .write a w :: rest) (ha : accessLegal a = true)
    (htgt : busTarget s.build a.offset = windowTarget cap i elt) (hcmd : elt ≠ .reg .cmd)
    (hignored : ∀ u, busWrite elt w u = u) : step s = .next { s with script := rest } := by
  by_cases hi : i < cap
  · exact step_writeIgnored h ha (htgt.trans (if_pos hi)) hcmd hignored
  · exact step_writeIgnored h ha (htgt.trans (if_neg hi)) nofun fun _ => rfl

/-- R62: the whole OB window. -/
theorem busTarget_obWindow (b : Build) {off : Nat} (h : 0x20000 ≤ off ∧ off < 0x30000) :
    busTarget b off = windowTarget b.obCap ((off - 0x20000) / 4) (.ob ((off - 0x20000) / 4)) := by
  rw [busTarget, if_neg (by omega), if_neg (by omega), if_pos h]

/-- R62: the whole DRS window. -/
theorem busTarget_drsWindow (b : Build) {off : Nat} (h : 0x40000 ≤ off ∧ off < 0x44000) :
    busTarget b off = windowTarget b.baCap ((off - 0x40000) / 4) (.drs ((off - 0x40000) / 4)) := by
  rw [busTarget, if_neg (by omega), if_neg (by omega), if_neg (by omega), if_neg (by omega), if_pos h]

/-! ### Reset -/

/-- R261: what a register reads after reset; four registers do not reset to 0. -/
theorem readReg_resetOf (b : Build) (r : Reg) :
    readReg r (State.resetOf b) =
      if r = .tol then 25 else if r = .cfg then 0xD else if r = .protoId ∨ r = .drProto then 0xFFFF else 0 := by
  cases r <;> rfl

/-- R260: the registers after the platform's reset are those after reset. -/
theorem readReg_platformReset (r : Reg) (s : State) :
    readReg r (platformReset s) = readReg r (State.resetOf s.build) := by
  cases r <;> rfl

theorem step_platformReset {s : State} {rest : List HostOp} (h : s.script = .platformReset :: rest) :
    step s = .next (platformReset (setScript s rest)) := by
  rw [step, h]
  rfl

end Sys2Proof.Machine
end

section
/-! The obligations of the reset and hazards family. -/

namespace Sys2Proof.Machine

/-- Settles O6: at each of the three kinds of place stands a target that ignores a write, and TB_LEN takes the clamp. -/
theorem ignoredWritesAndTbLenClamp : Obligations.IgnoredWritesAndTbLenClamp := by
  intro s off w rest haligned hscript
  have hlegal := accessLegal_word32_of_aligned haligned
  constructor
  · rintro (⟨r, hreadOnly, hcmd, rfl⟩ | hob | hdrs)
    · rw [step_writeReg hcmd hscript, writeOperandReg_of_readOnly hreadOnly]
      rfl
    · exact step_writeIgnored_window hscript hlegal (busTarget_obWindow _ hob) nofun fun _ => rfl
    · exact step_writeIgnored_window hscript hlegal (busTarget_drsWindow _ hdrs) nofun fun _ => rfl
  · rintro rfl
    exact step_writeReg (r := .tbLen) nofun hscript

/-- Settles O1: R23's reset column, and no DRS byte listed. -/
theorem resetValuesOfAllRegisters : Obligations.ResetValuesOfAllRegisters := fun b =>
  ⟨readReg_resetOf b, fun _ => rfl, rfl⟩

/-- Settles O13: the platform's reset is `State.resetOf` but for the host's side and the model's two counters. -/
theorem platformResetAndIdle : Obligations.PlatformResetAndIdle := fun s =>
  ⟨fun rest hscript => ⟨platformReset (setScript s rest), step_platformReset hscript,
    fun r => readReg_platformReset r _, fun _ => rfl, rfl, fun _ => ⟨rfl, rfl, rfl⟩, rfl, rfl, rfl⟩,
    step_idle s⟩

end Sys2Proof.Machine
end
